-- ==== Sys2Proof/Word.lean ====
section
/-! DEFINITION. The command word, the response data word, and the shapes of the table entries:
spec/30_encoding.md rules R48 and R50, spec/10_state.md rules R22, R25 and R29. -/

namespace Sys2Proof

/-- A 32-bit command word (R48), and the 32-bit data word of a response (R50). -/
abbrev Word := BitVec 32

/-- An entry of `CODE`, `FIXLL` or `FIXD`: the reversed code and its length (R22). -/
structure CodeEntry where
  code : BitVec 15
  len : BitVec 4
deriving DecidableEq, Repr, Inhabited

/-- An entry of `LTAB` or `DTAB` (R25, R26): valid bit, extra-bit count, code number, base. -/
structure ClassEntry where
  v : Bool
  extra : BitVec 4
  code : BitVec 9
  base : BitVec 16
deriving DecidableEq, Repr, Inhabited

/-- A row of `LSPEC` or `DSPEC` (R29): every raw value in `[start, stop]` has this code, the base
`start` and `extra` extra bits. -/
structure SpecRow where
  code : BitVec 9
  extra : BitVec 4
  start : BitVec 16
  stop : BitVec 16
deriving DecidableEq, Repr, Inhabited

end Sys2Proof
end

