-- ==== Sys2Proof/Syntax.lean ====
section
/-! DEFINITION. The fifteen commands of `CHTB-1`, one constructor per row of the opcode map:
spec/30_encoding.md rule R56. -/

namespace Sys2Proof

/-- The commands. An operand is an unsigned number (R59): `len` of `PUSHLEN` is `arg[3:0]`, every
other operand is the whole of `arg`. The bounds an encoding can carry are in `Instr.wellFormed`. -/
inductive Instr where
  /-- `INIT` (R105). -/
  | init
  /-- `STAT` (R108). -/
  | stat
  /-- `CLRP` (R73). -/
  | clrp
  /-- `PUSHLEN len` (R74). -/
  | pushlen (len : Nat)
  /-- `BUILD` (R75). -/
  | build
  /-- `RDCODE sym` (R76). -/
  | rdcode (sym : Nat)
  /-- `LCLASS length` (R94). -/
  | lclass (length : Nat)
  /-- `DCLASS distance` (R95). -/
  | dclass (distance : Nat)
  /-- `LXB code` (R96). -/
  | lxb (code : Nat)
  /-- `DXB code` (R97). -/
  | dxb (code : Nat)
  /-- `DIDX distance` (R98). -/
  | didx (distance : Nat)
  /-- `RDLTAB idx` (R99). -/
  | rdltab (idx : Nat)
  /-- `RDDTAB idx` (R100). -/
  | rddtab (idx : Nat)
  /-- `RDFIXL sym` (R109). -/
  | rdfixl (sym : Nat)
  /-- `RDFIXD sym` (R110). -/
  | rdfixd (sym : Nat)
deriving DecidableEq, Repr

/-- The three command formats (R49). -/
inductive Format where
  /-- No operand: `arg` must be 0. -/
  | n
  /-- A length in `arg[3:0]`: `arg[15:4]` must be 0. -/
  | l
  /-- An operand in all of `arg`. -/
  | a
deriving DecidableEq, Repr

/-- A row of the opcode map as the spec prints it (R56). -/
structure OpcodeRow where
  mnemonic : String
  format : Format
  op : BitVec 8
  matchBits : Word
  mask : Word
deriving DecidableEq, Repr

end Sys2Proof
end

