-- ==== Sys2Proof/WellFormed.lean ====
section
/-! DEFINITION. Which commands an encoding can carry: spec/30_encoding.md rules R48 and R49. -/

namespace Sys2Proof

/-- A length nibble holds 0 to 15 (R49, format `L`). -/
def lenFieldOk (len : Nat) : Bool := decide (len < 2 ^ 4)

/-- `arg` holds 0 to 65535 (R49, format `A`). -/
def argFieldOk (arg : Nat) : Bool := decide (arg < 2 ^ 16)

/-- The operand fits its field. The domain of an operand is no part of this: the command's own rule
checks it (R54 step 3). -/
def Instr.wellFormed : Instr → Bool
  | .init | .stat | .clrp | .build => true
  | .pushlen len => lenFieldOk len
  | .rdcode sym | .rdfixl sym | .rdfixd sym => argFieldOk sym
  | .lclass length => argFieldOk length
  | .dclass distance | .didx distance => argFieldOk distance
  | .lxb code | .dxb code => argFieldOk code
  | .rdltab idx | .rddtab idx => argFieldOk idx

end Sys2Proof
end

