-- ==== Sys2Proof/Decode.lean ====
section
/-! DEFINITION. Decoding a command word, and encoding a command: spec/30_encoding.md rules R48, R49,
R54 step 1, R56, R57, R59. -/

namespace Sys2Proof

/-- `op = W[31:24]` (R48). -/
def opField (w : Word) : BitVec 8 := w.extractLsb' 24 8

/-- `rsv = W[23:16]` (R48). -/
def rsvField (w : Word) : BitVec 8 := w.extractLsb' 16 8

/-- `arg = W[15:0]` (R48). -/
def argField (w : Word) : BitVec 16 := w.extractLsb' 0 16

/-- Why a word is no command (R57). Every one of them is the condition `IllegalCommand`. -/
inductive DecodeError where
  /-- No row has this `op`. -/
  | unknownOpcode
  /-- `rsv` is not 0. -/
  | reservedNotZero
  /-- A command of format `N` with `arg` not 0. -/
  | operandNotZero
  /-- A `PUSHLEN` with `arg[15:4]` not 0. -/
  | lengthTooWide
deriving DecidableEq, Repr

/-- The second check of R54 step 1, before the format's own. -/
def needRsvZero (w : Word) (rest : Except DecodeError Instr) : Except DecodeError Instr :=
  if rsvField w = 0 then rest else .error .reservedNotZero

/-- Format `N` (R49). -/
def decodeN (w : Word) (i : Instr) : Except DecodeError Instr :=
  needRsvZero w (if argField w = 0 then .ok i else .error .operandNotZero)

/-- Format `L` (R49): the operand is `arg[3:0]` (R59). -/
def decodeL (w : Word) (mk : Nat → Instr) : Except DecodeError Instr :=
  needRsvZero w
    (if (argField w).extractLsb' 4 12 = 0 then .ok (mk ((argField w).extractLsb' 0 4).toNat)
      else .error .lengthTooWide)

/-- Format `A` (R49): the operand is `arg`, zero extended (R59). -/
def decodeA (w : Word) (mk : Nat → Instr) : Except DecodeError Instr :=
  needRsvZero w (.ok (mk (argField w).toNat))

/-- R54 step 1 over the opcode map of R56. Total: every word is a command or is rejected by name. -/
def decode (w : Word) : Except DecodeError Instr :=
  match (opField w).toNat with
  | 0x01 => decodeN w .init
  | 0x02 => decodeN w .stat
  | 0x10 => decodeN w .clrp
  | 0x11 => decodeL w .pushlen
  | 0x12 => decodeN w .build
  | 0x13 => decodeA w .rdcode
  | 0x20 => decodeA w .lclass
  | 0x21 => decodeA w .dclass
  | 0x22 => decodeA w .lxb
  | 0x23 => decodeA w .dxb
  | 0x24 => decodeA w .didx
  | 0x25 => decodeA w .rdltab
  | 0x26 => decodeA w .rddtab
  | 0x30 => decodeA w .rdfixl
  | 0x31 => decodeA w .rdfixd
  | _ => .error .unknownOpcode

/-- The opcode map as R56 prints it. `decode` does not use it: that the two agree is a statement. -/
def opcodeTable : List OpcodeRow :=
  [ ⟨"INIT", .n, 0x01, 0x01000000, 0xFFFFFFFF⟩,
    ⟨"STAT", .n, 0x02, 0x02000000, 0xFFFFFFFF⟩,
    ⟨"CLRP", .n, 0x10, 0x10000000, 0xFFFFFFFF⟩,
    ⟨"PUSHLEN", .l, 0x11, 0x11000000, 0xFFFFFFF0⟩,
    ⟨"BUILD", .n, 0x12, 0x12000000, 0xFFFFFFFF⟩,
    ⟨"RDCODE", .a, 0x13, 0x13000000, 0xFFFF0000⟩,
    ⟨"LCLASS", .a, 0x20, 0x20000000, 0xFFFF0000⟩,
    ⟨"DCLASS", .a, 0x21, 0x21000000, 0xFFFF0000⟩,
    ⟨"LXB", .a, 0x22, 0x22000000, 0xFFFF0000⟩,
    ⟨"DXB", .a, 0x23, 0x23000000, 0xFFFF0000⟩,
    ⟨"DIDX", .a, 0x24, 0x24000000, 0xFFFF0000⟩,
    ⟨"RDLTAB", .a, 0x25, 0x25000000, 0xFFFF0000⟩,
    ⟨"RDDTAB", .a, 0x26, 0x26000000, 0xFFFF0000⟩,
    ⟨"RDFIXL", .a, 0x30, 0x30000000, 0xFFFF0000⟩,
    ⟨"RDFIXD", .a, 0x31, 0x31000000, 0xFFFF0000⟩ ]

/-- The name a command has in the opcode map (R56). -/
def Instr.mnemonic : Instr → String
  | .init => "INIT"
  | .stat => "STAT"
  | .clrp => "CLRP"
  | .pushlen _ => "PUSHLEN"
  | .build => "BUILD"
  | .rdcode _ => "RDCODE"
  | .lclass _ => "LCLASS"
  | .dclass _ => "DCLASS"
  | .lxb _ => "LXB"
  | .dxb _ => "DXB"
  | .didx _ => "DIDX"
  | .rdltab _ => "RDLTAB"
  | .rddtab _ => "RDDTAB"
  | .rdfixl _ => "RDFIXL"
  | .rdfixd _ => "RDFIXD"

/-- A command word from its fields, `rsv` being 0 (R48). -/
def wordOf (op : BitVec 8) (arg : Nat) : Word := op ++ (0 : BitVec 8) ++ BitVec.ofNat 16 arg

/-- The word of a well-formed command (R48, R49, R56). -/
def encode : Instr → Word
  | .init => wordOf 0x01 0
  | .stat => wordOf 0x02 0
  | .clrp => wordOf 0x10 0
  | .pushlen len => wordOf 0x11 len
  | .build => wordOf 0x12 0
  | .rdcode sym => wordOf 0x13 sym
  | .lclass length => wordOf 0x20 length
  | .dclass distance => wordOf 0x21 distance
  | .lxb code => wordOf 0x22 code
  | .dxb code => wordOf 0x23 code
  | .didx distance => wordOf 0x24 distance
  | .rdltab idx => wordOf 0x25 idx
  | .rddtab idx => wordOf 0x26 idx
  | .rdfixl sym => wordOf 0x30 sym
  | .rdfixd sym => wordOf 0x31 sym

/-- What the decoder reads from an instruction of `nbits` bits that are `w`. A command is one word
of 32 bits and has no byte order (R36, R48): bit 0 of `w` is bit 0 of the word. -/
def decodeTableWord (nbits w : Nat) : Option Instr :=
  let bits := w % 2 ^ nbits
  if bits < 2 ^ 32 then (decode (BitVec.ofNat 32 bits)).toOption else none

end Sys2Proof
end

