-- ==== Sys2Proof/Config.lean ====
section
/-! DEFINITION. The parameters the spec fixes (spec/00_scope.md rules R6 and R7), and the free
values: the contents the spec leaves unspecified after a reset (spec/10_state.md rule R32,
spec/93_implementation_defined.md U1). A free value has no body, so nothing can rest on what it is. -/

namespace Sys2Proof.Config

/-- `MAX_BITS`, the largest code length (R6). -/
@[simp] abbrev maxBits : Nat := 15
/-- `LEN_MIN` (R6). -/
@[simp] abbrev lenMin : Nat := 3
/-- `LEN_MAX` (R6). -/
@[simp] abbrev lenMax : Nat := 258
/-- `DIST_MIN` (R6). -/
@[simp] abbrev distMin : Nat := 1
/-- `DIST_MAX` (R6). -/
@[simp] abbrev distMax : Nat := 32768
/-- `N_LCODES` (R6). -/
@[simp] abbrev nLcodes : Nat := 29
/-- `LCODE0` (R6). -/
@[simp] abbrev lcode0 : Nat := 257
/-- `N_DCODES` (R6). -/
@[simp] abbrev nDcodes : Nat := 30
/-- `DIDX_SPLIT` (R6). -/
@[simp] abbrev didxSplit : Nat := 256
/-- `DIDX_SHIFT` (R6). -/
@[simp] abbrev didxShift : Nat := 7
/-- `FIXLL_N` (R6). -/
@[simp] abbrev fixllN : Nat := 288
/-- `FIXD_N` (R6). -/
@[simp] abbrev fixdN : Nat := 32
/-- `LEXTRA_MAX` (R6). -/
@[simp] abbrev lextraMax : Nat := 5
/-- `DEXTRA_MAX` (R6). -/
@[simp] abbrev dextraMax : Nat := 13
/-- `LTAB_DEPTH` (R7). -/
@[simp] abbrev ltabDepth : Nat := 259
/-- `DTAB_DEPTH` (R7, spec/90_conflicts.md C1). -/
@[simp] abbrev dtabDepth : Nat := 512
/-- The Kraft sum 1, scaled by `2^15` (R65). -/
@[simp] abbrev kraftOne : Nat := 32768

/-- `PROFILE_LL`, the fixed literal/length profile (R6, R30). -/
def profileLL : List (BitVec 4) :=
  List.replicate 144 8 ++ List.replicate 112 9 ++ List.replicate 24 7 ++ List.replicate 8 8

/-- `PROFILE_D`, the fixed distance profile (R6, R30). -/
def profileD : List (BitVec 4) := List.replicate 32 5

/-! Free values. Each is given the number of resets so far and, for a table or a register array,
the index: an entry that nothing has written since that reset reads as it
(notes/assumptions/4.md and 5.md). -/

/-- `LEN[i]` unwritten since reset `n` (R32, U1, U4). -/
opaque freeLen : Nat → Nat → BitVec 4
/-- `CODE[i]` unwritten since reset `n` (R32, U1, U4). -/
opaque freeCode : Nat → Nat → CodeEntry
/-- `FIXLL[i]` unwritten since reset `n` (R32, U1). -/
opaque freeFixll : Nat → Nat → CodeEntry
/-- `FIXD[i]` unwritten since reset `n` (R32, U1). -/
opaque freeFixd : Nat → Nat → CodeEntry
/-- `LTAB[i]` unwritten since reset `n` (R32, U1). -/
opaque freeLtab : Nat → Nat → ClassEntry
/-- `DTAB[i]` unwritten since reset `n` (R32, U1). -/
opaque freeDtab : Nat → Nat → ClassEntry
/-- `LXTRA[i]` unwritten since reset `n` (R32, U1). -/
opaque freeLxtra : Nat → Nat → BitVec 4
/-- `DXTRA[i]` unwritten since reset `n` (R32, U1). -/
opaque freeDxtra : Nat → Nat → BitVec 4
/-- `bl_count[b]` after reset `n` (R20, R32). -/
opaque freeBlCount : Nat → Nat → BitVec 16
/-- `next_code[b]` after reset `n` (R20, R32). -/
opaque freeNextCode : Nat → Nat → BitVec 16
/-- `kraft` after reset `n` (R20, R32). -/
opaque freeKraft : Nat → BitVec 32

end Sys2Proof.Config
end

