-- ==== Sys2Proof/Machine/Intervals.lean ====
section
/-! DEFINITION. The interval tables and what makes a configuration well formed:
spec/41_classifier.md rules R81 to R84, spec/00_scope.md rules R7 and R8. -/

namespace Sys2Proof.Machine

/-- `v` lies in the row's interval (R81). -/
def rowContains (v : Nat) (r : SpecRow) : Bool :=
  decide (r.start.toNat ≤ v) && decide (v ≤ r.stop.toNat)

/-- The classification entry a row gives its values (R81, R89, R90): written, so `v = 1`. -/
def rowEntry (r : SpecRow) : ClassEntry :=
  { v := true, extra := r.extra, code := r.code, base := r.start }

/-- `Class(spec, v)` of R81, as an entry: the first row in row order that contains `v`. A well-formed
table has such a row for every value of its domain; `none` is a value outside it. -/
def classify (rows : List SpecRow) (v : Nat) : Option ClassEntry :=
  (rows.find? (rowContains v)).map rowEntry

/-- Row `i` has code `code0 + i` (R82). -/
def codesInOrder (code0 : Nat) : List SpecRow → Bool
  | [] => true
  | r :: rows => decide (r.code.toNat = code0) && codesInOrder (code0 + 1) rows

/-- The intervals start at `lo`, end at `hi` and follow one another without a gap (R82). -/
def contiguous (lo hi : Nat) : List SpecRow → Bool
  | [] => false
  | [r] => decide (r.start.toNat = lo) && decide (r.start.toNat ≤ r.stop.toNat)
      && decide (r.stop.toNat = hi)
  | r :: rows => decide (r.start.toNat = lo) && decide (r.start.toNat ≤ r.stop.toNat)
      && contiguous (r.stop.toNat + 1) hi rows

/-- The extra bits of a row are within the table's bound and number its values (R82). -/
def extraOk (maxExtra : Nat) (r : SpecRow) : Bool :=
  decide (r.extra.toNat ≤ maxExtra)
    && decide (r.stop.toNat - r.start.toNat + 1 ≤ 2 ^ r.extra.toNat)

/-- `LSPEC` is well formed (R82). -/
def lspecWF (rows : List SpecRow) : Bool :=
  decide (rows.length = Config.nLcodes) && codesInOrder Config.lcode0 rows
    && contiguous Config.lenMin Config.lenMax rows && rows.all (extraOk Config.lextraMax)

/-- `DSPEC` is well formed (R82). -/
def dspecWF (rows : List SpecRow) : Bool :=
  decide (rows.length = Config.nDcodes) && codesInOrder 0 rows
    && contiguous Config.distMin Config.distMax rows && rows.all (extraOk Config.dextraMax)

/-- `WF_SPEC` (R82) and the bounds of `NSYM_MAX` (R7). -/
def configWF (lspec dspec : List SpecRow) (nsymMax : Nat) : Bool :=
  lspecWF lspec && dspecWF dspec && decide (1 ≤ nsymMax) && decide (nsymMax ≤ 65535)

/-- Default `LSPEC` (R83). -/
def defaultLspec : List SpecRow :=
  [ ⟨257, 0, 3, 3⟩, ⟨258, 0, 4, 4⟩, ⟨259, 0, 5, 5⟩, ⟨260, 0, 6, 6⟩, ⟨261, 0, 7, 7⟩, ⟨262, 0, 8, 8⟩,
    ⟨263, 0, 9, 9⟩, ⟨264, 0, 10, 10⟩, ⟨265, 1, 11, 12⟩, ⟨266, 1, 13, 14⟩, ⟨267, 1, 15, 16⟩,
    ⟨268, 1, 17, 18⟩, ⟨269, 2, 19, 22⟩, ⟨270, 2, 23, 26⟩, ⟨271, 2, 27, 30⟩, ⟨272, 2, 31, 34⟩,
    ⟨273, 3, 35, 42⟩, ⟨274, 3, 43, 50⟩, ⟨275, 3, 51, 58⟩, ⟨276, 3, 59, 66⟩, ⟨277, 4, 67, 82⟩,
    ⟨278, 4, 83, 98⟩, ⟨279, 4, 99, 114⟩, ⟨280, 4, 115, 130⟩, ⟨281, 5, 131, 162⟩,
    ⟨282, 5, 163, 194⟩, ⟨283, 5, 195, 226⟩, ⟨284, 5, 227, 257⟩, ⟨285, 0, 258, 258⟩ ]

/-- Default `DSPEC` (R84). -/
def defaultDspec : List SpecRow :=
  [ ⟨0, 0, 1, 1⟩, ⟨1, 0, 2, 2⟩, ⟨2, 0, 3, 3⟩, ⟨3, 0, 4, 4⟩, ⟨4, 1, 5, 6⟩, ⟨5, 1, 7, 8⟩,
    ⟨6, 2, 9, 12⟩, ⟨7, 2, 13, 16⟩, ⟨8, 3, 17, 24⟩, ⟨9, 3, 25, 32⟩, ⟨10, 4, 33, 48⟩,
    ⟨11, 4, 49, 64⟩, ⟨12, 5, 65, 96⟩, ⟨13, 5, 97, 128⟩, ⟨14, 6, 129, 192⟩, ⟨15, 6, 193, 256⟩,
    ⟨16, 7, 257, 384⟩, ⟨17, 7, 385, 512⟩, ⟨18, 8, 513, 768⟩, ⟨19, 8, 769, 1024⟩,
    ⟨20, 9, 1025, 1536⟩, ⟨21, 9, 1537, 2048⟩, ⟨22, 10, 2049, 3072⟩, ⟨23, 10, 3073, 4096⟩,
    ⟨24, 11, 4097, 6144⟩, ⟨25, 11, 6145, 8192⟩, ⟨26, 12, 8193, 12288⟩, ⟨27, 12, 12289, 16384⟩,
    ⟨28, 13, 16385, 24576⟩, ⟨29, 13, 24577, 32768⟩ ]

/-- The configuration of the block: parameters of the step in the spec (R8, R31), two read-only
memories and the buffer capacity in the hardware (R29, R7). The type carries the check, so a
configuration that is not well formed is refused where it would be made
(spec/93_implementation_defined.md U3). -/
structure Configuration where
  lspec : List SpecRow
  dspec : List SpecRow
  nsymMax : Nat
  wf : configWF lspec dspec nsymMax = true
deriving DecidableEq, Repr

/-- The default configuration (R7, R83, R84). -/
def defaultConfig : Configuration :=
  { lspec := defaultLspec, dspec := defaultDspec, nsymMax := 288, wf := by decide }

end Sys2Proof.Machine
end

