-- ==== Sys2Proof/Machine/State.lean ====
section
/-! DEFINITION. The state of the block as plain data: spec/10_state.md, with the host's side of the
command port and of the reset input (spec/20_memory.md rule R43, spec/70_reset_and_hazards.md rules
R129 and R139). -/

namespace Sys2Proof.Machine

/-- `MODE` (R15): the value 3 is never held, so it is no mode. -/
inductive Mode where
  /-- After reset; `INIT` has not run. -/
  | uninit
  /-- `INIT` ran to its end. -/
  | ready
  /-- `INIT` raised a condition. -/
  | failed
deriving DecidableEq, Repr

/-- The five conditions (R115). -/
inductive Condition where
  /-- Code 1: the profile is over-subscribed (R116). -/
  | invalidCodeLengths
  /-- Code 2: an operand outside its bounds (R117). -/
  | domainError
  /-- Code 3: two distances with one index classify differently (R118). -/
  | tableInconsistency
  /-- Code 4: the word is no command (R121). -/
  | illegalCommand
  /-- Code 5: the command's state condition is not met (R119). -/
  | protocolError
deriving DecidableEq, Repr

/-- A response `(err, data)` (R50). -/
structure Response where
  err : BitVec 3
  data : Word
deriving DecidableEq, Repr

/-- What the host may do to the block (R139): present a word, or assert reset between commands. -/
inductive HostInput where
  /-- A word on the command port. -/
  | command (w : Word)
  /-- The reset input (R129). -/
  | reset
deriving DecidableEq, Repr

/-- A table memory: the entries written since the last reset, as pairs of index and entry. Its
canonical form is `Table.wf`: indices strictly rising, so equal contents are equal data. An index
that is not listed reads as a free value of `Config`. -/
abbrev Table (α : Type) := List (Nat × α)

/-- The canonical form of one table. -/
abbrev Table.wf {α : Type} (t : Table α) : Prop := t.Pairwise (fun a b => a.1 < b.1)

/-- The eight table memories that commands write (R21 to R28, R34). -/
structure Memory where
  len : Table (BitVec 4)
  code : Table CodeEntry
  fixll : Table CodeEntry
  fixd : Table CodeEntry
  ltab : Table ClassEntry
  dtab : Table ClassEntry
  lxtra : Table (BitVec 4)
  dxtra : Table (BitVec 4)
deriving DecidableEq, Repr

/-- Memory with nothing listed: what a reset leaves (R32). -/
def Memory.empty : Memory :=
  { len := [], code := [], fixll := [], fixd := [], ltab := [], dtab := [], lxtra := [], dxtra := [] }

/-- Every table is in canonical form. -/
abbrev Memory.wf (m : Memory) : Prop :=
  m.len.wf ∧ m.code.wf ∧ m.fixll.wf ∧ m.fixd.wf ∧ m.ltab.wf ∧ m.dtab.wf ∧ m.lxtra.wf ∧ m.dxtra.wf

/-- The working registers of the builder (R20). -/
structure Work where
  blCount : Vector (BitVec 16) 16
  nextCode : Vector (BitVec 16) 16
  kraft : BitVec 32
deriving DecidableEq, Repr

/-- The working registers after reset number `n`: unspecified, so free values (R32). -/
def Work.afterReset (n : Nat) : Work :=
  { blCount := Vector.ofFn (fun b => Config.freeBlCount n b.val)
    nextCode := Vector.ofFn (fun b => Config.freeNextCode n b.val)
    kraft := Config.freeKraft n }

/-- The state: the block's own fields first, then the read-only configuration, then the model's own
fields for the world outside. -/
structure State where
  /-- `MODE` (R15). -/
  mode : Mode
  /-- `ERR` (R16). -/
  err : BitVec 3
  /-- `NSYM` (R17). -/
  nsym : BitVec 16
  /-- `CV` (R18). -/
  cv : Bool
  /-- `bl_count`, `next_code`, `kraft` (R20). -/
  work : Work
  /-- The eight table memories (R21 to R28). -/
  mem : Memory
  /-- `LSPEC`, `DSPEC` (R29) and `NSYM_MAX` (R7): nothing changes them. -/
  cfg : Configuration
  /-- The model's own counter of resets, the argument of the free values. -/
  resets : Nat
  /-- The model's own: what the host will do next, first element first. -/
  inputs : List HostInput
  /-- The model's own: the responses given so far, oldest first. -/
  responses : List Response
deriving DecidableEq, Repr

/-- Why the machine stops with a fault: never. Every word has exactly one response and the block
never halts or faults into a dead state (R139), so there is no reason to name. Safe: nothing raises
one. -/
inductive Fault
deriving DecidableEq, Repr

/-- Why the machine refuses. -/
inductive Refusal where
  /-- Raised by an arm of `exec` for an instruction without a meaning: no arm is one, so nothing
  raises it. Safe: it stops. -/
  | notModelled (mnemonic : String)
deriving DecidableEq, Repr

/-- The state right after the first reset, with configuration `cfg` (R32, R129). -/
def State.powerOn (cfg : Configuration) : State :=
  { mode := .uninit, err := 0, nsym := 0, cv := false, work := Work.afterReset 0
    mem := Memory.empty, cfg := cfg, resets := 0, inputs := [], responses := [] }

/-- The machine right after reset, in the default configuration. -/
def State.reset : State := State.powerOn defaultConfig

end Sys2Proof.Machine
end

