-- ==== Sys2Proof/Machine/Ops.lean ====
section
/-! DEFINITION. The operations the meanings share: reading and writing table entries, ending a
command with a response, taking a condition, and reset. spec/20_memory.md rules R34 to R41,
spec/30_encoding.md rules R50 to R54, spec/60_exceptions.md rules R115 and R120,
spec/70_reset_and_hazards.md rule R129. -/

namespace Sys2Proof.Machine

/-! ## One table -/

/-- The entry at index `i`, if one has been written (R35: the unit is a whole entry). -/
def Table.lookup {α : Type} : Table α → Nat → Option α
  | [], _ => none
  | (j, e) :: t, i => if i = j then some e else Table.lookup t i

/-- `T[i] <- e` (R10), keeping the canonical form. -/
def Table.put {α : Type} : Table α → Nat → α → Table α
  | [], i, e => [(i, e)]
  | (j, x) :: t, i, e =>
    if i < j then (i, e) :: (j, x) :: t
    else if i = j then (i, e) :: t
    else (j, x) :: Table.put t i e

/-- The writes of a list, in its order. -/
def Table.putAll {α : Type} (t : Table α) : List (Nat × α) → Table α
  | [] => t
  | (i, e) :: ws => Table.putAll (t.put i e) ws

/-- The elements of a list with the numbers `k`, `k + 1`, ... -/
def numberFrom {α : Type} (k : Nat) : List α → List (Nat × α)
  | [] => []
  | x :: xs => (k, x) :: numberFrom (k + 1) xs

/-! ## Reads of the tables: an entry not written since the reset is a free value (R32, U1) -/

/-- `LEN[i]` (R21). -/
def State.readLen (s : State) (i : Nat) : BitVec 4 :=
  (s.mem.len.lookup i).getD (Config.freeLen s.resets i)

/-- `CODE[i]` (R22). -/
def State.readCode (s : State) (i : Nat) : CodeEntry :=
  (s.mem.code.lookup i).getD (Config.freeCode s.resets i)

/-- `FIXLL[i]` (R23). -/
def State.readFixll (s : State) (i : Nat) : CodeEntry :=
  (s.mem.fixll.lookup i).getD (Config.freeFixll s.resets i)

/-- `FIXD[i]` (R24). -/
def State.readFixd (s : State) (i : Nat) : CodeEntry :=
  (s.mem.fixd.lookup i).getD (Config.freeFixd s.resets i)

/-- `LTAB[i]` (R25). -/
def State.readLtab (s : State) (i : Nat) : ClassEntry :=
  (s.mem.ltab.lookup i).getD (Config.freeLtab s.resets i)

/-- `DTAB[i]` (R26). -/
def State.readDtab (s : State) (i : Nat) : ClassEntry :=
  (s.mem.dtab.lookup i).getD (Config.freeDtab s.resets i)

/-- `LXTRA[i]` (R27). -/
def State.readLxtra (s : State) (i : Nat) : BitVec 4 :=
  (s.mem.lxtra.lookup i).getD (Config.freeLxtra s.resets i)

/-- `DXTRA[i]` (R28). -/
def State.readDxtra (s : State) (i : Nat) : BitVec 4 :=
  (s.mem.dxtra.lookup i).getD (Config.freeDxtra s.resets i)

/-- The profile: `LEN[0]` to `LEN[NSYM-1]` (R17). -/
def State.profile (s : State) : List (BitVec 4) := (List.range s.nsym.toNat).map s.readLen

/-! ## Writes of the tables -/

/-- `LEN[i] <- e` (R74). -/
def State.writeLen (s : State) (i : Nat) (e : BitVec 4) : State :=
  { s with mem := { s.mem with len := s.mem.len.put i e } }

/-- `CODE[k] <- out[k]` for every `k` (R75). -/
def State.writeCodes (s : State) (out : List CodeEntry) : State :=
  { s with mem := { s.mem with code := s.mem.code.putAll (numberFrom 0 out) } }

/-- `FIXLL[k] <- out[k]` for every `k` (R105 step 1). -/
def State.writeFixll (s : State) (out : List CodeEntry) : State :=
  { s with mem := { s.mem with fixll := s.mem.fixll.putAll (numberFrom 0 out) } }

/-- `FIXD[k] <- out[k]` for every `k` (R105 step 2). -/
def State.writeFixd (s : State) (out : List CodeEntry) : State :=
  { s with mem := { s.mem with fixd := s.mem.fixd.putAll (numberFrom 0 out) } }

/-! ## Packing (R51, R52) -/

/-- `pack_code(e)` (R51): `code` in 14:0, `len` in 19:16. -/
def packCode (e : CodeEntry) : Word := (0 : BitVec 12) ++ e.len ++ (0 : BitVec 1) ++ e.code

/-- `pack_class(e)` (R52): `base` in 15:0, `code` in 24:16, `extra` in 28:25, `v` in 31. -/
def packClass (e : ClassEntry) : Word :=
  BitVec.ofBool e.v ++ (0 : BitVec 2) ++ e.extra ++ e.code ++ e.base

/-! ## How a command ends -/

/-- `respond(data)` (R10, R11): error code 0 and the data word. -/
def State.respond (s : State) (data : Word) : State :=
  { s with responses := s.responses ++ [{ err := 0, data := data }] }

/-- The code of a condition (R115). -/
def Condition.code : Condition → BitVec 3
  | .invalidCodeLengths => 1
  | .domainError => 2
  | .tableInconsistency => 3
  | .illegalCommand => 4
  | .protocolError => 5

/-- Where a condition is raised: the rows of the table of R120. -/
inductive Raiser where
  /-- In the checks of R54, by any command. -/
  | check
  /-- By the function `Build` inside `BUILD`. -/
  | build
  /-- By the construction inside `INIT`. -/
  | init
deriving DecidableEq, Repr

/-- The state a condition writes, by the row of R120. -/
def State.recordCondition (s : State) (by_ : Raiser) (c : Condition) : State :=
  match by_ with
  | .check => s
  | .build => { s with cv := false }
  | .init => { s with mode := .failed, err := c.code }

/-- Taking a condition, the block's "trap entry" (R120): the state the row of the table writes, and
the response `(err = code, data = 0)`. Nothing is saved and control goes nowhere, so there is no
return from it (R124). -/
def State.takeCondition (s : State) (by_ : Raiser) (c : Condition) : State :=
  let t := s.recordCondition by_ c
  { t with responses := t.responses ++ [{ err := c.code, data := 0 }] }

/-- Steps 2 and 3 of R54 and then the command's own work: the state condition fails first, with
`ProtocolError`, then the operand, with `DomainError` (R122). -/
def State.checked (s : State) (stateOk operandOk : Bool) (body : State) : State :=
  if stateOk then
    if operandOk then body else s.takeCondition .check .domainError
  else s.takeCondition .check .protocolError

/-! ## Reset -/

/-- The reset input (R129): every piece of state at its value of R32, the read-only memories
untouched. What the host has yet to do and the responses given are the host's. -/
def State.applyReset (s : State) : State :=
  { s with
    mode := .uninit, err := 0, nsym := 0, cv := false
    work := Work.afterReset (s.resets + 1), mem := Memory.empty, resets := s.resets + 1 }

end Sys2Proof.Machine
end

