-- ==== Sys2Proof/Machine/Canonical.lean ====
section
/-! DEFINITION. The canonical code builder: the function `Build` of spec/40_builder.md rules R63 to
R70, and what it leaves in the working registers (spec/10_state.md rule R20). -/

namespace Sys2Proof.Machine

/-- `rev(c, L)` (R64): the low `L` bits of `c` in the opposite order, and 0 above. -/
def rev (c : Nat) : Nat → Nat
  | 0 => 0
  | L + 1 => (c % 2) * 2 ^ L + rev (c / 2) L

/-- Register `b` of sixteen. The sixteen registers are numbered 0 to 15; there is no other. -/
def reg (v : Vector Nat 16) (b : Nat) : Nat := v[b]?.getD 0

/-- Register `b` is set to `x`. -/
def setReg (v : Vector Nat 16) (b x : Nat) : Vector Nat 16 := v.setIfInBounds b x

/-- The loop of R66 from the counters it has reached: a symbol of non-zero length adds 1 to the
counter of its length. -/
def countFrom (bl : Vector Nat 16) : List (BitVec 4) → Vector Nat 16
  | [] => bl
  | l :: ls => countFrom (if l = 0 then bl else setReg bl l.toNat (reg bl l.toNat + 1)) ls

/-- `bl_count` after step 1 (R66). -/
def countLengths (lens : List (BitVec 4)) : Vector Nat 16 :=
  countFrom (Vector.replicate 16 0) lens

/-- `max_len` (R66). -/
def maxLength : List (BitVec 4) → Nat
  | [] => 0
  | l :: ls => max l.toNat (maxLength ls)

/-- The terms `bl_count[b] * 2^(15-b)` for `b` in `1..n`. -/
def kraftUpTo (bl : Vector Nat 16) : Nat → Nat
  | 0 => 0
  | b + 1 => kraftUpTo bl b + reg bl (b + 1) * 2 ^ (Config.maxBits - (b + 1))

/-- `kraft` (R67). -/
def kraftSum (bl : Vector Nat 16) : Nat := kraftUpTo bl Config.maxBits

/-- The running `code` of R68 after the turn for `b`: before the first turn it is 0. -/
def firstCode (bl : Vector Nat 16) : Nat → Nat
  | 0 => 0
  | b + 1 => (firstCode bl b + reg bl b) <<< 1

/-- `next_code` after step 2 (R68). The entries 0 and above `max_len` are not written there and are
not read (`workAfter` says what the registers then hold); they stand as 0. -/
def firstCodes (bl : Vector Nat 16) (maxLen : Nat) : Vector Nat 16 :=
  Vector.ofFn (fun b => if b.val ≤ maxLen then firstCode bl b.val else 0)

/-- The sentinel (R69). -/
def sentinel : CodeEntry := { code := 0, len := 0 }

/-- Steps 3 and 4 (R69, R70) from the `next_code` they have reached: the entries in symbol order, and
`next_code` afterwards. -/
def assign (next : Vector Nat 16) : List (BitVec 4) → List CodeEntry × Vector Nat 16
  | [] => ([], next)
  | l :: ls =>
    if l = 0 then
      ((sentinel :: (assign next ls).1), (assign next ls).2)
    else
      let c := reg next l.toNat
      let r := assign (setReg next l.toNat (c + 1)) ls
      ({ code := BitVec.ofNat 15 (rev c l.toNat), len := l } :: r.1, r.2)

/-- The profile is over-subscribed (R65, R67). -/
def overSubscribed (lens : List (BitVec 4)) : Bool :=
  decide (Config.kraftOne < kraftSum (countLengths lens))

/-- Steps 2 to 4 for a profile that passed the check. -/
def assignAll (lens : List (BitVec 4)) : List CodeEntry × Vector Nat 16 :=
  assign (firstCodes (countLengths lens) (maxLength lens)) lens

/-- `Build(n, len[0..n-1])` (R70). -/
def build (lens : List (BitVec 4)) : Except Condition (List CodeEntry) :=
  if overSubscribed lens then .error .invalidCodeLengths else .ok (assignAll lens).1

/-- The working registers after `Build` has run on a profile (R20, R66 to R70): `bl_count` and `kraft`
are written before the check, `next_code[1..max_len]` only after it. -/
def workAfter (w : Work) (lens : List (BitVec 4)) : Work :=
  let bl := countLengths lens
  { blCount := bl.map (BitVec.ofNat 16)
    kraft := BitVec.ofNat 32 (kraftSum bl)
    nextCode :=
      if overSubscribed lens then w.nextCode
      else
        let next := (assignAll lens).2
        Vector.ofFn (fun b =>
          if 1 ≤ b.val ∧ b.val ≤ maxLength lens then BitVec.ofNat 16 (reg next b.val)
          else w.nextCode[b]) }

end Sys2Proof.Machine
end

