-- ==== Sys2Proof/Machine/Flags.lean ====
section
/-! DEFINITION. The status registers: the state conditions of the commands (spec/30_encoding.md rule
R55) and the status word (spec/10_state.md rules R15 to R19). What sets and clears `MODE`, `ERR`,
`NSYM` and `CV` stands in the meanings and in `State.recordCondition`. -/

namespace Sys2Proof.Machine

/-- `MODE = UNINIT` (R55, `INIT`). -/
def State.isUninit (s : State) : Bool := decide (s.mode = .uninit)

/-- `MODE = READY` (R55, the eight readers of fixed tables). -/
def State.isReady (s : State) : Bool := decide (s.mode = .ready)

/-- `NSYM < NSYM_MAX` (R55, `PUSHLEN`). -/
def State.hasRoom (s : State) : Bool := decide (s.nsym.toNat < s.cfg.nsymMax)

/-- The number of a mode (R15). -/
def Mode.bits : Mode → BitVec 2
  | .uninit => 0
  | .ready => 1
  | .failed => 2

/-- The status word (R19, R108): `MODE` in 1:0, `ERR` in 4:2, `CV` in 5, 0 in 15:6, `NSYM` in
31:16. -/
def State.statusWord (s : State) : Word :=
  s.nsym ++ (0 : BitVec 10) ++ BitVec.ofBool s.cv ++ s.err ++ s.mode.bits

end Sys2Proof.Machine
end

