-- ==== Sys2Proof/Machine/Operands.lean ====
section
/-! DEFINITION. The operand bounds (spec/60_exceptions.md rule R117, spec/20_memory.md rule R38) and
the distance index (spec/41_classifier.md rule R86). Operand assembly, rule R59, is in Decode.lean:
an operand reaches a meaning as an unsigned number. -/

namespace Sys2Proof.Machine

/-- `3 ≤ length ≤ 258` (R94). -/
def lengthInDomain (length : Nat) : Bool :=
  decide (Config.lenMin ≤ length) && decide (length ≤ Config.lenMax)

/-- `1 ≤ distance ≤ 32768` (R95, R98). -/
def distanceInDomain (distance : Nat) : Bool :=
  decide (Config.distMin ≤ distance) && decide (distance ≤ Config.distMax)

/-- `257 ≤ code ≤ 285` (R96). -/
def lengthCodeInRange (code : Nat) : Bool :=
  decide (Config.lcode0 ≤ code) && decide (code < Config.lcode0 + Config.nLcodes)

/-- `code ≤ 29` (R97). -/
def distanceCodeInRange (code : Nat) : Bool := decide (code < Config.nDcodes)

/-- `idx ≤ 258` (R99). -/
def ltabIndexInRange (idx : Nat) : Bool := decide (idx < Config.ltabDepth)

/-- `idx ≤ 511` (R100). -/
def dtabIndexInRange (idx : Nat) : Bool := decide (idx < Config.dtabDepth)

/-- `sym < NSYM` (R76). -/
def symbolInProfile (s : State) (sym : Nat) : Bool := decide (sym < s.nsym.toNat)

/-- `sym ≤ 287` (R109). -/
def fixllSymbolInRange (sym : Nat) : Bool := decide (sym < Config.fixllN)

/-- `sym ≤ 31` (R110). -/
def fixdSymbolInRange (sym : Nat) : Bool := decide (sym < Config.fixdN)

/-- `DistanceIndex(d)` (R86). -/
def distanceIndex (d : Nat) : Nat :=
  if d ≤ Config.didxSplit then d - 1 else Config.didxSplit + ((d - 1) >>> Config.didxShift)

end Sys2Proof.Machine
end

