-- ==== Sys2Proof/Machine/Builder.lean ====
section
/-! DEFINITION. The builder's commands `CLRP`, `PUSHLEN`, `BUILD`, `RDCODE`: spec/40_builder.md rules
R73 to R76. -/

namespace Sys2Proof.Machine

/-- `CLRP` (R73). The entries of `LEN` and `CODE` are not erased. -/
def execClrp (s : State) : Host.Outcome State Fault Refusal :=
  .next (State.respond { s with nsym := 0, cv := false } 0)

/-- `PUSHLEN len` (R74). `len` is the nibble `arg[3:0]`. -/
def execPushlen (len : Nat) (s : State) : Host.Outcome State Fault Refusal :=
  .next (s.checked s.hasRoom true
    (State.respond
      { s.writeLen s.nsym.toNat (BitVec.ofNat 4 len) with nsym := s.nsym + 1, cv := false } 0))

/-- The work of `BUILD` (R75). -/
def State.runBuild (s : State) : State :=
  let t := { s with work := workAfter s.work s.profile }
  match build s.profile with
  | .error c => t.takeCondition .build c
  | .ok out => State.respond { t.writeCodes out with cv := true } 0

/-- `BUILD` (R75). -/
def execBuild (s : State) : Host.Outcome State Fault Refusal := .next s.runBuild

/-- `RDCODE sym` (R76). -/
def execRdcode (sym : Nat) (s : State) : Host.Outcome State Fault Refusal :=
  .next (s.checked s.cv (symbolInProfile s sym) (s.respond (packCode (s.readCode sym))))

end Sys2Proof.Machine
end

