-- ==== Sys2Proof/Machine/Classifier.lean ====
section
/-! DEFINITION. The classifier: the construction of its tables (spec/41_classifier.md rules R89, R90,
R92) and its commands `LCLASS`, `DCLASS`, `LXB`, `DXB`, `DIDX`, `RDLTAB`, `RDDTAB` (R94 to R100). -/

namespace Sys2Proof.Machine

/-! ## Construction -/

/-- The entry that construction clears a slot to (R89, R90). -/
def blankEntry : ClassEntry := { v := false, extra := 0, code := 0, base := 0 }

/-- The writes that clear a table of `n` entries. -/
def blankWrites (n : Nat) : List (Nat × ClassEntry) := (List.range n).map (fun i => (i, blankEntry))

/-- The writes of one row of `LSPEC` (R89): one for each `L` in `start..stop`. -/
def rowWrites (r : SpecRow) : List (Nat × ClassEntry) :=
  (List.range' r.start.toNat (r.stop.toNat + 1 - r.start.toNat)).map (fun L => (L, rowEntry r))

/-- `BuildLTAB()` (R89). -/
def buildLtab (rows : List SpecRow) (t : Table ClassEntry) : Table ClassEntry :=
  (t.putAll (blankWrites Config.ltabDepth)).putAll (rows.flatMap rowWrites)

/-- The check of R90: the slot has been written, and one of the three fields differs. -/
def conflicts (old : Option ClassEntry) (new : ClassEntry) : Bool :=
  match old with
  | none => false
  | some e => e.v && !(e.code == new.code && e.base == new.base && e.extra == new.extra)

/-- The loop of R90 over the distances of a list. `error` carries the table as far as it was written
when `TableInconsistency` was raised (R105: tables already written stay written). A well-formed table
classifies every distance of the loop; one that it did not would write nothing. -/
def fillDtab (rows : List SpecRow) :
    List Nat → Table ClassEntry → Except (Table ClassEntry) (Table ClassEntry)
  | [], t => .ok t
  | d :: ds, t =>
    match classify rows d with
    | none => fillDtab rows ds t
    | some e =>
      if conflicts (t.lookup (distanceIndex d)) e then .error t
      else fillDtab rows ds (t.put (distanceIndex d) e)

/-- `BuildDTAB()` (R90): clear, then every distance in ascending order. -/
def buildDtab (rows : List SpecRow) (t : Table ClassEntry) :
    Except (Table ClassEntry) (Table ClassEntry) :=
  fillDtab rows (List.range' Config.distMin Config.distMax)
    (t.putAll (blankWrites Config.dtabDepth))

/-- One half of `BuildXTRA()` (R92): entry `r` is the extra-bit count of row `r`. -/
def buildXtra (rows : List SpecRow) (t : Table (BitVec 4)) : Table (BitVec 4) :=
  t.putAll (numberFrom 0 (rows.map SpecRow.extra))

/-! ## Commands -/

/-- `LCLASS length` (R94). -/
def execLclass (length : Nat) (s : State) : Host.Outcome State Fault Refusal :=
  .next (s.checked s.isReady (lengthInDomain length)
    (s.respond (packClass (s.readLtab length))))

/-- `DCLASS distance` (R95). -/
def execDclass (distance : Nat) (s : State) : Host.Outcome State Fault Refusal :=
  .next (s.checked s.isReady (distanceInDomain distance)
    (s.respond (packClass (s.readDtab (distanceIndex distance)))))

/-- `LXB code` (R96). -/
def execLxb (code : Nat) (s : State) : Host.Outcome State Fault Refusal :=
  .next (s.checked s.isReady (lengthCodeInRange code)
    (s.respond ((s.readLxtra (code - Config.lcode0)).setWidth 32)))

/-- `DXB code` (R97). -/
def execDxb (code : Nat) (s : State) : Host.Outcome State Fault Refusal :=
  .next (s.checked s.isReady (distanceCodeInRange code)
    (s.respond ((s.readDxtra code).setWidth 32)))

/-- `DIDX distance` (R98): no state condition. -/
def execDidx (distance : Nat) (s : State) : Host.Outcome State Fault Refusal :=
  .next (s.checked true (distanceInDomain distance)
    (s.respond (BitVec.ofNat 32 (distanceIndex distance))))

/-- `RDLTAB idx` (R99). -/
def execRdltab (idx : Nat) (s : State) : Host.Outcome State Fault Refusal :=
  .next (s.checked s.isReady (ltabIndexInRange idx) (s.respond (packClass (s.readLtab idx))))

/-- `RDDTAB idx` (R100). -/
def execRddtab (idx : Nat) (s : State) : Host.Outcome State Fault Refusal :=
  .next (s.checked s.isReady (dtabIndexInRange idx) (s.respond (packClass (s.readDtab idx))))

end Sys2Proof.Machine
end

