-- ==== Sys2Proof/Machine/System.lean ====
section
/-! DEFINITION. The driver and the system commands `INIT`, `STAT`, `RDFIXL`, `RDFIXD`:
spec/42_driver_system.md rules R105, R108, R109, R110. -/

namespace Sys2Proof.Machine

/-- What a step of `INIT` leaves: the state it has written, or that and the condition it raised
(R105: what was written stays written). -/
abbrev InitResult := Except (State × Condition) State

/-- `INIT` step 1 (R105). -/
def State.initFixll (s : State) : InitResult :=
  let t := { s with work := workAfter s.work Config.profileLL }
  match build Config.profileLL with
  | .error c => .error (t, c)
  | .ok out => .ok (t.writeFixll out)

/-- `INIT` step 2 (R105). -/
def State.initFixd (s : State) : InitResult :=
  let t := { s with work := workAfter s.work Config.profileD }
  match build Config.profileD with
  | .error c => .error (t, c)
  | .ok out => .ok (t.writeFixd out)

/-- `INIT` step 3 (R105): `BuildLTAB()`. -/
def State.initLtab (s : State) : State :=
  { s with mem := { s.mem with ltab := buildLtab s.cfg.lspec s.mem.ltab } }

/-- `INIT` step 4 (R105): `BuildXTRA()`. -/
def State.initXtra (s : State) : State :=
  { s with mem := { s.mem with
      lxtra := buildXtra s.cfg.lspec s.mem.lxtra, dxtra := buildXtra s.cfg.dspec s.mem.dxtra } }

/-- `INIT` step 5 (R105): `BuildDTAB()`. -/
def State.initDtab (s : State) : InitResult :=
  match buildDtab s.cfg.dspec s.mem.dtab with
  | .error t => .error ({ s with mem := { s.mem with dtab := t } }, .tableInconsistency)
  | .ok t => .ok { s with mem := { s.mem with dtab := t } }

/-- Steps 1 to 5 of `INIT` in their order; the first condition raised ends them (R105, R122). -/
def State.construct (s : State) : InitResult :=
  match s.initFixll with
  | .error e => .error e
  | .ok s₁ =>
    match s₁.initFixd with
    | .error e => .error e
    | .ok s₂ => s₂.initLtab.initXtra.initDtab

/-- The work of `INIT` (R105): `READY` and the response, or `FAILED` and the condition. -/
def State.runInit (s : State) : State :=
  match s.construct with
  | .error (t, c) => t.takeCondition .init c
  | .ok t => State.respond { t with mode := .ready } 0

/-- `INIT` (R105). -/
def execInit (s : State) : Host.Outcome State Fault Refusal :=
  .next (s.checked s.isUninit true s.runInit)

/-- `STAT` (R108). -/
def execStat (s : State) : Host.Outcome State Fault Refusal := .next (s.respond s.statusWord)

/-- `RDFIXL sym` (R109). -/
def execRdfixl (sym : Nat) (s : State) : Host.Outcome State Fault Refusal :=
  .next (s.checked s.isReady (fixllSymbolInRange sym) (s.respond (packCode (s.readFixll sym))))

/-- `RDFIXD sym` (R110). -/
def execRdfixd (sym : Nat) (s : State) : Host.Outcome State Fault Refusal :=
  .next (s.checked s.isReady (fixdSymbolInRange sym) (s.respond (packCode (s.readFixd sym))))

end Sys2Proof.Machine
end

