-- ==== Sys2Proof/Machine/Dispatch.lean ====
section
/-! DEFINITION. One arm per command: spec/30_encoding.md rule R56. -/

namespace Sys2Proof.Machine

/-- The meaning of each command. -/
def exec (i : Instr) (s : State) : Host.Outcome State Fault Refusal :=
  match i with
  | .init => Sys2Proof.Machine.execInit s
  | .stat => Sys2Proof.Machine.execStat s
  | .clrp => Sys2Proof.Machine.execClrp s
  | .pushlen len => Sys2Proof.Machine.execPushlen len s
  | .build => Sys2Proof.Machine.execBuild s
  | .rdcode sym => Sys2Proof.Machine.execRdcode sym s
  | .lclass length => Sys2Proof.Machine.execLclass length s
  | .dclass distance => Sys2Proof.Machine.execDclass distance s
  | .lxb code => Sys2Proof.Machine.execLxb code s
  | .dxb code => Sys2Proof.Machine.execDxb code s
  | .didx distance => Sys2Proof.Machine.execDidx distance s
  | .rdltab idx => Sys2Proof.Machine.execRdltab idx s
  | .rddtab idx => Sys2Proof.Machine.execRddtab idx s
  | .rdfixl sym => Sys2Proof.Machine.execRdfixl sym s
  | .rdfixd sym => Sys2Proof.Machine.execRdfixd sym s

end Sys2Proof.Machine
end

