-- ==== Sys2Proof/Machine/Accept.lean ====
section
/-! DEFINITION. Accepting the host's next input: spec/20_memory.md rule R43, spec/30_encoding.md rule
R54 step 1, spec/70_reset_and_hazards.md rules R129, R130 and R139. -/

namespace Sys2Proof.Machine

/-- One command word (R54): the command it decodes to, or `IllegalCommand` and no other effect
(R57, R121). -/
def acceptWord (w : Word) (s : State) : Host.Outcome State Fault Refusal :=
  match decode w with
  | .ok i => exec i s
  | .error _ => .next (s.takeCondition .check .illegalCommand)

/-- The next input of the host: with none, the block waits, idle (R127, R130). -/
def acceptInput (s : State) : Host.Outcome State Fault Refusal :=
  match s.inputs with
  | [] => .next s
  | .command w :: rest => acceptWord w { s with inputs := rest }
  | .reset :: rest => .next (State.applyReset { s with inputs := rest })

/-- A word put in front of all the host has yet to present. -/
def State.presentFirst (s : State) (w : Word) : State :=
  { s with inputs := .command w :: s.inputs }

/-- A list of command words the host will present, one after the other, after all else (R139). -/
def State.present (s : State) (ws : List Word) : State :=
  { s with inputs := s.inputs ++ ws.map HostInput.command }

end Sys2Proof.Machine
end

