-- ==== Sys2Proof/Machine/Step.lean ====
section
/-! DEFINITION. One step, and placing the word that the next step takes. The block has no program
counter and fetches nothing (spec/10_state.md rule R14): its next command is the one the host
presents next. -/

namespace Sys2Proof.Machine

/-- One step: the next input of the host, one atomic transition (R43, R138). -/
def step (s : State) : Host.Outcome State Fault Refusal := acceptInput s

/-- The state in which the host presents next the command whose low `nbits` bits are those of `w`. -/
def State.withFetchWord (s : State) (nbits w : Nat) : State :=
  s.presentFirst (BitVec.ofNat 32 (w % 2 ^ nbits))

end Sys2Proof.Machine
end

