-- ==== Sys2Proof/Machine/Assembly.lean ====
section
/-! DEFINITION. The assembly notation and the pseudo-instructions: spec/30_encoding.md rules R60 and
R61. Nothing the block does depends on this file. -/

namespace Sys2Proof.Machine

/-- The operand of a command that has one. -/
def operandOf : Instr → Option Nat
  | .init | .stat | .clrp | .build => none
  | .pushlen n | .rdcode n | .lclass n | .dclass n | .lxb n | .dxb n | .didx n
  | .rdltab n | .rddtab n | .rdfixl n | .rdfixd n => some n

/-- A command in the notation of R60, its operand in decimal. -/
def asmOf (i : Instr) : String :=
  match operandOf i with
  | none => i.mnemonic
  | some n => i.mnemonic ++ " " ++ toString n

/-- A hexadecimal digit. -/
def hexDigit (n : Nat) : Char := "0123456789ABCDEF".toList.getD n '0'

/-- The low `n` hexadecimal digits of a number, most significant first. -/
def hexDigits (v : Nat) : Nat → List Char
  | 0 => []
  | n + 1 => hexDigit (v / 16 ^ n % 16) :: hexDigits v n

/-- The name of a condition by its code (R115). -/
def conditionName (err : BitVec 3) : String :=
  match err.toNat with
  | 1 => "InvalidCodeLengths"
  | 2 => "DomainError"
  | 3 => "TableInconsistency"
  | 4 => "IllegalCommand"
  | 5 => "ProtocolError"
  | _ => "(never produced)"

/-- A response in the notation of R60. -/
def asmResponse (r : Response) : String :=
  if r.err = 0 then "ok 0x" ++ String.ofList (hexDigits r.data.toNat 8) else conditionName r.err

/-- The pseudo-instructions (R61). -/
inductive Pseudo where
  | profile (lens : List Nat)
  | lengthCode (length : Nat)
  | lengthBase (length : Nat)
  | lengthExtraBits (length : Nat)
  | distanceCode (distance : Nat)
  | distanceBase (distance : Nat)
  | distanceExtraBits (distance : Nat)
deriving DecidableEq, Repr

/-- The commands a pseudo-instruction stands for (R61). -/
def expandPseudo : Pseudo → List Instr
  | .profile lens => .clrp :: lens.map Instr.pushlen
  | .lengthCode L | .lengthBase L | .lengthExtraBits L => [.lclass L]
  | .distanceCode d | .distanceBase d | .distanceExtraBits d => [.dclass d]

/-- `data[24:16]`, the code field of a packed classification (R52, R61). -/
def codeField (data : Word) : Nat := (data.extractLsb' 16 9).toNat

/-- `data[15:0]`, the base field (R52, R61). -/
def baseField (data : Word) : Nat := (data.extractLsb' 0 16).toNat

/-- `data[28:25]`, the extra-bits field (R52, R61). -/
def extraField (data : Word) : Nat := (data.extractLsb' 25 4).toNat

/-- The result a pseudo-instruction takes from the data word of its last command (R61, R101). -/
def pseudoResult : Pseudo → Word → Option Nat
  | .profile _, _ => none
  | .lengthCode _, data | .distanceCode _, data => some (codeField data)
  | .lengthBase _, data | .distanceBase _, data => some (baseField data)
  | .lengthExtraBits _, data | .distanceExtraBits _, data => some (extraField data)

end Sys2Proof.Machine
end

