-- ==== Sys2Proof/Safety.lean ====
section
/-! DEFINITION. The terms the claims use: what a profile's Kraft sum is, when the compaction of a
distance table is sound, what the fixed tables hold once they are built, and the invariant of the
reachable states (spec/10_state.md rule R33). -/

namespace Sys2Proof.Machine

/-- `K15` (R65): the sum over the symbols of non-zero length of `2^(15 - length)`. -/
def k15 (lens : List (BitVec 4)) : Nat :=
  (lens.map (fun l => if l = 0 then 0 else 2 ^ (15 - l.toNat))).sum

/-- The unreversed code of an entry (R72(c)): `rev` of the stored code within its length. -/
def unreversed (e : CodeEntry) : Nat := rev e.code.toNat e.len.toNat

/-- Every two distances with one index classify alike (R90, R93). -/
def CompactionSound (dspec : List SpecRow) : Prop :=
  ∀ d₁ d₂, distanceInDomain d₁ = true → distanceInDomain d₂ = true →
    distanceIndex d₁ = distanceIndex d₂ → classify dspec d₁ = classify dspec d₂

/-- Every listed index of a table is below `n`. -/
def Table.below {α : Type} (n : Nat) (t : Table α) : Prop := ∀ p ∈ t, p.1 < n

/-- Every listed entry lies in its index space (R34). -/
structure Memory.InSpaces (nsymMax : Nat) (m : Memory) : Prop where
  len : m.len.below nsymMax
  code : m.code.below nsymMax
  fixll : m.fixll.below 288
  fixd : m.fixd.below 32
  ltab : m.ltab.below 259
  dtab : m.dtab.below 512
  lxtra : m.lxtra.below 29
  dxtra : m.dxtra.below 30

/-- The six fixed tables hold what a successful `INIT` leaves (R107, R89 to R92). -/
structure FixedTables (cfg : Configuration) (m : Memory) : Prop where
  fixll : ∃ out, build Config.profileLL = .ok out ∧ ∀ i < 288, m.fixll.lookup i = out[i]?
  fixd : ∃ out, build Config.profileD = .ok out ∧ ∀ i < 32, m.fixd.lookup i = out[i]?
  ltab : ∀ L, 3 ≤ L → L ≤ 258 → m.ltab.lookup L = classify cfg.lspec L
  ltabBlank : ∀ L < 3, m.ltab.lookup L = some blankEntry
  dtab : ∀ d, 1 ≤ d → d ≤ 32768 → m.dtab.lookup (distanceIndex d) = classify cfg.dspec d
  dtabBlank : ∀ i, i = 256 ∨ i = 257 → m.dtab.lookup i = some blankEntry
  lxtra : ∀ i < 29, m.lxtra.lookup i = (cfg.lspec[i]?).map SpecRow.extra
  dxtra : ∀ i < 30, m.dxtra.lookup i = (cfg.dspec[i]?).map SpecRow.extra

/-- The invariant of the reachable states (R33), with what makes every read of it a read of a written
entry (R32). -/
structure State.Inv (s : State) : Prop where
  /-- Every table is in canonical form. -/
  canonical : s.mem.wf
  /-- Every listed entry is in its index space (R34). -/
  inSpaces : s.mem.InSpaces s.cfg.nsymMax
  /-- R33(b): `ERR` is non-zero exactly in `FAILED`. -/
  errExactlyFailed : s.err ≠ 0 ↔ s.mode = .failed
  /-- R33(b): and then it is 1 or 3. -/
  errValue : s.mode = .failed → s.err = 1 ∨ s.err = 3
  /-- R33(c). -/
  nsymBound : s.nsym.toNat ≤ s.cfg.nsymMax
  /-- R32: every length of the profile was pushed. -/
  profileWritten : ∀ i < s.nsym.toNat, (s.mem.len.lookup i).isSome
  /-- R33(d): with `CV = 1`, `CODE` holds the result of `Build` on the profile. -/
  codeValid : s.cv = true →
    ∃ out, build s.profile = .ok out ∧ ∀ i < s.nsym.toNat, s.mem.code.lookup i = out[i]?
  /-- R33(e): in `READY`, the fixed tables are built. -/
  fixedTables : s.mode = .ready → FixedTables s.cfg s.mem

/-- A command that reads and writes nothing (R40). -/
def isRead : Instr → Bool
  | .rdcode _ | .rdfixl _ | .rdfixd _ | .lclass _ | .dclass _ | .lxb _ | .dxb _ | .didx _
  | .rdltab _ | .rddtab _ | .stat => true
  | .init | .clrp | .pushlen _ | .build => false

/-- A command that reads a fixed table (R55, R119). -/
def readsFixedTable : Instr → Bool
  | .lclass _ | .dclass _ | .lxb _ | .dxb _ | .rdltab _ | .rddtab _ | .rdfixl _ | .rdfixd _ => true
  | .init | .stat | .clrp | .pushlen _ | .build | .rdcode _ | .didx _ => false

end Sys2Proof.Machine
end

