-- ==== Sys2Proof/Certificates/Slice0/Obligations.lean ====
section
/-! DEFINITION. The statements, taken from the numbered rules of spec/. Each docstring names the rule
or the section. Response codes are written as numbers (R115): 0 ok, 1 `InvalidCodeLengths`,
2 `DomainError`, 3 `TableInconsistency`, 4 `IllegalCommand`, 5 `ProtocolError`. A free value stands in
no statement but as `t.readX i = s.readX i`, which holds whatever it is. -/

namespace Sys2Proof.Machine

/-- `s` with one more response and nothing else changed. -/
def State.answered (s : State) (err : BitVec 3) (data : Word) : State :=
  { s with responses := s.responses ++ [{ err := err, data := data }] }

/-- Every word with this opcode is the command of format `N` `i`, or is illegal (R48, R49, R57). -/
def FormatN (op : BitVec 8) (i : Instr) : Prop :=
  ∀ w : Word, opField w = op →
    (rsvField w = 0 → argField w = 0 → decode w = .ok i) ∧
    ((rsvField w ≠ 0 ∨ argField w ≠ 0) → ∀ s, acceptWord w s = .next (s.answered 4 0))

/-- Every word with this opcode is a command of format `L`, or is illegal (R48, R49, R57, R59). -/
def FormatL (op : BitVec 8) (mk : Nat → Instr) : Prop :=
  ∀ w : Word, opField w = op →
    (rsvField w = 0 → (argField w).toNat < 16 → decode w = .ok (mk (argField w).toNat)) ∧
    ((rsvField w ≠ 0 ∨ 16 ≤ (argField w).toNat) → ∀ s, acceptWord w s = .next (s.answered 4 0))

/-- Every word with this opcode is a command of format `A`, or is illegal (R48, R49, R57, R59). -/
def FormatA (op : BitVec 8) (mk : Nat → Instr) : Prop :=
  ∀ w : Word, opField w = op →
    (rsvField w = 0 → decode w = .ok (mk (argField w).toNat)) ∧
    (rsvField w ≠ 0 → ∀ s, acceptWord w s = .next (s.answered 4 0))

/-- The state is ready and its fixed tables are those of the default configuration. -/
def DefaultReady (s : State) : Prop :=
  s.mode = .ready ∧ s.cfg = defaultConfig ∧ FixedTables s.cfg s.mem

/-- What `INIT` leaves as it was (R105). -/
def InitKeeps (s t : State) : Prop :=
  t.mem.len = s.mem.len ∧ t.mem.code = s.mem.code ∧ t.nsym = s.nsym ∧ t.cv = s.cv ∧ t.cfg = s.cfg ∧
    t.resets = s.resets ∧ t.inputs = s.inputs

/-- The six fixed tables of two memories are the same data. -/
def SameFixedTables (m n : Memory) : Prop :=
  m.fixll = n.fixll ∧ m.fixd = n.fixd ∧ m.ltab = n.ltab ∧ m.dtab = n.dtab ∧ m.lxtra = n.lxtra ∧
    m.dxtra = n.dxtra

/-- The rule of R69 in closed form: the unreversed code of symbol `s` is the first code of its length
plus the number of earlier symbols of that length. -/
def codeNumber (lens : List (BitVec 4)) (s : Nat) (l : BitVec 4) : Nat :=
  firstCode (countLengths lens) l.toNat + (lens.take s).countP (fun m => m == l)

/-- The third method of R80: `next_code[L] ≤ 2^L` is checked after each increment of step 3. -/
def incrementsStayWithin (next : Vector Nat 16) : List (BitVec 4) → Bool
  | [] => true
  | l :: ls =>
    if l = 0 then incrementsStayWithin next ls
    else decide (reg next l.toNat + 1 ≤ 2 ^ l.toNat)
      && incrementsStayWithin (setReg next l.toNat (reg next l.toNat + 1)) ls

/-- The table of R91: first index, last index, code, base, extra. -/
def dtabRanges : List (Nat × Nat × Nat × Nat × Nat) :=
  [ (0, 0, 0, 1, 0), (1, 1, 1, 2, 0), (2, 2, 2, 3, 0), (3, 3, 3, 4, 0), (4, 5, 4, 5, 1),
    (6, 7, 5, 7, 1), (8, 11, 6, 9, 2), (12, 15, 7, 13, 2), (16, 23, 8, 17, 3), (24, 31, 9, 25, 3),
    (32, 47, 10, 33, 4), (48, 63, 11, 49, 4), (64, 95, 12, 65, 5), (96, 127, 13, 97, 5),
    (128, 191, 14, 129, 6), (192, 255, 15, 193, 6), (258, 258, 16, 257, 7), (259, 259, 17, 385, 7),
    (260, 261, 18, 513, 8), (262, 263, 19, 769, 8), (264, 267, 20, 1025, 9),
    (268, 271, 21, 1537, 9), (272, 279, 22, 2049, 10), (280, 287, 23, 3073, 10),
    (288, 303, 24, 4097, 11), (304, 319, 25, 6145, 11), (320, 351, 26, 8193, 12),
    (352, 383, 27, 12289, 12), (384, 447, 28, 16385, 13), (448, 511, 29, 24577, 13) ]

end Sys2Proof.Machine

open Sys2Proof Sys2Proof.Machine

/-! ## Encoding -/

/-- Words written out from the encodings of R56, the operands among them from 95_test_vectors.md
sections 2.6 and 4. -/
def Obligations.WordsFromTheSpecDecodeToTheirCommands : Prop :=
  decode 0b00000001000000000000000000000000 = .ok .init ∧
  decode 0b00000010000000000000000000000000 = .ok .stat ∧
  decode 0b00010001000000000000000000001111 = .ok (.pushlen 15) ∧
  decode 0b00010011000000000000000000000111 = .ok (.rdcode 7) ∧
  decode 0b00100001000000001000000000000000 = .ok (.dclass 32768) ∧
  decode 0b00100100000000001111111111111111 = .ok (.didx 65535) ∧
  decode 0b00110000000000000000000100000000 = .ok (.rdfixl 256)

/-- Sections 1 and 4 of 30_encoding.md: no bit of an encoding is dropped. -/
def Obligations.DecodingAnEncodedCommandGivesItBack : Prop :=
  ∀ i : Instr, i.wellFormed = true → decode (encode i) = .ok i

/-- And a word that decodes is the one word of its command (R58: no second encoding). -/
def Obligations.EncodingADecodedWordGivesItBack : Prop :=
  ∀ (w : Word) (i : Instr), decode w = .ok i → i.wellFormed = true ∧ encode i = w

/-- R56: the opcode map has fifteen rows, and a word is a row's command exactly when `(W & mask) =
match`. -/
def Obligations.AWordIsACommandWhenItMatchesARow : Prop :=
  opcodeTable.length = 15 ∧
  ∀ w : Word, ∀ row ∈ opcodeTable,
    (w &&& row.mask = row.matchBits ↔ ∃ i, decode w = .ok i ∧ i.mnemonic = row.mnemonic)

/-- R57: a word that matches no row is illegal, raises `IllegalCommand` and changes no state; and these
words are those with an `op` outside the fifteen, of which there are 241, with `rsv` not 0, with `arg`
not 0 in format `N`, or with `arg[15:4]` not 0 in `PUSHLEN`. -/
def Obligations.EveryOtherWordIsIllegalAndChangesNothing : Prop :=
  (∀ w : Word, (∀ row ∈ opcodeTable, w &&& row.mask ≠ row.matchBits) →
    (∃ e, decode w = .error e) ∧
    ∀ s rest, s.inputs = .command w :: rest →
      step s = .next (State.answered { s with inputs := rest } 4 0)) ∧
  (∀ w : Word, (∀ row ∈ opcodeTable, w &&& row.mask ≠ row.matchBits) ↔
    ((∀ row ∈ opcodeTable, opField w ≠ row.op) ∨ rsvField w ≠ 0 ∨
      (∃ row ∈ opcodeTable, opField w = row.op ∧ row.format = .n ∧ argField w ≠ 0) ∨
      (∃ row ∈ opcodeTable, opField w = row.op ∧ row.format = .l ∧ 16 ≤ (argField w).toNat))) ∧
  ((List.range 256).filter (fun k => opcodeTable.all (fun row => row.op.toNat != k))).length = 241

/-! ## The step -/

/-- Section 4 of 20_memory.md: a step takes the host's next word, decodes it and runs the command, on
the state without that word. The block has no program counter (R14), so nothing else moves. -/
def Obligations.AStepRunsTheDecodedCommand : Prop :=
  ∀ (s : State) (w : Word) (rest : List HostInput) (i : Instr),
    s.inputs = .command w :: rest → decode w = .ok i →
      step s = exec i { s with inputs := rest }

/-- Section 1 of 70_reset_and_hazards.md: with no command presented the block waits. That waiting is a
step that changes nothing is the model's choice (notes/assumptions/2.md). -/
def Obligations.AnIdleBlockWaitsUnchanged : Prop :=
  ∀ s : State, s.inputs = [] → step s = .next s

/-- R50: every command produces exactly one response `(err, data)`; `err` is 0 or the code of one of the
five conditions, and then `data` is 0. -/
def Obligations.EveryWordGetsExactlyOneResponse : Prop :=
  ∀ (s : State) (w : Word) (rest : List HostInput), s.inputs = .command w :: rest →
    ∃ t r, step s = .next t ∧ t.inputs = rest ∧ t.responses = s.responses ++ [r] ∧
      r.err.toNat ≤ 5 ∧ (r.err ≠ 0 → r.data = 0)

/-- Section 5 of 70_reset_and_hazards.md: a run over a list of words, from any state, comes to its end:
the block never halts or refuses, and gives one response per word. -/
def Obligations.ARunAnswersEveryWordAndNeverStops : Prop :=
  ∀ (s : State) (ws : List Word), s.inputs = [] →
    ∃ t rs, Host.Core.run Sys2Proof.core ws.length (s.present ws) = .next t ∧
      t.inputs = [] ∧ t.responses = s.responses ++ rs ∧ rs.length = ws.length

/-- Sections 1 and 7 of 70_reset_and_hazards.md and 10_state.md: the reset input puts the status
registers at their reset values and touches neither the configuration nor what belongs to the host. -/
def Obligations.ResetPutsTheStatusRegistersAtTheirResetValues : Prop :=
  ∀ (s : State) (rest : List HostInput), s.inputs = .reset :: rest →
    ∃ t, step s = .next t ∧ t.mode = .uninit ∧ t.err = 0 ∧ t.nsym = 0 ∧ t.cv = false ∧
      t.statusWord = 0 ∧ t.cfg = s.cfg ∧ t.inputs = rest ∧ t.responses = s.responses

/-- Sections 2 and 6 of 10_state.md: no command and no reset changes the configuration. -/
def Obligations.NothingChangesTheConfiguration : Prop :=
  ∀ s t : State, step s = .next t → t.cfg = s.cfg

/-- R120: what a condition changes. Conditions 2, 4 and 5 change nothing but the response list;
`InvalidCodeLengths` in `BUILD` clears `CV`; a condition of `INIT` sets `MODE` and `ERR` and writes
fixed tables only. In every case `data` is 0. The working registers may have changed. -/
def Obligations.AConditionChangesOnlyWhatItsRowSays : Prop :=
  (∀ w s, (∃ e, decode w = .error e) → acceptWord w s = .next (s.answered 4 0)) ∧
  ∀ (i : Instr) (s t : State) (r : Response), exec i s = .next t → t.responses = s.responses ++ [r] →
    r.err ≠ 0 →
    r.data = 0 ∧
    ((r.err = 2 ∨ r.err = 5) ∧ t = s.answered r.err 0 ∨
     i = .build ∧ r.err = 1 ∧ t = State.answered { s with cv := false, work := t.work } 1 0 ∨
     i = .init ∧ (r.err = 1 ∨ r.err = 3) ∧ t.mode = .failed ∧ t.err = r.err ∧ InitKeeps s t)

/-- Section 2 of 60_exceptions.md: the state check comes before the operand check, and the decode check
before both. -/
def Obligations.TheStateIsCheckedBeforeTheOperand : Prop :=
  (∀ (i : Instr) (s : State), readsFixedTable i = true → s.mode ≠ .ready →
    exec i s = .next (s.answered 5 0)) ∧
  (∀ (sym : Nat) (s : State), s.cv = false → exec (.rdcode sym) s = .next (s.answered 5 0)) ∧
  (∀ (w : Word) (s : State), (∃ e, decode w = .error e) → acceptWord w s = .next (s.answered 4 0))

/-- R40: the eleven reading commands change no state, whether they succeed or are rejected, and repeating
one gives the same response. -/
def Obligations.AReadHasNoSideEffect : Prop :=
  ∀ (i : Instr) (s : State), isRead i = true →
    ∃ r : Response, exec i s = .next (s.answered r.err r.data) ∧
      exec i (s.answered r.err r.data) = .next ((s.answered r.err r.data).answered r.err r.data)

/-- Section 4 of 20_memory.md (R46): the response to a lookup of a fixed table does not depend on what
the builder commands have done. -/
def Obligations.FixedTableReadsDoNotSeeTheBuilder : Prop :=
  ∀ (i : Instr) (s₁ s₂ : State), readsFixedTable i = true →
    s₁.mode = s₂.mode → s₁.resets = s₂.resets → SameFixedTables s₁.mem s₂.mem →
    ∃ r : Response, exec i s₁ = .next (s₁.answered r.err r.data) ∧
      exec i s₂ = .next (s₂.answered r.err r.data)

/-- Section 3 of 10_state.md (R20): the working registers influence no later command. Two states that
differ in them alone step to states that differ in them alone. -/
def Obligations.TheWorkingRegistersCannotBeObserved : Prop :=
  ∀ (s t : State) (w : Work), step s = .next t →
    ∃ w', step { s with work := w } = .next { t with work := w' }

/-! ## Packing -/

/-- R51, with the bits of a built code at and above its length, and R52. -/
def Obligations.PackedEntriesHaveTheirFieldsInPlace : Prop :=
  (∀ e : CodeEntry,
    (packCode e).extractLsb' 0 15 = e.code ∧ (packCode e).extractLsb' 15 1 = 0 ∧
    (packCode e).extractLsb' 16 4 = e.len ∧ (packCode e).extractLsb' 20 12 = 0 ∧
    (packCode e).toNat = e.code.toNat + e.len.toNat * 2 ^ 16) ∧
  packCode sentinel = 0 ∧
  (∀ (lens : List (BitVec 4)) (out : List CodeEntry), build lens = .ok out →
    ∀ e ∈ out, e.code.toNat < 2 ^ e.len.toNat) ∧
  (∀ e : ClassEntry,
    (packClass e).extractLsb' 0 16 = e.base ∧ (packClass e).extractLsb' 16 9 = e.code ∧
    (packClass e).extractLsb' 25 4 = e.extra ∧ (packClass e).extractLsb' 29 2 = 0 ∧
    (packClass e).extractLsb' 31 1 = BitVec.ofBool e.v ∧
    (packClass e).toNat =
      e.base.toNat + e.code.toNat * 2 ^ 16 + e.extra.toNat * 2 ^ 25 + e.v.toNat * 2 ^ 31) ∧
  packClass blankEntry = 0

/-! ## The function Build -/

/-- R64. -/
def Obligations.ReversalIsWithinTheCodesOwnLength : Prop :=
  (∀ L c, 1 ≤ L → L ≤ 15 → c < 2 ^ L →
    (∀ i < L, (rev c L).testBit i = c.testBit (L - 1 - i)) ∧
    (∀ i, L ≤ i → (rev c L).testBit i = false) ∧
    rev (rev c L) L = c) ∧
  (∀ c < 2, rev c 1 = c) ∧ rev 0b011 3 = 0b110 ∧ rev 0b011 4 = 12

/-- R65: `Build` accepts a profile exactly when `K15 ≤ 32768`; equality is not required, so the profile
of no used symbol is valid; both fixed profiles have `K15 = 32768`. -/
def Obligations.BuildAcceptsExactlyTheProfilesWithinKraft : Prop :=
  (∀ lens : List (BitVec 4), (∃ out, build lens = .ok out) ↔ k15 lens ≤ 32768) ∧
  (∀ lens : List (BitVec 4), build lens = .error .invalidCodeLengths ↔ 32768 < k15 lens) ∧
  (∀ lens : List (BitVec 4), (∀ l ∈ lens, l = 0) → k15 lens = 0) ∧
  k15 Config.profileLL = 32768 ∧ k15 Config.profileD = 32768

/-- Sections 1 and 2 of 40_builder.md (R66, R67, R68): the accumulator `kraft` of step 1's counters is
`K15`, each counter is the number of symbols of its length, and the first codes have their closed form,
`next_code[1]` being 0. -/
def Obligations.KraftAndFirstCodesHaveTheirClosedForms : Prop :=
  ∀ lens : List (BitVec 4), kraftSum (countLengths lens) = k15 lens ∧
    reg (countLengths lens) 0 = 0 ∧
    (∀ l : BitVec 4, l ≠ 0 → reg (countLengths lens) l.toNat = lens.count l) ∧
    (∀ b, 1 ≤ b → b ≤ maxLength lens →
      reg (firstCodes (countLengths lens) (maxLength lens)) b =
        ((List.range' 1 (b - 1)).map (fun j => reg (countLengths lens) j * 2 ^ (b - j))).sum) ∧
    (1 ≤ maxLength lens → reg (firstCodes (countLengths lens) (maxLength lens)) 1 = 0)

/-- R71: for a valid profile the first codes, the assigned codes and the final `next_code` fit their
lengths, so the sixteen-bit working registers hold them exactly; for an over-subscribed one the check
stops `Build` before step 2, and `next_code` is not written. -/
def Obligations.CodesFitTheirLengthsAndNothingOverflows : Prop :=
  (∀ lens : List (BitVec 4), k15 lens ≤ 32768 →
    (∀ b, 1 ≤ b → b ≤ maxLength lens →
      firstCode (countLengths lens) b < 2 ^ b ∧
      reg (assignAll lens).2 b = firstCode (countLengths lens) b + reg (countLengths lens) b ∧
      reg (assignAll lens).2 b ≤ 2 ^ b ∧ 2 ^ b ≤ 32768 ∧
      ∀ (w : Work) (hb : b < 16), (workAfter w lens).nextCode[b].toNat = reg (assignAll lens).2 b) ∧
    (∀ (s : Nat) (l : BitVec 4), lens[s]? = some l → l ≠ 0 →
      codeNumber lens s l ≤ 2 ^ l.toNat - 1 ∧
      (assignAll lens).1[s]? =
        some { code := BitVec.ofNat 15 (rev (codeNumber lens s l) l.toNat), len := l })) ∧
  (∀ (lens : List (BitVec 4)) (w : Work), 32768 < k15 lens → (workAfter w lens).nextCode = w.nextCode)

/-- R80: the two equivalences. The assertion method is stated for every `max_len`; at 0 the entry
`next_code[0]` of `firstCodes` and the counter `bl_count[0]` are both 0, so that it accepts, as R67
does. -/
def Obligations.TheDetectionMethodsAndTheLoopBoundsAgree : Prop :=
  (∀ lens : List (BitVec 4),
    (∀ b ≤ maxLength lens, reg (firstCodes (countLengths lens) 15) b =
      reg (firstCodes (countLengths lens) (maxLength lens)) b) ∧
    (assign (firstCodes (countLengths lens) 15) lens).1 = (assignAll lens).1 ∧
    (k15 lens ≤ 32768 → ∀ b ≤ 15, reg (firstCodes (countLengths lens) 15) b ≤ 2 ^ b)) ∧
  (∀ lens : List (BitVec 4), 1 ≤ maxLength lens →
    (reg (firstCodes (countLengths lens) (maxLength lens)) (maxLength lens)
      + reg (countLengths lens) (maxLength lens)) * 2 ^ (15 - maxLength lens) =
        kraftSum (countLengths lens)) ∧
  (∀ lens : List (BitVec 4), overSubscribed lens = true ↔
    2 ^ maxLength lens < reg (firstCodes (countLengths lens) (maxLength lens)) (maxLength lens)
      + reg (countLengths lens) (maxLength lens)) ∧
  (∀ lens : List (BitVec 4), maxLength lens = 0 → overSubscribed lens = false ∧
    ¬ 2 ^ maxLength lens < reg (firstCodes (countLengths lens) (maxLength lens)) (maxLength lens)
      + reg (countLengths lens) (maxLength lens)) ∧
  (∀ lens : List (BitVec 4), overSubscribed lens = false ↔
    incrementsStayWithin (firstCodes (countLengths lens) (maxLength lens)) lens = true)

/-- Section 3 of 40_builder.md (R72 (a), (b), (e)): size and alignment, the sentinel, the edge cases. -/
def Obligations.BuildKeepsLengthsAndMarksUnusedSymbols : Prop :=
  (∀ (lens : List (BitVec 4)) (out : List CodeEntry), build lens = .ok out → out.length = lens.length ∧
    ∀ (s : Nat) (e : CodeEntry), out[s]? = some e → lens[s]? = some e.len ∧ (e.len = 0 ↔ e = sentinel)) ∧
  (∀ lens : List (BitVec 4), (∀ l ∈ lens, l = 0) → build lens = .ok (List.replicate lens.length sentinel)) ∧
  (∀ l : BitVec 4, l ≠ 0 → build [l] = .ok [{ code := 0, len := l }])

/-- Section 3 of 40_builder.md (R72 (c)): canonical order of the unreversed codes. -/
def Obligations.BuildAssignsCodesInCanonicalOrder : Prop :=
  ∀ (lens : List (BitVec 4)) (out : List CodeEntry), build lens = .ok out →
    ∀ (s t : Nat) (e f : CodeEntry), out[s]? = some e → out[t]? = some f → e.len ≠ 0 → f.len ≠ 0 →
      unreversed e = codeNumber lens s e.len ∧
      (e.len = f.len → s < t → unreversed e < unreversed f) ∧
      (e.len.toNat < f.len.toNat →
        unreversed e * 2 ^ (f.len.toNat - e.len.toNat) < unreversed f)

/-- Section 3 of 40_builder.md (R72 (d)): the code is prefix-free, on the unreversed codes as leading
bits and on the stored codes as low-order bits (90_conflicts.md C10). -/
def Obligations.BuiltCodesArePrefixFree : Prop :=
  ∀ (lens : List (BitVec 4)) (out : List CodeEntry), build lens = .ok out →
    ∀ (s t : Nat) (e f : CodeEntry), out[s]? = some e → out[t]? = some f → s ≠ t → e.len ≠ 0 →
      e.len.toNat ≤ f.len.toNat →
      unreversed f / 2 ^ (f.len.toNat - e.len.toNat) ≠ unreversed e ∧
      f.code.toNat % 2 ^ e.len.toNat ≠ e.code.toNat

/-- R78: the fixed literal/length code. -/
def Obligations.TheFixedLiteralLengthCode : Prop :=
  k15 Config.profileLL = 32768 ∧ maxLength Config.profileLL = 9 ∧
  (∀ b < 16, reg (countLengths Config.profileLL) b =
    if b = 7 then 24 else if b = 8 then 152 else if b = 9 then 112 else 0) ∧
  reg (firstCodes (countLengths Config.profileLL) 9) 7 = 0 ∧
  reg (firstCodes (countLengths Config.profileLL) 9) 8 = 48 ∧
  reg (firstCodes (countLengths Config.profileLL) 9) 9 = 400 ∧
  (∃ out, build Config.profileLL = .ok out ∧ out.length = 288 ∧
    (∀ s < 144, out[s]? = some ⟨BitVec.ofNat 15 (rev (48 + s) 8), 8⟩) ∧
    (∀ s, 144 ≤ s → s < 256 → out[s]? = some ⟨BitVec.ofNat 15 (rev (400 + (s - 144)) 9), 9⟩) ∧
    (∀ s, 256 ≤ s → s < 280 → out[s]? = some ⟨BitVec.ofNat 15 (rev (s - 256) 7), 7⟩) ∧
    (∀ s, 280 ≤ s → s < 288 → out[s]? = some ⟨BitVec.ofNat 15 (rev (192 + (s - 280)) 8), 8⟩) ∧
    out[0]? = some ⟨12, 8⟩)

/-- R79: the fixed distance code. -/
def Obligations.TheFixedDistanceCode : Prop :=
  k15 Config.profileD = 32768 ∧ maxLength Config.profileD = 5 ∧
  (∀ b < 16, reg (countLengths Config.profileD) b = if b = 5 then 32 else 0) ∧
  reg (firstCodes (countLengths Config.profileD) 5) 5 = 0 ∧
  (∃ out, build Config.profileD = .ok out ∧ out.length = 32 ∧
    (∀ s < 32, out[s]? = some ⟨BitVec.ofNat 15 (rev s 5), 5⟩) ∧
    out[1]? = some ⟨16, 5⟩ ∧ out[3]? = some ⟨24, 5⟩ ∧ out[31]? = some ⟨31, 5⟩)

/-! ## The builder's commands -/

/-- R73. -/
def Obligations.ClrpEmptiesTheProfileInEveryMode : Prop :=
  FormatN 0x10 .clrp ∧ decode 0x10000000 = .ok .clrp ∧
  ∀ s : State, ∃ t, exec .clrp s = .next t ∧
    t = State.answered { s with nsym := 0, cv := false } 0 0 ∧
    ∀ sym, exec (.rdcode sym) t = .next (t.answered 5 0)

/-- R74. -/
def Obligations.PushlenAppendsOneLengthOrRejects : Prop :=
  FormatL 0x11 .pushlen ∧
  (∀ (s : State) (len : Nat), len ≤ 15 → s.nsym.toNat < s.cfg.nsymMax →
    ∃ t, exec (.pushlen len) s = .next t ∧
      t = State.answered
        { s with nsym := t.nsym, cv := false, mem := { s.mem with len := t.mem.len } } 0 0 ∧
      t.nsym.toNat = s.nsym.toNat + 1 ∧ (t.readLen s.nsym.toNat).toNat = len ∧
      (∀ i, i ≠ s.nsym.toNat → t.readLen i = s.readLen i) ∧
      ∀ sym, exec (.rdcode sym) t = .next (t.answered 5 0)) ∧
  (∀ (s : State) (len : Nat), s.cfg.nsymMax ≤ s.nsym.toNat →
    exec (.pushlen len) s = .next (s.answered 5 0))

/-- R75. -/
def Obligations.BuildCommandBuildsTheCodeOrClearsCv : Prop :=
  FormatN 0x12 .build ∧ decode 0x12000000 = .ok .build ∧
  (∀ s : State, k15 s.profile ≤ 32768 →
    ∃ t out, build s.profile = .ok out ∧ exec .build s = .next t ∧
      t = State.answered
        { s with cv := true, work := t.work, mem := { s.mem with code := t.mem.code } } 0 0 ∧
      (∀ i < s.nsym.toNat, some (t.readCode i) = out[i]?) ∧
      (∀ i, s.nsym.toNat ≤ i → t.readCode i = s.readCode i) ∧
      t.profile = s.profile ∧
      (s.nsym = 0 → t.mem = s.mem ∧ ∀ sym, exec (.rdcode sym) t = .next (t.answered 2 0)) ∧
      ((∀ l ∈ s.profile, l = 0) → ∀ i < s.nsym.toNat, t.readCode i = sentinel) ∧
      (∃ u, exec .build t = .next u ∧ ∀ i, u.readCode i = t.readCode i)) ∧
  (∀ s : State, 32768 < k15 s.profile →
    ∃ t, exec .build s = .next t ∧
      t = State.answered { s with cv := false, work := t.work } 1 0 ∧ t.profile = s.profile ∧
      ∃ u, exec .build t = .next u ∧ u = State.answered { t with work := u.work } 1 0) ∧
  32768 < k15 [1, 1, 1] ∧ k15 [1, 1] ≤ 32768

/-- R76, the last clauses in the reachable states (`State.Inv`). -/
def Obligations.RdcodeReadsOneEntryOfAValidResult : Prop :=
  FormatA 0x13 .rdcode ∧
  (∀ (s : State) (sym : Nat), s.cv = false → exec (.rdcode sym) s = .next (s.answered 5 0)) ∧
  (∀ (s : State) (sym : Nat), s.cv = true → s.nsym.toNat ≤ sym →
    exec (.rdcode sym) s = .next (s.answered 2 0)) ∧
  (∀ (s : State) (sym : Nat), s.cv = true → sym < s.nsym.toNat →
    exec (.rdcode sym) s = .next (s.answered 0 (packCode (s.readCode sym)))) ∧
  (∀ (s : State) (sym : Nat), s.Inv → s.cv = true → sym < s.nsym.toNat →
    (s.mem.code.lookup sym).isSome ∧
    (s.readLen sym = 0 → exec (.rdcode sym) s = .next (s.answered 0 0))) ∧
  (∀ s : State, s.Inv → s.cv = true → s.profile = [3, 3, 3, 3, 3, 2, 4, 4] →
    exec (.rdcode 1) s = .next (s.answered 0 0x00030006) ∧
    exec (.rdcode 8) s = .next (s.answered 2 0))

/-! ## The classifier -/

/-- R86, the formula, and R87, its range. -/
def Obligations.TheDistanceIndexHasItsFormulaAndItsRange : Prop :=
  (∀ d, 1 ≤ d → d ≤ 32768 →
    (d ≤ 256 → distanceIndex d = d - 1) ∧
    (256 < d → distanceIndex d = 256 + ((d - 1) >>> 7) ∧ distanceIndex d = 256 + (d - 1) / 128)) ∧
  (∀ d, 1 ≤ d → d ≤ 256 → distanceIndex d = d - 1 ∧ distanceIndex d ≤ 255) ∧
  (∀ d, 257 ≤ d → d ≤ 32768 → 258 ≤ distanceIndex d ∧ distanceIndex d ≤ 511) ∧
  (∀ k d, 2 ≤ k → k ≤ 255 → 1 ≤ d → d ≤ 32768 →
    (distanceIndex d = 256 + k ↔ 128 * k + 1 ≤ d ∧ d ≤ 128 * k + 128)) ∧
  (∀ d, 1 ≤ d → d ≤ 32768 → distanceIndex d ≠ 256 ∧ distanceIndex d ≠ 257) ∧
  (∀ d, 1 ≤ d → d ≤ 32768 → (distanceIndex d = 511 ↔ 32641 ≤ d)) ∧
  ((List.range 512).filter (fun i => decide (i ≠ 256 ∧ i ≠ 257))).length = 510 ∧
  (∀ i < 512, i ≠ 256 → i ≠ 257 → ∃ d, 1 ≤ d ∧ d ≤ 32768 ∧ distanceIndex d = i) ∧
  (∀ d₁ d₂, 1 ≤ d₁ → d₁ ≤ d₂ → d₂ ≤ 32768 → distanceIndex d₁ ≤ distanceIndex d₂)

/-- R81: in a well-formed table, which every configuration holds, a value of the domain lies in exactly
one row, so row order does not matter; and the class is that row's. -/
def Obligations.EveryValueOfADomainLiesInExactlyOneRow : Prop :=
  ∀ (c : Configuration) (rows : List SpecRow) (v : Nat),
    (rows = c.lspec ∧ 3 ≤ v ∧ v ≤ 258) ∨ (rows = c.dspec ∧ 1 ≤ v ∧ v ≤ 32768) →
    ∃ (i : Nat) (r : SpecRow), rows[i]? = some r ∧ r.start.toNat ≤ v ∧ v ≤ r.stop.toNat ∧
      (∀ (j : Nat) (q : SpecRow), rows[j]? = some q → q.start.toNat ≤ v → v ≤ q.stop.toNat → j = i) ∧
      classify rows v = some { v := true, extra := r.extra, code := r.code, base := r.start }

/-- R85: the default tables. -/
def Obligations.TheDefaultTablesHaveTheirProperties : Prop :=
  lspecWF defaultLspec = true ∧ dspecWF defaultDspec = true ∧
  (∀ i < 29, ∀ r, defaultLspec[i]? = some r →
    (r.stop.toNat - r.start.toNat + 1 = 2 ^ r.extra.toNat ↔ i ≠ 27)) ∧
  (∀ r ∈ defaultDspec, r.stop.toNat - r.start.toNat + 1 = 2 ^ r.extra.toNat) ∧
  defaultLspec[27]? = some ⟨284, 5, 227, 257⟩ ∧ defaultLspec[28]? = some ⟨285, 0, 258, 258⟩ ∧
  (∀ i < 4, defaultDspec[i]? =
    some ⟨BitVec.ofNat 9 i, 0, BitVec.ofNat 16 (i + 1), BitVec.ofNat 16 (i + 1)⟩) ∧
  defaultDspec[29]? = some ⟨29, 13, 24577, 32768⟩ ∧
  (∀ r ∈ defaultDspec, 256 < r.start.toNat →
    (r.start.toNat - 1) % 128 = 0 ∧ (r.stop.toNat - r.start.toNat + 1) % 128 = 0)

/-- R90: the consistency check fires exactly when two distances with one index classify differently,
which they can only above index 255, and in whatever order the distances are visited; when it does not
fire, each slot holds the class of its distances and slots 256 and 257 are blank. -/
def Obligations.TheConsistencyCheckFiresExactlyOnAnUnsoundTable : Prop :=
  ∀ (c : Configuration) (t : Table ClassEntry),
    ((∃ u, buildDtab c.dspec t = .error u) ↔ ¬ CompactionSound c.dspec) ∧
    (∀ ds : List Nat, ds.Perm (List.range' 1 32768) →
      ((∃ u, fillDtab c.dspec ds (t.putAll (blankWrites 512)) = .error u) ↔
        ¬ CompactionSound c.dspec)) ∧
    (∀ d₁ d₂, 1 ≤ d₁ → d₁ ≤ 32768 → 1 ≤ d₂ → d₂ ≤ 32768 → distanceIndex d₁ = distanceIndex d₂ →
      classify c.dspec d₁ ≠ classify c.dspec d₂ → 255 < distanceIndex d₁) ∧
    (∀ u, buildDtab c.dspec t = .ok u →
      (∀ d, 1 ≤ d → d ≤ 32768 → u.lookup (distanceIndex d) = classify c.dspec d) ∧
      u.lookup 256 = some blankEntry ∧ u.lookup 257 = some blankEntry)

/-- R91: `DTAB` under the default configuration, index by index. -/
def Obligations.TheDefaultDistanceTable : Prop :=
  ∀ t : Table ClassEntry, ∃ u, buildDtab defaultDspec t = .ok u ∧
    (∀ d, 1 ≤ d → d ≤ 32768 → u.lookup (distanceIndex d) = classify defaultDspec d) ∧
    (∀ p ∈ dtabRanges, ∀ i, p.1 ≤ i → i ≤ p.2.1 → u.lookup i = some
      { v := true, code := BitVec.ofNat 9 p.2.2.1, base := BitVec.ofNat 16 p.2.2.2.1,
        extra := BitVec.ofNat 4 p.2.2.2.2 }) ∧
    u.lookup 256 = some blankEntry ∧ u.lookup 257 = some blankEntry

/-- R92: the reverse maps, for every configuration and by value for the default one. -/
def Obligations.TheReverseMapsHoldTheExtraBitCounts : Prop :=
  (∀ (c : Configuration) (t : Table (BitVec 4)),
    (∀ i < 29, (buildXtra c.lspec t).lookup i = (c.lspec[i]?).map SpecRow.extra) ∧
    (∀ i < 30, (buildXtra c.dspec t).lookup i = (c.dspec[i]?).map SpecRow.extra)) ∧
  defaultLspec.map SpecRow.extra =
    [0, 0, 0, 0, 0, 0, 0, 0, 1, 1, 1, 1, 2, 2, 2, 2, 3, 3, 3, 3, 4, 4, 4, 4, 5, 5, 5, 5, 0] ∧
  defaultDspec.map SpecRow.extra =
    [0, 0, 0, 0, 1, 1, 2, 2, 3, 3, 4, 4, 5, 5, 6, 6, 7, 7, 8, 8, 9, 9, 10, 10, 11, 11, 12, 12,
      13, 13]

/-- R93: the compaction is sound under the default table; it is unsound in every configuration in which
some row above 256 starts elsewhere than after a multiple of 128, and with rows 16 and 17 changed as the
rule says the loop passes 383 and the check fires at 384; and a shift of 8 would be unsound for the default table. -/
def Obligations.CompactionIsSoundByDefaultAndNotForMisalignedRows : Prop :=
  CompactionSound defaultDspec ∧
  (∀ t, ∃ u, buildDtab defaultDspec t = .ok u) ∧
  (∀ (c : Configuration) (t : Table ClassEntry),
    (∃ r ∈ c.dspec, 256 < r.start.toNat ∧ (r.start.toNat - 1) % 128 ≠ 0) →
    ∃ u, buildDtab c.dspec t = .error u) ∧
  (∀ t, ∃ u, buildDtab ((defaultDspec.set 16 ⟨16, 7, 257, 383⟩).set 17 ⟨17, 8, 384, 512⟩) t =
      .error u ∧ u.lookup 258 = some ⟨true, 7, 16, 257⟩) ∧
  (∀ t : Table ClassEntry, (∃ u, fillDtab ((defaultDspec.set 16 ⟨16, 7, 257, 383⟩).set 17 ⟨17, 8, 384, 512⟩)
        (List.range' 1 383) (t.putAll (blankWrites 512)) = .ok u ∧
        u.lookup 258 = some ⟨true, 7, 16, 257⟩) ∧
    ∃ u, fillDtab ((defaultDspec.set 16 ⟨16, 7, 257, 383⟩).set 17 ⟨17, 8, 384, 512⟩)
        (List.range' 1 384) (t.putAll (blankWrites 512)) = .error u ∧
        u.lookup 258 = some ⟨true, 7, 16, 257⟩) ∧
  dspecWF ((defaultDspec.set 16 ⟨16, 7, 257, 383⟩).set 17 ⟨17, 8, 384, 512⟩) = true ∧
  classify ((defaultDspec.set 16 ⟨16, 7, 257, 383⟩).set 17 ⟨17, 8, 384, 512⟩) 384 =
    some ⟨true, 8, 17, 384⟩ ∧ distanceIndex 384 = 258 ∧
  256 + ((257 - 1) >>> 8) = 257 ∧ 256 + ((385 - 1) >>> 8) = 257 ∧
  (classify defaultDspec 257).map ClassEntry.code = some 16 ∧
  (classify defaultDspec 385).map ClassEntry.code = some 17

/-- R94; the examples under the default configuration. -/
def Obligations.LclassClassifiesALength : Prop :=
  FormatA 0x20 .lclass ∧
  (∀ (s : State) (L : Nat), s.mode ≠ .ready → exec (.lclass L) s = .next (s.answered 5 0)) ∧
  (∀ (s : State) (L : Nat), s.mode = .ready → ¬ (3 ≤ L ∧ L ≤ 258) →
    exec (.lclass L) s = .next (s.answered 2 0)) ∧
  (∀ (s : State) (L : Nat), s.mode = .ready → 3 ≤ L → L ≤ 258 →
    exec (.lclass L) s = .next (s.answered 0 (packClass (s.readLtab L)))) ∧
  (∀ (s : State) (L : Nat), s.mode = .ready → FixedTables s.cfg s.mem → 3 ≤ L → L ≤ 258 →
    ∃ e, classify s.cfg.lspec L = some e ∧ e.v = true ∧
      exec (.lclass L) s = .next (s.answered 0 (packClass e))) ∧
  (∀ s : State, DefaultReady s →
    exec (.lclass 3) s = .next (s.answered 0 0x81010003) ∧
    exec (.lclass 115) s = .next (s.answered 0 0x89180073) ∧
    exec (.lclass 257) s = .next (s.answered 0 0x8B1C00E3) ∧
    exec (.lclass 258) s = .next (s.answered 0 0x811D0102))

/-- R95; the examples under the default configuration. -/
def Obligations.DclassClassifiesADistance : Prop :=
  FormatA 0x21 .dclass ∧
  (∀ (s : State) (d : Nat), s.mode ≠ .ready → exec (.dclass d) s = .next (s.answered 5 0)) ∧
  (∀ (s : State) (d : Nat), s.mode = .ready → ¬ (1 ≤ d ∧ d ≤ 32768) →
    exec (.dclass d) s = .next (s.answered 2 0)) ∧
  (∀ (s : State) (d : Nat), s.mode = .ready → 1 ≤ d → d ≤ 32768 →
    exec (.dclass d) s = .next (s.answered 0 (packClass (s.readDtab (distanceIndex d))))) ∧
  (∀ (s : State) (d : Nat), s.mode = .ready → FixedTables s.cfg s.mem → 1 ≤ d → d ≤ 32768 →
    ∃ e, classify s.cfg.dspec d = some e ∧ e.v = true ∧
      exec (.dclass d) s = .next (s.answered 0 (packClass e))) ∧
  distanceIndex 256 = 255 ∧ distanceIndex 257 = 258 ∧ decode 0x21008000 = .ok (.dclass 32768) ∧
  (∀ s : State, DefaultReady s → exec (.dclass 32768) s = .next (s.answered 0 0x9A1D6001))

/-- R96; the examples under the default configuration. -/
def Obligations.LxbReadsTheExtraBitsOfALengthCode : Prop :=
  FormatA 0x22 .lxb ∧
  (∀ (s : State) (c : Nat), s.mode ≠ .ready → exec (.lxb c) s = .next (s.answered 5 0)) ∧
  (∀ (s : State) (c : Nat), s.mode = .ready → ¬ (257 ≤ c ∧ c ≤ 285) →
    exec (.lxb c) s = .next (s.answered 2 0)) ∧
  (∀ (s : State) (c : Nat), s.mode = .ready → 257 ≤ c → c ≤ 285 →
    exec (.lxb c) s = .next (s.answered 0 (BitVec.ofNat 32 (s.readLxtra (c - 257)).toNat))) ∧
  (∀ s : State, DefaultReady s →
    exec (.lxb 280) s = .next (s.answered 0 4) ∧ exec (.lxb 284) s = .next (s.answered 0 5) ∧
    exec (.lxb 285) s = .next (s.answered 0 0))

/-- R97; the examples under the default configuration. -/
def Obligations.DxbReadsTheExtraBitsOfADistanceCode : Prop :=
  FormatA 0x23 .dxb ∧
  (∀ (s : State) (c : Nat), s.mode ≠ .ready → exec (.dxb c) s = .next (s.answered 5 0)) ∧
  (∀ (s : State) (c : Nat), s.mode = .ready → 29 < c → exec (.dxb c) s = .next (s.answered 2 0)) ∧
  (∀ (s : State) (c : Nat), s.mode = .ready → c ≤ 29 →
    exec (.dxb c) s = .next (s.answered 0 (BitVec.ofNat 32 (s.readDxtra c).toNat))) ∧
  (∀ s : State, DefaultReady s →
    exec (.dxb 0) s = .next (s.answered 0 0) ∧ exec (.dxb 29) s = .next (s.answered 0 0x0D))

/-- R98. -/
def Obligations.DidxGivesTheDistanceIndexInEveryMode : Prop :=
  FormatA 0x24 .didx ∧
  (∀ (s : State) (d : Nat), ¬ (1 ≤ d ∧ d ≤ 32768) → exec (.didx d) s = .next (s.answered 2 0)) ∧
  (∀ (s : State) (d : Nat), 1 ≤ d → d ≤ 32768 →
    exec (.didx d) s = .next (s.answered 0 (BitVec.ofNat 32 (distanceIndex d))) ∧
      (BitVec.ofNat 32 (distanceIndex d)).toNat = distanceIndex d) ∧
  (∀ s : State, exec (.didx 256) s = .next (s.answered 0 0xFF) ∧
    exec (.didx 257) s = .next (s.answered 0 0x102) ∧
    exec (.didx 384) s = .next (s.answered 0 0x102) ∧
    exec (.didx 385) s = .next (s.answered 0 0x103) ∧
    exec (.didx 32768) s = .next (s.answered 0 0x1FF))

/-- R99; the example under the default configuration. -/
def Obligations.RdltabReadsARawEntry : Prop :=
  FormatA 0x25 .rdltab ∧
  (∀ (s : State) (i : Nat), s.mode ≠ .ready → exec (.rdltab i) s = .next (s.answered 5 0)) ∧
  (∀ (s : State) (i : Nat), s.mode = .ready → 258 < i →
    exec (.rdltab i) s = .next (s.answered 2 0)) ∧
  (∀ (s : State) (i : Nat), s.mode = .ready → i ≤ 258 →
    exec (.rdltab i) s = .next (s.answered 0 (packClass (s.readLtab i))) ∧
    (3 ≤ i → exec (.rdltab i) s = exec (.lclass i) s)) ∧
  (∀ (s : State) (i : Nat), s.mode = .ready → FixedTables s.cfg s.mem → i ≤ 2 →
    exec (.rdltab i) s = .next (s.answered 0 0) ∧ exec (.lclass i) s = .next (s.answered 2 0)) ∧
  (∀ s : State, DefaultReady s → exec (.rdltab 258) s = .next (s.answered 0 0x811D0102))

/-- R100; the examples under the default configuration. -/
def Obligations.RddtabReadsARawEntry : Prop :=
  FormatA 0x26 .rddtab ∧
  (∀ (s : State) (i : Nat), s.mode ≠ .ready → exec (.rddtab i) s = .next (s.answered 5 0)) ∧
  (∀ (s : State) (i : Nat), s.mode = .ready → 511 < i →
    exec (.rddtab i) s = .next (s.answered 2 0)) ∧
  (∀ (s : State) (i : Nat), s.mode = .ready → i ≤ 511 →
    exec (.rddtab i) s = .next (s.answered 0 (packClass (s.readDtab i)))) ∧
  (∀ (s : State) (i : Nat), s.mode = .ready → FixedTables s.cfg s.mem → i = 256 ∨ i = 257 →
    exec (.rddtab i) s = .next (s.answered 0 0)) ∧
  (∀ s : State, DefaultReady s →
    exec (.rddtab 383) s = .next (s.answered 0 0x981B3001) ∧
    exec (.rddtab 384) s = .next (s.answered 0 0x9A1C4001) ∧
    exec (.rddtab 511) s = .next (s.answered 0 0x9A1D6001))

/-- R101: the six functions as fields of the packed results, their ranges, and the reverse maps. -/
def Obligations.TheReverseMapsAgreeWithTheClassification : Prop :=
  ∀ s : State, s.mode = .ready → FixedTables s.cfg s.mem →
    (∀ L, 3 ≤ L → L ≤ 258 → ∃ w e,
      exec (.lclass L) s = .next (s.answered 0 w) ∧ classify s.cfg.lspec L = some e ∧
      codeField w = e.code.toNat ∧ baseField w = e.base.toNat ∧ extraField w = e.extra.toNat ∧
      257 ≤ codeField w ∧ codeField w ≤ 285 ∧ extraField w ≤ 5 ∧
      pseudoResult (.lengthCode L) w = some (codeField w) ∧
      pseudoResult (.lengthBase L) w = some (baseField w) ∧
      pseudoResult (.lengthExtraBits L) w = some (extraField w) ∧
      exec (.lxb (codeField w)) s = .next (s.answered 0 (BitVec.ofNat 32 (extraField w)))) ∧
    (∀ d, 1 ≤ d → d ≤ 32768 → ∃ w e,
      exec (.dclass d) s = .next (s.answered 0 w) ∧ classify s.cfg.dspec d = some e ∧
      codeField w = e.code.toNat ∧ baseField w = e.base.toNat ∧ extraField w = e.extra.toNat ∧
      codeField w ≤ 29 ∧ extraField w ≤ 13 ∧
      pseudoResult (.distanceCode d) w = some (codeField w) ∧
      pseudoResult (.distanceBase d) w = some (baseField w) ∧
      pseudoResult (.distanceExtraBits d) w = some (extraField w) ∧
      exec (.dxb (codeField w)) s = .next (s.answered 0 (BitVec.ofNat 32 (extraField w))))

/-- R102: total and order-preserving, codes and bases. -/
def Obligations.ClassificationPreservesOrder : Prop :=
  ∀ s : State, s.mode = .ready → FixedTables s.cfg s.mem →
    (∀ a b, 3 ≤ a → a < b → b ≤ 258 → ∃ v w,
      exec (.lclass a) s = .next (s.answered 0 v) ∧ exec (.lclass b) s = .next (s.answered 0 w) ∧
      codeField v ≤ codeField w ∧ baseField v ≤ baseField w) ∧
    (∀ a b, 1 ≤ a → a < b → b ≤ 32768 → ∃ v w,
      exec (.dclass a) s = .next (s.answered 0 v) ∧ exec (.dclass b) s = .next (s.answered 0 w) ∧
      codeField v ≤ codeField w ∧ baseField v ≤ baseField w)

/-- R103: the offset of a value in its interval fits in the extra bits, with the bound reached by every
row of the default tables but code 284. R104: the edge intervals, under the default configuration. -/
def Obligations.TheOffsetFitsInTheExtraBits : Prop :=
  (∀ s : State, s.mode = .ready → FixedTables s.cfg s.mem →
    (∀ L, 3 ≤ L → L ≤ 258 → ∃ w, exec (.lclass L) s = .next (s.answered 0 w) ∧
      baseField w ≤ L ∧ L ≤ baseField w + 2 ^ extraField w - 1) ∧
    (∀ d, 1 ≤ d → d ≤ 32768 → ∃ w, exec (.dclass d) s = .next (s.answered 0 w) ∧
      baseField w ≤ d ∧ d ≤ baseField w + 2 ^ extraField w - 1)) ∧
  (∀ r ∈ defaultLspec, r.code ≠ 284 →
    r.stop.toNat = r.start.toNat + 2 ^ r.extra.toNat - 1) ∧
  (∀ r ∈ defaultLspec, r.code = 284 →
    r.stop.toNat = 257 ∧ r.start.toNat + 2 ^ r.extra.toNat - 1 = 258) ∧
  (∀ r ∈ defaultDspec, r.stop.toNat = r.start.toNat + 2 ^ r.extra.toNat - 1) ∧
  (∀ s : State, DefaultReady s →
    (∃ w, exec (.lclass 258) s = .next (s.answered 0 w) ∧ codeField w = 285 ∧ extraField w = 0) ∧
    (∃ w, exec (.dclass 1) s = .next (s.answered 0 w) ∧ codeField w = 0 ∧ extraField w = 0) ∧
    (∃ w, exec (.dclass 32768) s = .next (s.answered 0 w) ∧ extraField w = 13))

/-! ## The driver and the system commands -/

/-- R105. -/
def Obligations.InitBuildsTheFixedTablesOnceOrFails : Prop :=
  FormatN 0x01 .init ∧ decode 0x01000000 = .ok .init ∧
  (∀ s : State, s.mode ≠ .uninit → exec .init s = .next (s.answered 5 0)) ∧
  (∀ s : State, s.mode = .uninit → CompactionSound s.cfg.dspec →
    ∃ t, exec .init s = .next t ∧ t.mode = .ready ∧ t.err = s.err ∧ FixedTables t.cfg t.mem ∧
      InitKeeps s t ∧ t.responses = s.responses ++ [{ err := 0, data := 0 }]) ∧
  (∀ s : State, s.mode = .uninit → ¬ CompactionSound s.cfg.dspec →
    ∃ t, exec .init s = .next t ∧ t.mode = .failed ∧ t.err = 3 ∧
      InitKeeps s t ∧ t.responses = s.responses ++ [{ err := 3, data := 0 }]) ∧
  (∃ t, exec .init State.reset = .next t ∧ t.mode = .ready ∧ t.err = 0 ∧
    exec .stat t = .next (t.answered 0 1))

/-- R106: what `INIT` can and cannot raise. -/
def Obligations.InitFailsOnlyWithTableInconsistency : Prop :=
  k15 Config.profileLL = 32768 ∧ k15 Config.profileD = 32768 ∧
  (∀ s t : State, s.mode = .uninit → exec .init s = .next t →
    t.mode = .ready ∨ (t.mode = .failed ∧ t.err = 3)) ∧
  (∀ s t : State, s.mode = .uninit → exec .init s = .next t → s.cfg.dspec = defaultDspec →
    t.mode = .ready) ∧
  (∃ c : Configuration, ∀ s : State, s.mode = .uninit → s.cfg = c →
    ∃ t, exec .init s = .next t ∧ t.mode = .failed ∧ t.err = 3)

/-- R107: what `READY` promises. -/
def Obligations.ReadyMeansBuiltAndNeverChanged : Prop :=
  (∀ s t : State, s.mode = .uninit → exec .init s = .next t →
    t.responses = s.responses ++ [{ err := 0, data := 0 }] → FixedTables t.cfg t.mem) ∧
  (∀ (i : Instr) (s t : State), s.mode = .ready → exec i s = .next t →
    t.mode = .ready ∧ SameFixedTables t.mem s.mem)

/-- R108. -/
def Obligations.StatReadsTheStatusWordInEveryMode : Prop :=
  FormatN 0x02 .stat ∧ decode 0x02000000 = .ok .stat ∧
  (∀ s : State, exec .stat s = .next (s.answered 0 s.statusWord) ∧
    s.statusWord.extractLsb' 0 2 = s.mode.bits ∧ s.statusWord.extractLsb' 2 3 = s.err ∧
    s.statusWord.extractLsb' 5 1 = BitVec.ofBool s.cv ∧ s.statusWord.extractLsb' 6 10 = 0 ∧
    s.statusWord.extractLsb' 16 16 = s.nsym ∧
    s.statusWord.toNat = s.mode.bits.toNat + s.err.toNat * 2 ^ 2 + s.cv.toNat * 2 ^ 5
      + s.nsym.toNat * 2 ^ 16) ∧
  State.reset.statusWord = 0 ∧
  (∀ s : State, s.mode = .failed → s.err = 3 → s.statusWord.extractLsb' 0 5 = 0x0E) ∧
  (∀ s : State, s.mode = .ready → s.err = 0 → s.cv = true → s.nsym = 8 →
    exec .stat s = .next (s.answered 0 0x00080021))

/-- R109. -/
def Obligations.RdfixlReadsTheFixedLiteralLengthCode : Prop :=
  FormatA 0x30 .rdfixl ∧
  (∀ (s : State) (sym : Nat), s.mode ≠ .ready → exec (.rdfixl sym) s = .next (s.answered 5 0)) ∧
  (∀ (s : State) (sym : Nat), s.mode = .ready → 287 < sym →
    exec (.rdfixl sym) s = .next (s.answered 2 0)) ∧
  (∀ (s : State) (sym : Nat), s.mode = .ready → sym ≤ 287 →
    exec (.rdfixl sym) s = .next (s.answered 0 (packCode (s.readFixll sym)))) ∧
  (∀ s : State, s.mode = .ready → FixedTables s.cfg s.mem →
    exec (.rdfixl 0) s = .next (s.answered 0 0x0008000C) ∧
    exec (.rdfixl 256) s = .next (s.answered 0 0x00070000) ∧
    exec (.rdfixl 286) s = .next (s.answered 0 0x00080063) ∧
    exec (.rdfixl 287) s = .next (s.answered 0 0x000800E3))

/-- R110. -/
def Obligations.RdfixdReadsTheFixedDistanceCode : Prop :=
  FormatA 0x31 .rdfixd ∧
  (∀ (s : State) (sym : Nat), s.mode ≠ .ready → exec (.rdfixd sym) s = .next (s.answered 5 0)) ∧
  (∀ (s : State) (sym : Nat), s.mode = .ready → 31 < sym →
    exec (.rdfixd sym) s = .next (s.answered 2 0)) ∧
  (∀ (s : State) (sym : Nat), s.mode = .ready → sym ≤ 31 →
    exec (.rdfixd sym) s = .next (s.answered 0 (packCode (s.readFixd sym)))) ∧
  (∀ s : State, s.mode = .ready → FixedTables s.cfg s.mem →
    exec (.rdfixd 0) s = .next (s.answered 0 0x00050000) ∧
    exec (.rdfixd 1) s = .next (s.answered 0 0x00050010))

/-! ## Invariants -/

/-- Section 8 of 10_state.md: the state after reset, in any configuration, meets the invariant. -/
def Obligations.TheResetStateMeetsTheInvariant : Prop :=
  (∀ c : Configuration, (State.powerOn c).Inv) ∧ State.reset.Inv

/-- Section 8 of 10_state.md: every step, from every state that meets the invariant, keeps it. -/
def Obligations.EveryStepKeepsTheInvariant : Prop :=
  ∀ s t : State, s.Inv → step s = .next t → t.Inv

/-- R33: the states that reset and commands can reach meet the invariant, for every configuration and
every list of what the host does; and once `MODE` is `READY` or `FAILED` it keeps that value until
reset, and in `READY` no command changes a fixed table. -/
def Obligations.ReachableStatesMeetTheInvariant : Prop :=
  (∀ (c : Configuration) (inputs : List HostInput) (k : Nat),
    ∃ t, Host.Core.run Sys2Proof.core k { State.powerOn c with inputs := inputs } = .next t ∧
      t.Inv ∧ t.mode.bits.toNat ≤ 2) ∧
  (∀ s t : State, step s = .next t → s.mode ≠ .uninit → (∀ rest, s.inputs ≠ .reset :: rest) →
    t.mode = s.mode ∧ (s.mode = .ready → SameFixedTables t.mem s.mem))

/-- Section 7 of 10_state.md (R32): in the states that meet the invariant no command reads an entry that
nothing has written since the reset. Such an entry reads as a function of `resets`, and what a command
does is the same whatever `resets` is; and when a reader answers `ok`, the entry it answers from is
listed, as is every length that `BUILD` reads. -/
def Obligations.NoAcceptedReadReachesAnUnwrittenEntry : Prop :=
  ∀ s : State, s.Inv →
    (∀ (i : Instr) (n : Nat), ∃ t, exec i s = .next t ∧
      exec i { s with resets := n } = .next { t with resets := n }) ∧
    (∀ sym data, exec (.rdcode sym) s = .next (s.answered 0 data) →
      ∃ e, s.mem.code.lookup sym = some e ∧ data = packCode e) ∧
    (∀ sym data, exec (.rdfixl sym) s = .next (s.answered 0 data) →
      ∃ e, s.mem.fixll.lookup sym = some e ∧ data = packCode e) ∧
    (∀ sym data, exec (.rdfixd sym) s = .next (s.answered 0 data) →
      ∃ e, s.mem.fixd.lookup sym = some e ∧ data = packCode e) ∧
    (∀ L data, exec (.lclass L) s = .next (s.answered 0 data) →
      ∃ e, s.mem.ltab.lookup L = some e ∧ data = packClass e) ∧
    (∀ d data, exec (.dclass d) s = .next (s.answered 0 data) →
      ∃ e, s.mem.dtab.lookup (distanceIndex d) = some e ∧ data = packClass e) ∧
    (∀ c data, exec (.lxb c) s = .next (s.answered 0 data) →
      ∃ x, s.mem.lxtra.lookup (c - 257) = some x ∧ data = x.setWidth 32) ∧
    (∀ c data, exec (.dxb c) s = .next (s.answered 0 data) →
      ∃ x, s.mem.dxtra.lookup c = some x ∧ data = x.setWidth 32) ∧
    (∀ i data, exec (.rdltab i) s = .next (s.answered 0 data) →
      ∃ e, s.mem.ltab.lookup i = some e ∧ data = packClass e) ∧
    (∀ i data, exec (.rddtab i) s = .next (s.answered 0 data) →
      ∃ e, s.mem.dtab.lookup i = some e ∧ data = packClass e) ∧
    (∀ i < s.nsym.toNat, s.mem.len.lookup i = some (s.readLen i))

/-- The model's own canonical form (notes/assumptions/3.md): two memories in that form whose eight
tables read alike at every index are the same data. -/
def Obligations.CanonicalTablesAreDeterminedByTheirReads : Prop :=
  ∀ m n : Memory, m.wf → n.wf →
    (∀ i, m.len.lookup i = n.len.lookup i) → (∀ i, m.code.lookup i = n.code.lookup i) →
    (∀ i, m.fixll.lookup i = n.fixll.lookup i) → (∀ i, m.fixd.lookup i = n.fixd.lookup i) →
    (∀ i, m.ltab.lookup i = n.ltab.lookup i) → (∀ i, m.dtab.lookup i = n.dtab.lookup i) →
    (∀ i, m.lxtra.lookup i = n.lxtra.lookup i) → (∀ i, m.dxtra.lookup i = n.dxtra.lookup i) →
    m = n
end

