-- ==== Sys2Proof/Laws/State.lean ====
section
/-! SUPPORT. One lemma per field of the state per update, true by computation, so that no later proof
unfolds a record update. -/

namespace Sys2Proof.Machine

@[simp] theorem respond_mode (s : State) (data : Word) :
    (s.respond data).mode = s.mode := rfl
@[simp] theorem respond_err (s : State) (data : Word) :
    (s.respond data).err = s.err := rfl
@[simp] theorem respond_nsym (s : State) (data : Word) :
    (s.respond data).nsym = s.nsym := rfl
@[simp] theorem respond_cv (s : State) (data : Word) :
    (s.respond data).cv = s.cv := rfl
@[simp] theorem respond_work (s : State) (data : Word) :
    (s.respond data).work = s.work := rfl
@[simp] theorem respond_mem (s : State) (data : Word) :
    (s.respond data).mem = s.mem := rfl
@[simp] theorem respond_cfg (s : State) (data : Word) :
    (s.respond data).cfg = s.cfg := rfl
@[simp] theorem respond_resets (s : State) (data : Word) :
    (s.respond data).resets = s.resets := rfl
@[simp] theorem respond_inputs (s : State) (data : Word) :
    (s.respond data).inputs = s.inputs := rfl
@[simp] theorem respond_responses (s : State) (data : Word) :
    (s.respond data).responses = s.responses ++ [{ err := 0, data := data }] := rfl

@[simp] theorem takeCheck_mode (s : State) (c : Condition) :
    (s.takeCondition .check c).mode = s.mode := rfl
@[simp] theorem takeCheck_err (s : State) (c : Condition) :
    (s.takeCondition .check c).err = s.err := rfl
@[simp] theorem takeCheck_nsym (s : State) (c : Condition) :
    (s.takeCondition .check c).nsym = s.nsym := rfl
@[simp] theorem takeCheck_cv (s : State) (c : Condition) :
    (s.takeCondition .check c).cv = s.cv := rfl
@[simp] theorem takeCheck_work (s : State) (c : Condition) :
    (s.takeCondition .check c).work = s.work := rfl
@[simp] theorem takeCheck_mem (s : State) (c : Condition) :
    (s.takeCondition .check c).mem = s.mem := rfl
@[simp] theorem takeCheck_cfg (s : State) (c : Condition) :
    (s.takeCondition .check c).cfg = s.cfg := rfl
@[simp] theorem takeCheck_resets (s : State) (c : Condition) :
    (s.takeCondition .check c).resets = s.resets := rfl
@[simp] theorem takeCheck_inputs (s : State) (c : Condition) :
    (s.takeCondition .check c).inputs = s.inputs := rfl
@[simp] theorem takeCheck_responses (s : State) (c : Condition) :
    (s.takeCondition .check c).responses = s.responses ++ [{ err := c.code, data := 0 }] := rfl

@[simp] theorem takeBuild_mode (s : State) (c : Condition) :
    (s.takeCondition .build c).mode = s.mode := rfl
@[simp] theorem takeBuild_err (s : State) (c : Condition) :
    (s.takeCondition .build c).err = s.err := rfl
@[simp] theorem takeBuild_nsym (s : State) (c : Condition) :
    (s.takeCondition .build c).nsym = s.nsym := rfl
@[simp] theorem takeBuild_cv (s : State) (c : Condition) :
    (s.takeCondition .build c).cv = false := rfl
@[simp] theorem takeBuild_work (s : State) (c : Condition) :
    (s.takeCondition .build c).work = s.work := rfl
@[simp] theorem takeBuild_mem (s : State) (c : Condition) :
    (s.takeCondition .build c).mem = s.mem := rfl
@[simp] theorem takeBuild_cfg (s : State) (c : Condition) :
    (s.takeCondition .build c).cfg = s.cfg := rfl
@[simp] theorem takeBuild_resets (s : State) (c : Condition) :
    (s.takeCondition .build c).resets = s.resets := rfl
@[simp] theorem takeBuild_inputs (s : State) (c : Condition) :
    (s.takeCondition .build c).inputs = s.inputs := rfl
@[simp] theorem takeBuild_responses (s : State) (c : Condition) :
    (s.takeCondition .build c).responses = s.responses ++ [{ err := c.code, data := 0 }] := rfl

@[simp] theorem takeInit_mode (s : State) (c : Condition) :
    (s.takeCondition .init c).mode = .failed := rfl
@[simp] theorem takeInit_err (s : State) (c : Condition) :
    (s.takeCondition .init c).err = c.code := rfl
@[simp] theorem takeInit_nsym (s : State) (c : Condition) :
    (s.takeCondition .init c).nsym = s.nsym := rfl
@[simp] theorem takeInit_cv (s : State) (c : Condition) :
    (s.takeCondition .init c).cv = s.cv := rfl
@[simp] theorem takeInit_work (s : State) (c : Condition) :
    (s.takeCondition .init c).work = s.work := rfl
@[simp] theorem takeInit_mem (s : State) (c : Condition) :
    (s.takeCondition .init c).mem = s.mem := rfl
@[simp] theorem takeInit_cfg (s : State) (c : Condition) :
    (s.takeCondition .init c).cfg = s.cfg := rfl
@[simp] theorem takeInit_resets (s : State) (c : Condition) :
    (s.takeCondition .init c).resets = s.resets := rfl
@[simp] theorem takeInit_inputs (s : State) (c : Condition) :
    (s.takeCondition .init c).inputs = s.inputs := rfl
@[simp] theorem takeInit_responses (s : State) (c : Condition) :
    (s.takeCondition .init c).responses = s.responses ++ [{ err := c.code, data := 0 }] := rfl

@[simp] theorem writeLen_mode (s : State) (i : Nat) (e : BitVec 4) :
    (s.writeLen i e).mode = s.mode := rfl
@[simp] theorem writeLen_err (s : State) (i : Nat) (e : BitVec 4) :
    (s.writeLen i e).err = s.err := rfl
@[simp] theorem writeLen_nsym (s : State) (i : Nat) (e : BitVec 4) :
    (s.writeLen i e).nsym = s.nsym := rfl
@[simp] theorem writeLen_cv (s : State) (i : Nat) (e : BitVec 4) :
    (s.writeLen i e).cv = s.cv := rfl
@[simp] theorem writeLen_work (s : State) (i : Nat) (e : BitVec 4) :
    (s.writeLen i e).work = s.work := rfl
@[simp] theorem writeLen_mem (s : State) (i : Nat) (e : BitVec 4) :
    (s.writeLen i e).mem = { s.mem with len := s.mem.len.put i e } := rfl
@[simp] theorem writeLen_cfg (s : State) (i : Nat) (e : BitVec 4) :
    (s.writeLen i e).cfg = s.cfg := rfl
@[simp] theorem writeLen_resets (s : State) (i : Nat) (e : BitVec 4) :
    (s.writeLen i e).resets = s.resets := rfl
@[simp] theorem writeLen_inputs (s : State) (i : Nat) (e : BitVec 4) :
    (s.writeLen i e).inputs = s.inputs := rfl
@[simp] theorem writeLen_responses (s : State) (i : Nat) (e : BitVec 4) :
    (s.writeLen i e).responses = s.responses := rfl

@[simp] theorem writeCodes_mode (s : State) (out : List CodeEntry) :
    (s.writeCodes out).mode = s.mode := rfl
@[simp] theorem writeCodes_err (s : State) (out : List CodeEntry) :
    (s.writeCodes out).err = s.err := rfl
@[simp] theorem writeCodes_nsym (s : State) (out : List CodeEntry) :
    (s.writeCodes out).nsym = s.nsym := rfl
@[simp] theorem writeCodes_cv (s : State) (out : List CodeEntry) :
    (s.writeCodes out).cv = s.cv := rfl
@[simp] theorem writeCodes_work (s : State) (out : List CodeEntry) :
    (s.writeCodes out).work = s.work := rfl
@[simp] theorem writeCodes_mem (s : State) (out : List CodeEntry) :
    (s.writeCodes out).mem = { s.mem with code := s.mem.code.putAll (numberFrom 0 out) } := rfl
@[simp] theorem writeCodes_cfg (s : State) (out : List CodeEntry) :
    (s.writeCodes out).cfg = s.cfg := rfl
@[simp] theorem writeCodes_resets (s : State) (out : List CodeEntry) :
    (s.writeCodes out).resets = s.resets := rfl
@[simp] theorem writeCodes_inputs (s : State) (out : List CodeEntry) :
    (s.writeCodes out).inputs = s.inputs := rfl
@[simp] theorem writeCodes_responses (s : State) (out : List CodeEntry) :
    (s.writeCodes out).responses = s.responses := rfl

@[simp] theorem writeFixll_mode (s : State) (out : List CodeEntry) :
    (s.writeFixll out).mode = s.mode := rfl
@[simp] theorem writeFixll_err (s : State) (out : List CodeEntry) :
    (s.writeFixll out).err = s.err := rfl
@[simp] theorem writeFixll_nsym (s : State) (out : List CodeEntry) :
    (s.writeFixll out).nsym = s.nsym := rfl
@[simp] theorem writeFixll_cv (s : State) (out : List CodeEntry) :
    (s.writeFixll out).cv = s.cv := rfl
@[simp] theorem writeFixll_work (s : State) (out : List CodeEntry) :
    (s.writeFixll out).work = s.work := rfl
@[simp] theorem writeFixll_mem (s : State) (out : List CodeEntry) :
    (s.writeFixll out).mem = { s.mem with fixll := s.mem.fixll.putAll (numberFrom 0 out) } := rfl
@[simp] theorem writeFixll_cfg (s : State) (out : List CodeEntry) :
    (s.writeFixll out).cfg = s.cfg := rfl
@[simp] theorem writeFixll_resets (s : State) (out : List CodeEntry) :
    (s.writeFixll out).resets = s.resets := rfl
@[simp] theorem writeFixll_inputs (s : State) (out : List CodeEntry) :
    (s.writeFixll out).inputs = s.inputs := rfl
@[simp] theorem writeFixll_responses (s : State) (out : List CodeEntry) :
    (s.writeFixll out).responses = s.responses := rfl

@[simp] theorem writeFixd_mode (s : State) (out : List CodeEntry) :
    (s.writeFixd out).mode = s.mode := rfl
@[simp] theorem writeFixd_err (s : State) (out : List CodeEntry) :
    (s.writeFixd out).err = s.err := rfl
@[simp] theorem writeFixd_nsym (s : State) (out : List CodeEntry) :
    (s.writeFixd out).nsym = s.nsym := rfl
@[simp] theorem writeFixd_cv (s : State) (out : List CodeEntry) :
    (s.writeFixd out).cv = s.cv := rfl
@[simp] theorem writeFixd_work (s : State) (out : List CodeEntry) :
    (s.writeFixd out).work = s.work := rfl
@[simp] theorem writeFixd_mem (s : State) (out : List CodeEntry) :
    (s.writeFixd out).mem = { s.mem with fixd := s.mem.fixd.putAll (numberFrom 0 out) } := rfl
@[simp] theorem writeFixd_cfg (s : State) (out : List CodeEntry) :
    (s.writeFixd out).cfg = s.cfg := rfl
@[simp] theorem writeFixd_resets (s : State) (out : List CodeEntry) :
    (s.writeFixd out).resets = s.resets := rfl
@[simp] theorem writeFixd_inputs (s : State) (out : List CodeEntry) :
    (s.writeFixd out).inputs = s.inputs := rfl
@[simp] theorem writeFixd_responses (s : State) (out : List CodeEntry) :
    (s.writeFixd out).responses = s.responses := rfl

@[simp] theorem initLtab_mode (s : State) :
    s.initLtab.mode = s.mode := rfl
@[simp] theorem initLtab_err (s : State) :
    s.initLtab.err = s.err := rfl
@[simp] theorem initLtab_nsym (s : State) :
    s.initLtab.nsym = s.nsym := rfl
@[simp] theorem initLtab_cv (s : State) :
    s.initLtab.cv = s.cv := rfl
@[simp] theorem initLtab_work (s : State) :
    s.initLtab.work = s.work := rfl
@[simp] theorem initLtab_mem (s : State) :
    s.initLtab.mem = { s.mem with ltab := buildLtab s.cfg.lspec s.mem.ltab } := rfl
@[simp] theorem initLtab_cfg (s : State) :
    s.initLtab.cfg = s.cfg := rfl
@[simp] theorem initLtab_resets (s : State) :
    s.initLtab.resets = s.resets := rfl
@[simp] theorem initLtab_inputs (s : State) :
    s.initLtab.inputs = s.inputs := rfl
@[simp] theorem initLtab_responses (s : State) :
    s.initLtab.responses = s.responses := rfl

@[simp] theorem initXtra_mode (s : State) :
    s.initXtra.mode = s.mode := rfl
@[simp] theorem initXtra_err (s : State) :
    s.initXtra.err = s.err := rfl
@[simp] theorem initXtra_nsym (s : State) :
    s.initXtra.nsym = s.nsym := rfl
@[simp] theorem initXtra_cv (s : State) :
    s.initXtra.cv = s.cv := rfl
@[simp] theorem initXtra_work (s : State) :
    s.initXtra.work = s.work := rfl
@[simp] theorem initXtra_mem (s : State) :
    s.initXtra.mem = { s.mem with
      lxtra := buildXtra s.cfg.lspec s.mem.lxtra, dxtra := buildXtra s.cfg.dspec s.mem.dxtra } := rfl
@[simp] theorem initXtra_cfg (s : State) :
    s.initXtra.cfg = s.cfg := rfl
@[simp] theorem initXtra_resets (s : State) :
    s.initXtra.resets = s.resets := rfl
@[simp] theorem initXtra_inputs (s : State) :
    s.initXtra.inputs = s.inputs := rfl
@[simp] theorem initXtra_responses (s : State) :
    s.initXtra.responses = s.responses := rfl

@[simp] theorem applyReset_mode (s : State) :
    s.applyReset.mode = .uninit := rfl
@[simp] theorem applyReset_err (s : State) :
    s.applyReset.err = 0 := rfl
@[simp] theorem applyReset_nsym (s : State) :
    s.applyReset.nsym = 0 := rfl
@[simp] theorem applyReset_cv (s : State) :
    s.applyReset.cv = false := rfl
@[simp] theorem applyReset_work (s : State) :
    s.applyReset.work = Work.afterReset (s.resets + 1) := rfl
@[simp] theorem applyReset_mem (s : State) :
    s.applyReset.mem = Memory.empty := rfl
@[simp] theorem applyReset_cfg (s : State) :
    s.applyReset.cfg = s.cfg := rfl
@[simp] theorem applyReset_resets (s : State) :
    s.applyReset.resets = s.resets + 1 := rfl
@[simp] theorem applyReset_inputs (s : State) :
    s.applyReset.inputs = s.inputs := rfl
@[simp] theorem applyReset_responses (s : State) :
    s.applyReset.responses = s.responses := rfl

end Sys2Proof.Machine
end

