-- ==== Sys2Proof/Laws/Table.lean ====
section
/-! SUPPORT. The laws of one table: what a read gives after a write, and that every operation keeps
the canonical form and the index space. -/

namespace Sys2Proof.Machine

variable {α : Type}

@[simp] theorem lookup_nil (i : Nat) : Table.lookup ([] : Table α) i = none := rfl

theorem lookup_cons (p : Nat × α) (t : Table α) (i : Nat) :
    Table.lookup (p :: t) i = if i = p.1 then some p.2 else Table.lookup t i := rfl

/-- A listed index that reads as an entry is listed with it. -/
theorem mem_of_lookup {t : Table α} {i : Nat} {e : α} (h : t.lookup i = some e) : (i, e) ∈ t := by
  induction t with
  | nil => simp at h
  | cons p t ih =>
    rw [lookup_cons] at h
    split at h
    · next hi => cases h; simp [hi]
    · exact List.mem_cons_of_mem _ (ih h)

/-- An index no entry has reads as nothing. -/
theorem lookup_eq_none {t : Table α} {i : Nat} (h : ∀ p ∈ t, p.1 ≠ i) : t.lookup i = none := by
  induction t with
  | nil => rfl
  | cons p t ih =>
    rw [lookup_cons, if_neg (fun hi => h p (by simp) hi.symm)]
    exact ih (fun q hq => h q (List.mem_cons_of_mem _ hq))

/-- An index below every listed one reads as nothing. -/
theorem lookup_none_of_lt {t : Table α} {i : Nat} (h : ∀ p ∈ t, i < p.1) : t.lookup i = none :=
  lookup_eq_none (fun p hp => Nat.ne_of_gt (h p hp))

/-- What a read gives after a write: the entry written at its index, and at any other index what was
there before. -/
theorem lookup_put (t : Table α) (i j : Nat) (e : α) :
    (t.put i e).lookup j = if j = i then some e else t.lookup j := by
  induction t with
  | nil => rfl
  | cons p t ih =>
    obtain ⟨k, x⟩ := p
    simp only [Table.put]
    split
    · rfl
    · split
      · next hik => subst hik; simp only [lookup_cons]; split <;> rfl
      · next hik =>
        simp only [lookup_cons, ih]
        by_cases hjk : j = k
        · rw [if_pos hjk, if_neg (by omega), if_pos hjk]
        · simp only [if_neg hjk]

@[simp] theorem lookup_put_self (t : Table α) (i : Nat) (e : α) : (t.put i e).lookup i = some e := by
  simp [lookup_put]

theorem lookup_put_of_ne (t : Table α) {i j : Nat} (e : α) (h : j ≠ i) :
    (t.put i e).lookup j = t.lookup j := by
  simp [lookup_put, h]

/-- What a write lists: what was listed, and the entry written. -/
theorem mem_put {t : Table α} {i : Nat} {e : α} {p : Nat × α} (h : p ∈ t.put i e) :
    p = (i, e) ∨ p ∈ t := by
  induction t with
  | nil => simpa [Table.put] using h
  | cons q t ih =>
    obtain ⟨k, x⟩ := q
    simp only [Table.put] at h
    split at h
    · simpa using h
    · split at h
      · rcases List.mem_cons.1 h with h | h
        · exact .inl h
        · exact .inr (List.mem_cons_of_mem _ h)
      · rcases List.mem_cons.1 h with h | h
        · exact .inr (by simp [h])
        · exact (ih h).imp id (List.mem_cons_of_mem _)

/-- A write keeps the canonical form. -/
theorem wf_put {t : Table α} (h : t.wf) (i : Nat) (e : α) : (t.put i e).wf := by
  induction t with
  | nil => simp [Table.put, Table.wf]
  | cons p t ih =>
    obtain ⟨k, x⟩ := p
    have hp : ∀ q ∈ t, k < q.1 := (List.pairwise_cons.1 h).1
    have ht : Table.wf t := (List.pairwise_cons.1 h).2
    simp only [Table.put]
    split
    · next hik =>
      refine List.pairwise_cons.2 ⟨fun q hq => ?_, h⟩
      rcases List.mem_cons.1 hq with rfl | hq
      · exact hik
      · exact Nat.lt_trans hik (hp q hq)
    · split
      · next hik => subst hik; exact List.pairwise_cons.2 ⟨hp, ht⟩
      · next h1 h2 =>
        refine List.pairwise_cons.2 ⟨fun q hq => ?_, ih ht⟩
        rcases mem_put hq with rfl | hq
        · simp only; omega
        · exact hp q hq

/-- A write in the space stays in the space. -/
theorem below_put {t : Table α} {n i : Nat} (h : t.below n) (hi : i < n) (e : α) :
    (t.put i e).below n := by
  intro p hp
  rcases mem_put hp with rfl | hp
  · exact hi
  · exact h p hp

/-! ## A list of writes -/

@[simp] theorem putAll_nil (t : Table α) : t.putAll [] = t := rfl

@[simp] theorem putAll_cons (t : Table α) (p : Nat × α) (ws : List (Nat × α)) :
    t.putAll (p :: ws) = (t.put p.1 p.2).putAll ws := rfl

theorem putAll_append (t : Table α) (ws vs : List (Nat × α)) :
    t.putAll (ws ++ vs) = (t.putAll ws).putAll vs := by
  induction ws generalizing t with
  | nil => rfl
  | cons p ws ih => simpa using ih _

theorem wf_putAll {t : Table α} (h : t.wf) (ws : List (Nat × α)) : (t.putAll ws).wf := by
  induction ws generalizing t with
  | nil => exact h
  | cons p ws ih => exact ih (wf_put h _ _)

theorem below_putAll {t : Table α} {n : Nat} (h : t.below n) {ws : List (Nat × α)}
    (hw : ∀ p ∈ ws, p.1 < n) : (t.putAll ws).below n := by
  induction ws generalizing t with
  | nil => exact h
  | cons p ws ih =>
    exact ih (below_put h (hw p (by simp)) _) (fun q hq => hw q (List.mem_cons_of_mem _ hq))

/-- An index no write has reads as before. -/
theorem lookup_putAll_of_not_mem (t : Table α) {ws : List (Nat × α)} {i : Nat}
    (h : ∀ p ∈ ws, p.1 ≠ i) : (t.putAll ws).lookup i = t.lookup i := by
  induction ws generalizing t with
  | nil => rfl
  | cons p ws ih =>
    rw [putAll_cons, ih _ (fun q hq => h q (List.mem_cons_of_mem _ hq)),
      lookup_put_of_ne _ _ (h p (by simp)).symm]

/-- An index whose writes all carry one entry reads as it. -/
theorem lookup_putAll_of_mem (t : Table α) {ws : List (Nat × α)} {i : Nat} {e : α}
    (hm : (i, e) ∈ ws) (hall : ∀ p ∈ ws, p.1 = i → p.2 = e) : (t.putAll ws).lookup i = some e := by
  induction ws generalizing t with
  | nil => simp at hm
  | cons p ws ih =>
    rw [putAll_cons]
    by_cases h : (i, e) ∈ ws
    · exact ih _ h (fun q hq => hall q (List.mem_cons_of_mem _ hq))
    · have hp : p = (i, e) := by
        rcases List.mem_cons.1 hm with h' | h'
        · exact h'.symm
        · exact absurd h' h
      rw [lookup_putAll_of_not_mem _ (fun q hq hqi => h ?_), hp, lookup_put_self]
      have := hall q (List.mem_cons_of_mem _ hq) hqi
      rw [← this, ← hqi]; exact hq

/-! ## Numbered lists -/

theorem mem_numberFrom {xs : List α} {k : Nat} {p : Nat × α} (h : p ∈ numberFrom k xs) :
    k ≤ p.1 ∧ p.1 < k + xs.length ∧ xs[p.1 - k]? = some p.2 := by
  induction xs generalizing k with
  | nil => simp [numberFrom] at h
  | cons x xs ih =>
    rcases List.mem_cons.1 h with rfl | h
    · simp
    · obtain ⟨h1, h2, h3⟩ := ih h
      refine ⟨by omega, by simp only [List.length_cons]; omega, ?_⟩
      rw [show p.1 - k = p.1 - (k + 1) + 1 by omega, List.getElem?_cons_succ]; exact h3

theorem numberFrom_mem {xs : List α} {k i : Nat} {x : α} (h : xs[i]? = some x) :
    (k + i, x) ∈ numberFrom k xs := by
  induction xs generalizing k i with
  | nil => simp at h
  | cons y xs ih =>
    cases i with
    | zero => simp at h; simp [numberFrom, h]
    | succ i =>
      rw [List.getElem?_cons_succ] at h
      have := ih (k := k + 1) h
      rw [show k + (i + 1) = k + 1 + i by omega]
      exact List.mem_cons_of_mem _ this

/-- What a table reads as after a numbered list has been written: the list, and beyond it what was
there before. -/
theorem lookup_putAll_numberFrom (t : Table α) (xs : List α) (i : Nat) :
    (t.putAll (numberFrom 0 xs)).lookup i = if i < xs.length then xs[i]? else t.lookup i := by
  split
  · next h =>
    have hx : xs[i]? = some xs[i] := List.getElem?_eq_getElem h
    have hm : (i, xs[i]) ∈ numberFrom 0 xs := by simpa using numberFrom_mem (k := 0) hx
    rw [hx]
    refine lookup_putAll_of_mem t hm (fun p hp hpi => ?_)
    have := (mem_numberFrom hp).2.2
    simp only [Nat.sub_zero, hpi, hx, Option.some.injEq] at this
    exact this.symm
  · next h =>
    refine lookup_putAll_of_not_mem t (fun p hp hpi => h ?_)
    have := (mem_numberFrom hp).2.1
    omega

/-- A numbered list reads as the list. -/
theorem lookup_numberFrom (xs : List α) {k i : Nat} (h : k ≤ i) :
    Table.lookup (numberFrom k xs) i = xs[i - k]? := by
  induction xs generalizing k with
  | nil => rfl
  | cons x xs ih =>
    rw [numberFrom, lookup_cons]
    by_cases hk : i = k
    · subst hk; simp
    · rw [if_neg hk, ih (by omega), show i - k = i - (k + 1) + 1 by omega, List.getElem?_cons_succ]

/-- A table listed index by index from 0 reads as the function it lists. -/
theorem lookup_range_map (f : Nat → α) {n i : Nat} (h : i < n) :
    Table.lookup ((List.range n).map (fun j => (j, f j))) i = some (f i) := by
  induction n with
  | zero => omega
  | succ n ih =>
    have happ : ∀ (t u : Table α), Table.lookup (t ++ u) i = (Table.lookup t i).or (Table.lookup u i) := by
      intro t u
      induction t with
      | nil => rfl
      | cons p t ih => simp only [List.cons_append, lookup_cons, ih]; split <;> rfl
    rw [List.range_succ, List.map_append, happ]
    by_cases hi : i < n
    · rw [ih hi]; rfl
    · have : i = n := by omega
      subst this
      rw [lookup_eq_none]
      · simp [lookup_cons]
      · intro p hp
        obtain ⟨j, hj, rfl⟩ := List.mem_map.1 hp
        exact Nat.ne_of_lt (List.mem_range.1 hj)

/-- A table listed index by index from 0 is in canonical form. -/
theorem wf_range_map (f : Nat → α) (n : Nat) :
    Table.wf ((List.range n).map (fun j => (j, f j))) := by
  simp only [Table.wf, List.pairwise_map]
  exact List.pairwise_lt_range

theorem wf_numberFrom (k : Nat) (xs : List α) : Table.wf (numberFrom k xs) := by
  induction xs generalizing k with
  | nil => exact List.Pairwise.nil
  | cons x xs ih =>
    refine List.pairwise_cons.2 ⟨fun p hp => ?_, ih (k + 1)⟩
    have := (mem_numberFrom hp).1
    show k < p.1
    omega

end Sys2Proof.Machine
end

