-- ==== Sys2Proof/Laws/Ops.lean ====
section
/-! SUPPORT. What the shared operations do, said once: how a command ends, and that every operation
keeps the canonical form of the memory. -/

namespace Sys2Proof.Machine

/-- The three ends of a command (R54, R122). -/
theorem checked_cases (s : State) (stateOk operandOk : Bool) (body : State) :
    (stateOk = true ∧ operandOk = true ∧ s.checked stateOk operandOk body = body) ∨
    (stateOk = true ∧ operandOk = false ∧
      s.checked stateOk operandOk body = s.takeCondition .check .domainError) ∨
    (stateOk = false ∧ s.checked stateOk operandOk body = s.takeCondition .check .protocolError) := by
  cases stateOk <;> cases operandOk <;> simp [State.checked]

@[simp] theorem checked_true_true (s body : State) : s.checked true true body = body := rfl

@[simp] theorem checked_true_false (s body : State) :
    s.checked true false body = s.takeCondition .check .domainError := rfl

@[simp] theorem checked_false (s body : State) (operandOk : Bool) :
    s.checked false operandOk body = s.takeCondition .check .protocolError := rfl

/-- A command whose body only answers changes nothing but the responses. -/
theorem checked_respond (s : State) (stateOk operandOk : Bool) (data : Word) :
    ∃ r, s.checked stateOk operandOk (s.respond data) = { s with responses := s.responses ++ [r] } := by
  cases stateOk <;> cases operandOk <;> exact ⟨_, rfl⟩

/-- A command whose body only answers answers `ok` only when both checks pass, and then with its data. -/
theorem checked_respond_ok {s : State} {stateOk operandOk : Bool} {data d : Word}
    (h : s.checked stateOk operandOk (s.respond data) =
      { s with responses := s.responses ++ [{ err := 0, data := d }] }) :
    stateOk = true ∧ operandOk = true ∧ d = data := by
  have hr := congrArg State.responses h
  cases stateOk <;> cases operandOk <;>
    simp [State.checked, State.takeCondition, State.recordCondition, State.respond,
      Condition.code] at hr
  exact ⟨rfl, rfl, hr.symm⟩

theorem wf_writeLen {s : State} (h : s.mem.wf) (i : Nat) (e : BitVec 4) : (s.writeLen i e).mem.wf :=
  ⟨wf_put h.1 i e, h.2⟩

theorem wf_writeCodes {s : State} (h : s.mem.wf) (out : List CodeEntry) :
    (s.writeCodes out).mem.wf :=
  ⟨h.1, wf_putAll h.2.1 _, h.2.2⟩

theorem wf_writeFixll {s : State} (h : s.mem.wf) (out : List CodeEntry) :
    (s.writeFixll out).mem.wf :=
  ⟨h.1, h.2.1, wf_putAll h.2.2.1 _, h.2.2.2⟩

theorem wf_writeFixd {s : State} (h : s.mem.wf) (out : List CodeEntry) :
    (s.writeFixd out).mem.wf :=
  ⟨h.1, h.2.1, h.2.2.1, wf_putAll h.2.2.2.1 _, h.2.2.2.2⟩

theorem wf_initLtab {s : State} (h : s.mem.wf) : s.initLtab.mem.wf := by
  obtain ⟨h1, h2, h3, h4, h5, h6⟩ := h
  exact ⟨h1, h2, h3, h4, wf_putAll (wf_putAll h5 _) _, h6⟩

theorem wf_initXtra {s : State} (h : s.mem.wf) : s.initXtra.mem.wf := by
  obtain ⟨h1, h2, h3, h4, h5, h6, h7, h8⟩ := h
  exact ⟨h1, h2, h3, h4, h5, h6, wf_putAll h7 _, wf_putAll h8 _⟩

theorem wf_empty : Memory.empty.wf := by decide

theorem wf_reset : State.reset.mem.wf := wf_empty

end Sys2Proof.Machine
end

