-- ==== Sys2Proof/Laws/Builder.lean ====
section
/-! SUPPORT. The laws of the builder: one lemma per function of Machine/Canonical.lean, and what
`BUILD` does. -/

namespace Sys2Proof.Machine

/-! ## Registers -/

theorem reg_setReg (v : Vector Nat 16) (b x c : Nat) :
    reg (setReg v b x) c = if b = c ∧ b < 16 then x else reg v c := by
  unfold reg setReg
  rw [Vector.getElem?_setIfInBounds]
  by_cases hbc : b = c
  · subst hbc
    by_cases hb : b < 16 <;> simp [hb]
  · simp [hbc]

@[simp] theorem reg_replicate_zero (b : Nat) : reg (Vector.replicate 16 0) b = 0 := by
  unfold reg
  rw [Vector.getElem?_replicate]
  split <;> rfl

theorem reg_ofFn (f : Fin 16 → Nat) {b : Nat} (h : b < 16) : reg (Vector.ofFn f) b = f ⟨b, h⟩ := by
  unfold reg
  rw [Vector.getElem?_ofFn]
  simp [h]

/-! ## Step 1 -/

/-- The loop of step 1 adds to each counter the number of symbols of its length. -/
theorem reg_countFrom (bl : Vector Nat 16) (lens : List (BitVec 4)) (b : Nat) (hb : b < 16) :
    reg (countFrom bl lens) b =
      reg bl b + if b = 0 then 0 else lens.countP (fun l => l.toNat == b) := by
  induction lens generalizing bl with
  | nil => simp [countFrom]
  | cons l ls ih =>
    rw [countFrom, ih, List.countP_cons]
    have hl : l.toNat < 16 := l.isLt
    by_cases h0 : l = 0
    · subst h0
      by_cases hb0 : b = 0
      · simp [hb0]
      · have : ¬ (0 = b) := fun h => hb0 h.symm
        simp [hb0, this]
    · have hne : l.toNat ≠ 0 := fun h => h0 (BitVec.eq_of_toNat_eq (by simpa using h))
      rw [if_neg h0, reg_setReg]
      by_cases hb0 : b = 0
      · subst hb0; simp [hne]
      · by_cases hlb : l.toNat = b
        · simp [hlb, hb, hb0]; omega
        · simp [hlb, hb0]

/-- `bl_count[b]` is the number of symbols of length `b`, and `bl_count[0]` is 0 (R66). -/
theorem reg_countLengths (lens : List (BitVec 4)) (b : Nat) (hb : b < 16) :
    reg (countLengths lens) b = if b = 0 then 0 else lens.countP (fun l => l.toNat == b) := by
  rw [countLengths, reg_countFrom _ _ _ hb, reg_replicate_zero, Nat.zero_add]

theorem le_maxLength {lens : List (BitVec 4)} {l : BitVec 4} (h : l ∈ lens) :
    l.toNat ≤ maxLength lens := by
  induction lens with
  | nil => simp at h
  | cons m ls ih =>
    rcases List.mem_cons.1 h with rfl | h
    · exact Nat.le_max_left _ _
    · exact Nat.le_trans (ih h) (Nat.le_max_right _ _)

theorem maxLength_lt (lens : List (BitVec 4)) : maxLength lens < 16 := by
  induction lens with
  | nil => decide
  | cons l ls ih => exact Nat.max_lt.2 ⟨l.isLt, ih⟩

/-! ## Step 2 -/

theorem reg_firstCodes (bl : Vector Nat 16) (maxLen : Nat) {b : Nat} (hb : b < 16) :
    reg (firstCodes bl maxLen) b = if b ≤ maxLen then firstCode bl b else 0 := by
  rw [firstCodes, reg_ofFn _ hb]

/-! ## Steps 3 and 4 -/

@[simp] theorem assign_length (next : Vector Nat 16) (lens : List (BitVec 4)) :
    (assign next lens).1.length = lens.length := by
  induction lens generalizing next with
  | nil => rfl
  | cons l ls ih =>
    rw [assign]
    split <;> simp [ih]

/-- The entries of a result carry the lengths of the profile, in its order (R72(a)). -/
theorem assign_lens (next : Vector Nat 16) (lens : List (BitVec 4)) :
    (assign next lens).1.map CodeEntry.len = lens := by
  induction lens generalizing next with
  | nil => rfl
  | cons l ls ih =>
    rw [assign]
    split
    · next h => simp [ih, sentinel, h]
    · simp [ih]

/-! ## Build -/

/-- The two outcomes of `Build` (R63, R67, R70). -/
theorem build_cases (lens : List (BitVec 4)) :
    (overSubscribed lens = true ∧ build lens = .error .invalidCodeLengths) ∨
    (overSubscribed lens = false ∧ build lens = .ok (assignAll lens).1) := by
  unfold build
  cases overSubscribed lens <;> simp

theorem build_ok_length {lens : List (BitVec 4)} {out : List CodeEntry} (h : build lens = .ok out) :
    out.length = lens.length := by
  rcases build_cases lens with ⟨_, hb⟩ | ⟨_, hb⟩
  · rw [hb] at h; cases h
  · rw [hb] at h; cases h; exact assign_length _ _

theorem build_error_code {lens : List (BitVec 4)} {c : Condition} (h : build lens = .error c) :
    c = .invalidCodeLengths := by
  rcases build_cases lens with ⟨_, hb⟩ | ⟨_, hb⟩
  · rw [hb] at h; cases h; rfl
  · rw [hb] at h; cases h

/-! ## The profile -/

@[simp] theorem profile_length (s : State) : s.profile.length = s.nsym.toNat := by
  simp [State.profile]

/-- The profile depends on `NSYM`, `LEN` and the number of resets only. -/
theorem profile_congr {s t : State} (hn : t.nsym = s.nsym) (hm : t.mem.len = s.mem.len)
    (hr : t.resets = s.resets) : t.profile = s.profile := by
  unfold State.profile State.readLen
  rw [hn, hm, hr]

/-! ## BUILD -/

/-- Everything `BUILD` can do (R75). -/
theorem runBuild_cases (s : State) :
    (build s.profile = .error .invalidCodeLengths ∧
      s.runBuild = { s with
        work := workAfter s.work s.profile, cv := false
        responses := s.responses ++ [{ err := 1, data := 0 }] }) ∨
    (∃ out, build s.profile = .ok out ∧
      s.runBuild = { s with
        work := workAfter s.work s.profile, cv := true
        mem := { s.mem with code := s.mem.code.putAll (numberFrom 0 out) }
        responses := s.responses ++ [{ err := 0, data := 0 }] }) := by
  unfold State.runBuild
  rcases build_cases s.profile with ⟨_, hb⟩ | ⟨_, hb⟩
  · exact .inl ⟨hb, by rw [hb]; rfl⟩
  · exact .inr ⟨_, hb, by rw [hb]; rfl⟩

end Sys2Proof.Machine
end

