-- ==== Sys2Proof/Laws/Classifier.lean ====
section
/-! SUPPORT. The laws of the classifier: a well-formed table classifies every value of its domain, and
what each construction leaves. -/

namespace Sys2Proof.Machine

/-! ## Interval tables -/

theorem rowContains_iff {v : Nat} {r : SpecRow} :
    rowContains v r = true ↔ r.start.toNat ≤ v ∧ v ≤ r.stop.toNat := by
  simp [rowContains]

/-- In a contiguous table every row lies between the ends. -/
theorem contiguous_bounds {rows : List SpecRow} {lo hi : Nat} (h : contiguous lo hi rows = true)
    {r : SpecRow} (hr : r ∈ rows) :
    lo ≤ r.start.toNat ∧ r.start.toNat ≤ r.stop.toNat ∧ r.stop.toNat ≤ hi := by
  induction rows generalizing lo r with
  | nil => simp at hr
  | cons a rows ih =>
    cases rows with
    | nil =>
      simp [contiguous] at h
      obtain rfl : r = a := by simpa using hr
      omega
    | cons b rows =>
      simp only [contiguous, Bool.and_eq_true, decide_eq_true_eq] at h
      have hall : ∀ x ∈ b :: rows,
          a.stop.toNat + 1 ≤ x.start.toNat ∧ x.start.toNat ≤ x.stop.toNat ∧ x.stop.toNat ≤ hi :=
        fun x hx => ih h.2 hx
      rcases List.mem_cons.1 hr with rfl | hr
      · have := hall b (by simp)
        omega
      · have := hall r hr
        omega

/-- A contiguous table has a row for every value between its ends, and it is the one found. -/
theorem exists_row {rows : List SpecRow} {lo hi v : Nat} (h : contiguous lo hi rows = true)
    (hlo : lo ≤ v) (hhi : v ≤ hi) :
    ∃ r ∈ rows, rows.find? (rowContains v) = some r ∧ r.start.toNat ≤ v ∧ v ≤ r.stop.toNat := by
  induction rows generalizing lo with
  | nil => simp [contiguous] at h
  | cons a rows ih =>
    cases rows with
    | nil =>
      simp [contiguous] at h
      have hc : rowContains v a = true := rowContains_iff.2 (by omega)
      exact ⟨a, by simp, by simp [hc], by omega, by omega⟩
    | cons b rows =>
      simp only [contiguous, Bool.and_eq_true, decide_eq_true_eq] at h
      by_cases hv : v ≤ a.stop.toNat
      · have hc : rowContains v a = true := rowContains_iff.2 (by omega)
        exact ⟨a, by simp, by simp [hc], by omega, hv⟩
      · obtain ⟨r, hr, hf, h1, h2⟩ := ih h.2 (by omega)
        have hc : rowContains v a = false := by
          rw [Bool.eq_false_iff, Ne, rowContains_iff]; omega
        exact ⟨r, List.mem_cons_of_mem _ hr, by rw [List.find?_cons, hc]; exact hf, h1, h2⟩

/-- Rows of a contiguous table that share a value are one row, so the row found is any row that
contains the value. -/
theorem find_of_mem {rows : List SpecRow} {lo hi v : Nat} (h : contiguous lo hi rows = true)
    {r : SpecRow} (hr : r ∈ rows) (hc : rowContains v r = true) :
    rows.find? (rowContains v) = some r := by
  induction rows generalizing lo with
  | nil => simp at hr
  | cons a rows ih =>
    cases rows with
    | nil => obtain rfl : r = a := by simpa using hr
             simp [hc]
    | cons b rows =>
      simp only [contiguous, Bool.and_eq_true, decide_eq_true_eq] at h
      rcases List.mem_cons.1 hr with rfl | hr
      · rw [List.find?_cons, hc]
      · have hb := contiguous_bounds h.2 hr
        have hv := rowContains_iff.1 hc
        have hca : rowContains v a = false := by
          rw [Bool.eq_false_iff, Ne, rowContains_iff]; omega
        rw [List.find?_cons, hca]
        exact ih h.2 hr

/-! ## A configuration's own checks -/

theorem Configuration.lspec_wf (c : Configuration) :
    c.lspec.length = 29 ∧ codesInOrder 257 c.lspec = true ∧ contiguous 3 258 c.lspec = true ∧
      c.lspec.all (extraOk 5) = true := by
  have h := c.wf
  simp only [configWF, lspecWF, Bool.and_eq_true, decide_eq_true_eq] at h
  exact ⟨h.1.1.1.1.1.1, h.1.1.1.1.1.2, h.1.1.1.1.2, h.1.1.1.2⟩

theorem Configuration.dspec_wf (c : Configuration) :
    c.dspec.length = 30 ∧ codesInOrder 0 c.dspec = true ∧ contiguous 1 32768 c.dspec = true ∧
      c.dspec.all (extraOk 13) = true := by
  have h := c.wf
  simp only [configWF, dspecWF, Bool.and_eq_true, decide_eq_true_eq] at h
  exact ⟨h.1.1.2.1.1.1, h.1.1.2.1.1.2, h.1.1.2.1.2, h.1.1.2.2⟩

theorem Configuration.nsymMax_bounds (c : Configuration) : 1 ≤ c.nsymMax ∧ c.nsymMax ≤ 65535 := by
  have h := c.wf
  simp only [configWF, Bool.and_eq_true, decide_eq_true_eq] at h
  exact ⟨h.1.2, h.2⟩

/-- Every length of the domain has a class, given by a row that contains it. -/
theorem classify_length (c : Configuration) {L : Nat} (h1 : 3 ≤ L) (h2 : L ≤ 258) :
    ∃ r ∈ c.lspec, classify c.lspec L = some (rowEntry r) ∧ r.start.toNat ≤ L ∧ L ≤ r.stop.toNat := by
  obtain ⟨r, hr, hf, hb⟩ := exists_row c.lspec_wf.2.2.1 h1 h2
  exact ⟨r, hr, by rw [classify, hf]; rfl, hb⟩

/-- Every distance of the domain has a class, given by a row that contains it. -/
theorem classify_distance (c : Configuration) {d : Nat} (h1 : 1 ≤ d) (h2 : d ≤ 32768) :
    ∃ r ∈ c.dspec, classify c.dspec d = some (rowEntry r) ∧ r.start.toNat ≤ d ∧ d ≤ r.stop.toNat := by
  obtain ⟨r, hr, hf, hb⟩ := exists_row c.dspec_wf.2.2.1 h1 h2
  exact ⟨r, hr, by rw [classify, hf]; rfl, hb⟩

theorem classify_v {rows : List SpecRow} {v : Nat} {e : ClassEntry} (h : classify rows v = some e) :
    e.v = true := by
  unfold classify at h
  obtain ⟨r, _, rfl⟩ := Option.map_eq_some_iff.1 h
  rfl

/-! ## The distance index -/

theorem distanceIndex_lt {d : Nat} (h2 : d ≤ 32768) : distanceIndex d < 512 := by
  unfold distanceIndex
  simp only [Config.didxSplit, Config.didxShift, Nat.shiftRight_eq_div_pow]
  split <;> omega

/-! ## BuildLTAB -/

theorem mem_blankWrites {n : Nat} {p : Nat × ClassEntry} (h : p ∈ blankWrites n) :
    p.1 < n ∧ p.2 = blankEntry := by
  obtain ⟨j, hj, rfl⟩ := List.mem_map.1 h
  exact ⟨List.mem_range.1 hj, rfl⟩

theorem blankWrites_mem {n i : Nat} (h : i < n) : (i, blankEntry) ∈ blankWrites n :=
  List.mem_map.2 ⟨i, List.mem_range.2 h, rfl⟩

/-- A cleared table reads blank below its depth and as before above it. -/
theorem lookup_blank (t : Table ClassEntry) (n i : Nat) :
    (t.putAll (blankWrites n)).lookup i = if i < n then some blankEntry else t.lookup i := by
  split
  · next h =>
    exact lookup_putAll_of_mem t (blankWrites_mem h) (fun p hp _ => (mem_blankWrites hp).2)
  · next h =>
    refine lookup_putAll_of_not_mem t (fun p hp hpi => h ?_)
    have := (mem_blankWrites hp).1
    omega

theorem mem_rowWrites {r : SpecRow} {p : Nat × ClassEntry} :
    p ∈ rowWrites r ↔ rowContains p.1 r = true ∧ p.2 = rowEntry r := by
  rw [rowWrites, List.mem_map, rowContains_iff]
  constructor
  · rintro ⟨L, hL, rfl⟩
    rw [List.mem_range'_1] at hL
    exact ⟨by simp only; omega, rfl⟩
  · rintro ⟨h, he⟩
    refine ⟨p.1, List.mem_range'_1.2 (by omega), ?_⟩
    rw [← he]

/-- What `BuildLTAB` leaves (R89): each length of the domain has its class, the entries below it are
blank, and nothing beyond the table is touched. -/
theorem lookup_buildLtab (c : Configuration) (t : Table ClassEntry) (i : Nat) :
    (buildLtab c.lspec t).lookup i =
      if i < 3 then some blankEntry else if i ≤ 258 then classify c.lspec i else t.lookup i := by
  have hcont := c.lspec_wf.2.2.1
  have hrow : ∀ p ∈ c.lspec.flatMap rowWrites, ∃ r ∈ c.lspec,
      rowContains p.1 r = true ∧ p.2 = rowEntry r := by
    intro p hp
    obtain ⟨r, hr, hpr⟩ := List.mem_flatMap.1 hp
    exact ⟨r, hr, mem_rowWrites.1 hpr⟩
  have hout : i < 3 ∨ 258 < i → ((t.putAll (blankWrites 259)).putAll
      (c.lspec.flatMap rowWrites)).lookup i = (t.putAll (blankWrites 259)).lookup i := by
    intro hi
    refine lookup_putAll_of_not_mem _ (fun p hp hpi => ?_)
    obtain ⟨r, hr, hc, _⟩ := hrow p hp
    have := contiguous_bounds hcont hr
    have := rowContains_iff.1 hc
    omega
  unfold buildLtab
  simp only [Config.ltabDepth]
  by_cases h1 : i < 3
  · rw [hout (.inl h1), lookup_blank, if_pos h1, if_pos (by omega)]
  · by_cases h2 : i ≤ 258
    · rw [if_neg h1, if_pos h2]
      obtain ⟨r, hr, hcl, hb⟩ := classify_length c (by omega) h2
      have hc : rowContains i r = true := rowContains_iff.2 hb
      rw [hcl]
      refine lookup_putAll_of_mem _ (List.mem_flatMap.2 ⟨r, hr, mem_rowWrites.2 ⟨hc, rfl⟩⟩) ?_
      rintro p hp rfl
      obtain ⟨r', hr', hc', he⟩ := hrow p hp
      have h1 := find_of_mem hcont hr hc
      have h2 := find_of_mem hcont hr' hc'
      rw [h1] at h2
      cases h2
      exact he
    · rw [hout (.inr (by omega)), lookup_blank, if_neg h1, if_neg h2, if_neg (by omega)]

theorem below_buildLtab (c : Configuration) {t : Table ClassEntry} (h : t.below 259) :
    (buildLtab c.lspec t).below 259 := by
  refine below_putAll (below_putAll h (fun p hp => (mem_blankWrites hp).1)) (fun p hp => ?_)
  obtain ⟨r, hr, hpr⟩ := List.mem_flatMap.1 hp
  have h1 := contiguous_bounds c.lspec_wf.2.2.1 hr
  have h2 := rowContains_iff.1 (mem_rowWrites.1 hpr).1
  omega

/-! ## BuildXTRA -/

/-- What one half of `BuildXTRA` leaves (R92). -/
theorem lookup_buildXtra (rows : List SpecRow) (t : Table (BitVec 4)) (i : Nat) :
    (buildXtra rows t).lookup i =
      if i < rows.length then (rows[i]?).map SpecRow.extra else t.lookup i := by
  unfold buildXtra
  rw [lookup_putAll_numberFrom, List.length_map, List.getElem?_map]

theorem below_buildXtra {rows : List SpecRow} {t : Table (BitVec 4)} {n : Nat} (h : t.below n)
    (hn : rows.length ≤ n) : (buildXtra rows t).below n := by
  refine below_putAll h (fun p hp => ?_)
  have := (mem_numberFrom hp).2.1
  rw [List.length_map] at this
  omega

/-! ## BuildDTAB -/

/-- A written slot without a conflict holds the very entry that arrives. -/
theorem eq_of_not_conflicts {a b : ClassEntry} (h : conflicts (some a) b = false) (ha : a.v = true)
    (hb : b.v = true) : a = b := by
  obtain ⟨av, ax, ac, abase⟩ := a
  obtain ⟨bv, bx, bc, bbase⟩ := b
  simp only at ha hb
  subst ha hb
  simp [conflicts] at h
  simp [h]

/-- What the loop of `BuildDTAB` needs to know of the table it works on: a slot of the index space that
reads as a written entry holds the class of some distance already visited. -/
def Filled (rows : List SpecRow) (seen : List Nat) (t : Table ClassEntry) : Prop :=
  ∀ i e, i < 512 → t.lookup i = some e → e.v = true →
    ∃ d ∈ seen, distanceIndex d = i ∧ classify rows d = some e

/-- The loop ends without a condition: every distance of the list has its class in its slot, and a slot
of no distance of the list is as before. -/
theorem fillDtab_ok {rows : List SpecRow} {ds : List Nat} {t u : Table ClassEntry}
    (h : fillDtab rows ds t = .ok u) :
    (∀ d ∈ ds, ∀ e, classify rows d = some e → u.lookup (distanceIndex d) = some e) ∧
    (∀ i, (∀ d ∈ ds, distanceIndex d ≠ i) → u.lookup i = t.lookup i) ∧
    (∀ i a, t.lookup i = some a → a.v = true → u.lookup i = some a) := by
  induction ds generalizing t with
  | nil =>
    cases h
    exact ⟨by simp, fun _ _ => rfl, fun _ _ h _ => h⟩
  | cons d ds ih =>
    rw [fillDtab] at h
    split at h
    · next hd =>
      obtain ⟨h1, h2, h3⟩ := ih h
      refine ⟨fun x hx e he => ?_, fun i hi => h2 i (fun x hx => hi x (List.mem_cons_of_mem _ hx)), h3⟩
      rcases List.mem_cons.1 hx with rfl | hx
      · rw [hd] at he; cases he
      · exact h1 x hx e he
    · next e hd =>
      split at h
      · cases h
      · next hc =>
        obtain ⟨h1, h2, h3⟩ := ih h
        have hev : e.v = true := classify_v hd
        refine ⟨fun x hx e' he' => ?_, fun i hi => ?_, fun i a ha hav => ?_⟩
        · rcases List.mem_cons.1 hx with rfl | hx
          · rw [hd] at he'; cases he'
            exact h3 _ _ (lookup_put_self _ _ _) hev
          · exact h1 x hx e' he'
        · rw [h2 i (fun x hx => hi x (List.mem_cons_of_mem _ hx)),
            lookup_put_of_ne _ _ (hi d (by simp)).symm]
        · refine h3 i a ?_ hav
          rw [lookup_put]
          split
          · next hi =>
            rw [← hi, ha] at hc
            rw [eq_of_not_conflicts (by simpa using hc) hav hev]
          · exact ha

/-- The turn of the loop for one distance (R90). -/
theorem fillDtab_cons (rows : List SpecRow) (d : Nat) (ds : List Nat) (t : Table ClassEntry) :
    (classify rows d = none ∧ fillDtab rows (d :: ds) t = fillDtab rows ds t) ∨
    (∃ e, classify rows d = some e ∧ conflicts (t.lookup (distanceIndex d)) e = true ∧
      fillDtab rows (d :: ds) t = .error t) ∨
    (∃ e, classify rows d = some e ∧ conflicts (t.lookup (distanceIndex d)) e = false ∧
      fillDtab rows (d :: ds) t = fillDtab rows ds (t.put (distanceIndex d) e)) := by
  rw [fillDtab]
  cases hd : classify rows d with
  | none => exact .inl ⟨rfl, rfl⟩
  | some e =>
    cases hc : conflicts (t.lookup (distanceIndex d)) e with
    | true => exact .inr (.inl ⟨e, rfl, hc, by simp [hc]⟩)
    | false => exact .inr (.inr ⟨e, rfl, hc, by simp [hc]⟩)

/-- The loop keeps the canonical form, whether it ends or raises. -/
theorem wf_fillDtab {rows : List SpecRow} {ds : List Nat} {t : Table ClassEntry} (ht : t.wf) :
    (∀ u, fillDtab rows ds t = .ok u → u.wf) ∧ (∀ u, fillDtab rows ds t = .error u → u.wf) := by
  induction ds generalizing t with
  | nil => exact ⟨fun u h => by (cases h; exact ht), fun _ h => (nomatch h)⟩
  | cons d ds ih =>
    rcases fillDtab_cons rows d ds t with ⟨_, h⟩ | ⟨e, _, _, h⟩ | ⟨e, _, _, h⟩ <;> rw [h]
    · exact ih ht
    · exact ⟨fun _ h => (nomatch h), fun u h => by cases h; exact ht⟩
    · exact ih (wf_put ht _ _)

/-- The loop stays in the index space, whether it ends or raises. -/
theorem below_fillDtab {rows : List SpecRow} {ds : List Nat} {t : Table ClassEntry}
    (hds : ∀ d ∈ ds, d ≤ 32768) (ht : t.below 512) :
    (∀ u, fillDtab rows ds t = .ok u → u.below 512) ∧
      (∀ u, fillDtab rows ds t = .error u → u.below 512) := by
  induction ds generalizing t with
  | nil => exact ⟨fun u h => by (cases h; exact ht), fun _ h => (nomatch h)⟩
  | cons d ds ih =>
    have hds' : ∀ x ∈ ds, x ≤ 32768 := fun x hx => hds x (List.mem_cons_of_mem _ hx)
    rcases fillDtab_cons rows d ds t with ⟨_, h⟩ | ⟨e, _, _, h⟩ | ⟨e, _, _, h⟩ <;> rw [h]
    · exact ih hds' ht
    · exact ⟨fun _ h => (nomatch h), fun u h => by cases h; exact ht⟩
    · exact ih hds' (below_put ht (distanceIndex_lt (hds d (by simp))) _)

/-- The loop raises only when a distance of the list meets, in its slot, an entry that differs from its
class: one that the table had, or the class of another distance of the list. -/
theorem fillDtab_error {rows : List SpecRow} {ds : List Nat} {seen : List Nat}
    {t u : Table ClassEntry} (hds : ∀ d ∈ ds, d ≤ 32768) (hseen : Filled rows seen t)
    (h : fillDtab rows ds t = .error u) :
    ∃ d₁ ∈ seen ++ ds, ∃ d₂ ∈ ds,
      distanceIndex d₁ = distanceIndex d₂ ∧ classify rows d₁ ≠ classify rows d₂ := by
  induction ds generalizing t seen with
  | nil => cases h
  | cons d ds ih =>
    have hds' : ∀ x ∈ ds, x ≤ 32768 := fun x hx => hds x (List.mem_cons_of_mem _ hx)
    have hlt : distanceIndex d < 512 := distanceIndex_lt (hds d (by simp))
    rcases fillDtab_cons rows d ds t with ⟨_, hf⟩ | ⟨e, hd, hc, _⟩ | ⟨e, hd, hc, hf⟩
    · obtain ⟨d₁, h₁, d₂, h₂, hr⟩ := ih hds' hseen (hf ▸ h)
      refine ⟨d₁, ?_, d₂, List.mem_cons_of_mem _ h₂, hr⟩
      simp only [List.mem_append, List.mem_cons] at h₁ ⊢; tauto
    · cases hl : t.lookup (distanceIndex d) with
      | none => rw [hl] at hc; simp [conflicts] at hc
      | some a =>
        rw [hl] at hc
        have hav : a.v = true := by simp only [conflicts, Bool.and_eq_true] at hc; exact hc.1
        obtain ⟨d₁, h₁, hi, hcl⟩ := hseen _ _ hlt hl hav
        refine ⟨d₁, List.mem_append_left _ h₁, d, by simp, hi, ?_⟩
        rw [hcl, hd]
        intro hae
        cases hae
        simp [conflicts] at hc
    · have hfilled : Filled rows (d :: seen) (t.put (distanceIndex d) e) := by
        intro i a hi ha hav
        rw [lookup_put] at ha
        split at ha
        · next hid => cases ha; exact ⟨d, by simp, hid.symm, hd⟩
        · obtain ⟨x, hx, hxr⟩ := hseen i a hi ha hav
          exact ⟨x, List.mem_cons_of_mem _ hx, hxr⟩
      obtain ⟨d₁, h₁, d₂, h₂, hr⟩ := ih hds' hfilled (hf ▸ h)
      refine ⟨d₁, ?_, d₂, List.mem_cons_of_mem _ h₂, hr⟩
      simp only [List.mem_append, List.mem_cons] at h₁ ⊢; tauto

/-- A cleared table has no written entry in its index space. -/
theorem filled_blank (rows : List SpecRow) (t : Table ClassEntry) :
    Filled rows [] (t.putAll (blankWrites 512)) := by
  intro i e hi hl hv
  rw [lookup_blank, if_pos hi] at hl
  cases hl
  cases hv

/-! ## The default distance table -/

/-- A row above distance 256 starts one above a multiple of 128 and ends at one (R85). -/
theorem defaultDspec_aligned : ∀ r ∈ defaultDspec,
    r.stop.toNat ≤ 256 ∨ (r.start.toNat % 128 = 1 ∧ r.stop.toNat % 128 = 0) := by decide

/-- The class of a distance above 256, in the default table, is that of the first distance of its block
of 128. -/
theorem classify_block {k d : Nat} (hk : 2 ≤ k) (h1 : 128 * k + 1 ≤ d) (h2 : d ≤ 128 * k + 128) :
    classify defaultDspec d = classify defaultDspec (128 * k + 1) := by
  unfold classify
  congr 1
  have : ∀ r ∈ defaultDspec, rowContains d r = rowContains (128 * k + 1) r := by
    intro r hr
    rw [Bool.eq_iff_iff, rowContains_iff, rowContains_iff]
    rcases defaultDspec_aligned r hr with h | h <;> omega
  exact List.find?_congr this

end Sys2Proof.Machine
end

