-- ==== Sys2Proof/Laws/PerInstr.lean ====
section
/-! SUPPORT. The fields of a command word, and a statement per command: its word has the fields that its
row of the opcode map and its format give (R48, R49, R56). -/

namespace Sys2Proof

theorem opField_wordOf (op : BitVec 8) (n : Nat) : opField (wordOf op n) = op := by
  unfold opField wordOf
  ext i
  simp
  grind

theorem rsvField_wordOf (op : BitVec 8) (n : Nat) : rsvField (wordOf op n) = 0 := by
  unfold rsvField wordOf
  ext i
  simp
  grind

theorem argField_wordOf (op : BitVec 8) (n : Nat) : argField (wordOf op n) = BitVec.ofNat 16 n := by
  unfold argField wordOf
  ext i
  simp
  grind

end Sys2Proof

namespace Sys2Proof.Laws.EncodingFollowsItsFormat

/-- The word of a well-formed command has the opcode of its row, `rsv` 0, and an `arg` that its format
allows. -/
def Statement (i : Instr) : Prop :=
  i.wellFormed = true → ∀ row ∈ opcodeTable, row.mnemonic = i.mnemonic →
    opField (encode i) = row.op ∧ rsvField (encode i) = 0 ∧
    (row.format = .n → argField (encode i) = 0) ∧
    (row.format = .l → (argField (encode i)).toNat < 16)

theorem init : Statement .init := by
  intro _
  simp [opcodeTable, Instr.mnemonic, encode, opField_wordOf, rsvField_wordOf, argField_wordOf]

theorem stat : Statement .stat := by
  intro _
  simp [opcodeTable, Instr.mnemonic, encode, opField_wordOf, rsvField_wordOf, argField_wordOf]

theorem clrp : Statement .clrp := by
  intro _
  simp [opcodeTable, Instr.mnemonic, encode, opField_wordOf, rsvField_wordOf, argField_wordOf]

theorem pushlen (n : Nat) : Statement (.pushlen n) := by
  intro h
  have h : n < 16 := by simpa [Instr.wellFormed, lenFieldOk] using h
  simp [opcodeTable, Instr.mnemonic, encode, opField_wordOf, rsvField_wordOf, argField_wordOf]
  omega

theorem build : Statement .build := by
  intro _
  simp [opcodeTable, Instr.mnemonic, encode, opField_wordOf, rsvField_wordOf, argField_wordOf]

theorem rdcode (n : Nat) : Statement (.rdcode n) := by
  intro _
  simp [opcodeTable, Instr.mnemonic, encode, opField_wordOf, rsvField_wordOf]

theorem lclass (n : Nat) : Statement (.lclass n) := by
  intro _
  simp [opcodeTable, Instr.mnemonic, encode, opField_wordOf, rsvField_wordOf]

theorem dclass (n : Nat) : Statement (.dclass n) := by
  intro _
  simp [opcodeTable, Instr.mnemonic, encode, opField_wordOf, rsvField_wordOf]

theorem lxb (n : Nat) : Statement (.lxb n) := by
  intro _
  simp [opcodeTable, Instr.mnemonic, encode, opField_wordOf, rsvField_wordOf]

theorem dxb (n : Nat) : Statement (.dxb n) := by
  intro _
  simp [opcodeTable, Instr.mnemonic, encode, opField_wordOf, rsvField_wordOf]

theorem didx (n : Nat) : Statement (.didx n) := by
  intro _
  simp [opcodeTable, Instr.mnemonic, encode, opField_wordOf, rsvField_wordOf]

theorem rdltab (n : Nat) : Statement (.rdltab n) := by
  intro _
  simp [opcodeTable, Instr.mnemonic, encode, opField_wordOf, rsvField_wordOf]

theorem rddtab (n : Nat) : Statement (.rddtab n) := by
  intro _
  simp [opcodeTable, Instr.mnemonic, encode, opField_wordOf, rsvField_wordOf]

theorem rdfixl (n : Nat) : Statement (.rdfixl n) := by
  intro _
  simp [opcodeTable, Instr.mnemonic, encode, opField_wordOf, rsvField_wordOf]

theorem rdfixd (n : Nat) : Statement (.rdfixd n) := by
  intro _
  simp [opcodeTable, Instr.mnemonic, encode, opField_wordOf, rsvField_wordOf]

end Sys2Proof.Laws.EncodingFollowsItsFormat
end

