-- ==== Sys2Proof/Laws/System.lean ====
section
/-! SUPPORT. What `INIT`, the acceptance of an input and the step can do, said once. -/

namespace Sys2Proof.Machine

theorem profileLL_fits : overSubscribed Config.profileLL = false := by decide +kernel

theorem profileD_fits : overSubscribed Config.profileD = false := by decide +kernel

theorem build_profileLL : build Config.profileLL = .ok (assignAll Config.profileLL).1 := by
  unfold build
  rw [profileLL_fits]
  rfl

theorem build_profileD : build Config.profileD = .ok (assignAll Config.profileD).1 := by
  unfold build
  rw [profileD_fits]
  rfl

/-- The entries of the fixed literal/length code, sealed so that no proof computes them by accident. -/
@[irreducible] def fixllEntries : List CodeEntry := (assignAll Config.profileLL).1

/-- The entries of the fixed distance code. -/
@[irreducible] def fixdEntries : List CodeEntry := (assignAll Config.profileD).1

theorem build_profileLL_entries : build Config.profileLL = .ok fixllEntries := by
  unfold fixllEntries
  exact build_profileLL

theorem build_profileD_entries : build Config.profileD = .ok fixdEntries := by
  unfold fixdEntries
  exact build_profileD

theorem fixllEntries_length : fixllEntries.length = 288 :=
  (build_ok_length build_profileLL_entries).trans (by
    simp only [Config.profileLL, List.length_append, List.length_replicate])

theorem fixdEntries_length : fixdEntries.length = 32 :=
  (build_ok_length build_profileD_entries).trans (by
    simp only [Config.profileD, List.length_replicate])

/-- The memory that `INIT` leaves, the codes being `ll` and `dd`, and `DTAB` being `u` (R105 steps 1 to
5). The codes are arguments, so that no proof about this memory computes them. -/
def constructedMem (cfg : Configuration) (m : Memory) (ll dd : List CodeEntry)
    (u : Table ClassEntry) : Memory :=
  { m with
    fixll := m.fixll.putAll (numberFrom 0 ll)
    fixd := m.fixd.putAll (numberFrom 0 dd)
    ltab := buildLtab cfg.lspec m.ltab
    dtab := u
    lxtra := buildXtra cfg.lspec m.lxtra
    dxtra := buildXtra cfg.dspec m.dxtra }

/-- The working registers that `INIT` leaves. -/
def constructedWork (w : Work) : Work := workAfter (workAfter w Config.profileLL) Config.profileD

/-- Everything the construction can do (R105, R106): it ends, or `BuildDTAB` raises. -/
theorem construct_cases (s : State) :
    (∃ u, buildDtab s.cfg.dspec s.mem.dtab = .ok u ∧
      s.construct = .ok { s with
        work := constructedWork s.work, mem := constructedMem s.cfg s.mem fixllEntries fixdEntries u }) ∨
    (∃ u, buildDtab s.cfg.dspec s.mem.dtab = .error u ∧
      s.construct = .error ({ s with
        work := constructedWork s.work, mem := constructedMem s.cfg s.mem fixllEntries fixdEntries u },
        .tableInconsistency)) := by
  unfold State.construct State.initFixll State.initFixd
  rw [build_profileLL_entries, build_profileD_entries]
  generalize fixllEntries = ll
  generalize fixdEntries = dd
  simp only [State.initDtab, initXtra_cfg, initLtab_cfg, initXtra_mem, initLtab_mem, writeFixd_cfg,
    writeFixd_mem, writeFixll_cfg, writeFixll_mem]
  cases hb : buildDtab s.cfg.dspec s.mem.dtab with
  | ok u => exact .inl ⟨u, rfl, rfl⟩
  | error u => exact .inr ⟨u, rfl, rfl⟩

/-- Everything the work of `INIT` can do (R105). -/
theorem runInit_cases (s : State) :
    (∃ u, buildDtab s.cfg.dspec s.mem.dtab = .ok u ∧
      s.runInit = { s with
        mode := .ready, work := constructedWork s.work, mem := constructedMem s.cfg s.mem fixllEntries fixdEntries u
        responses := s.responses ++ [{ err := 0, data := 0 }] }) ∨
    (∃ u, buildDtab s.cfg.dspec s.mem.dtab = .error u ∧
      s.runInit = { s with
        mode := .failed, err := 3, work := constructedWork s.work
        mem := constructedMem s.cfg s.mem fixllEntries fixdEntries u
        responses := s.responses ++ [{ err := 3, data := 0 }] }) := by
  unfold State.runInit
  rcases construct_cases s with ⟨u, hu, h⟩ | ⟨u, hu, h⟩
  · exact .inl ⟨u, hu, by simp only [h, State.respond]⟩
  · exact .inr ⟨u, hu, by simp only [h, State.takeCondition, State.recordCondition, Condition.code]⟩

/-- The memory that `INIT` leaves is in canonical form. -/
theorem wf_constructedMem {cfg : Configuration} {m : Memory} {u : Table ClassEntry} (h : m.wf)
    (hu : u.wf) (ll dd : List CodeEntry) : (constructedMem cfg m ll dd u).wf := by
  obtain ⟨h1, h2, h3, h4, h5, _, h7, h8⟩ := h
  exact ⟨h1, h2, wf_putAll h3 _, wf_putAll h4 _, wf_putAll (wf_putAll h5 _) _, hu, wf_putAll h7 _,
    wf_putAll h8 _⟩

/-- The memory that `INIT` leaves stays in its index spaces. -/
theorem inSpaces_constructedMem {cfg : Configuration} {m : Memory} {u : Table ClassEntry}
    (h : m.InSpaces cfg.nsymMax) (hu : u.below 512) {ll dd : List CodeEntry} (hl : ll.length = 288)
    (hd : dd.length = 32) : (constructedMem cfg m ll dd u).InSpaces cfg.nsymMax where
  len := h.len
  code := h.code
  fixll := below_putAll h.fixll (fun p hp => by have := (mem_numberFrom hp).2.1; omega)
  fixd := below_putAll h.fixd (fun p hp => by have := (mem_numberFrom hp).2.1; omega)
  ltab := below_buildLtab cfg h.ltab
  dtab := hu
  lxtra := below_buildXtra h.lxtra (by rw [cfg.lspec_wf.1])
  dxtra := below_buildXtra h.dxtra (by rw [cfg.dspec_wf.1])

/-- `DTAB`, built or left half built, is in canonical form. -/
theorem wf_buildDtab {rows : List SpecRow} {t u : Table ClassEntry} (ht : t.wf)
    (h : buildDtab rows t = .ok u ∨ buildDtab rows t = .error u) : u.wf := by
  have := wf_fillDtab (rows := rows) (ds := List.range' 1 32768) (wf_putAll ht (blankWrites 512))
  rcases h with h | h
  · exact this.1 u h
  · exact this.2 u h

/-- `DTAB`, built or left half built, stays in its index space. -/
theorem below_buildDtab {rows : List SpecRow} {t u : Table ClassEntry} (ht : t.below 512)
    (h : buildDtab rows t = .ok u ∨ buildDtab rows t = .error u) : u.below 512 := by
  have := below_fillDtab (rows := rows) (ds := List.range' 1 32768)
    (fun d hd => by rw [List.mem_range'_1] at hd; omega)
    (below_putAll ht (fun p hp => (mem_blankWrites (n := 512) hp).1))
  rcases h with h | h
  · exact this.1 u h
  · exact this.2 u h

/-- Everything a step can do: wait, run the command a word decodes to, reject a word, or reset. -/
theorem step_cases (s : State) :
    (s.inputs = [] ∧ step s = .next s) ∨
    (∃ w rest i, s.inputs = .command w :: rest ∧ decode w = .ok i ∧
      step s = exec i { s with inputs := rest }) ∨
    (∃ w rest e, s.inputs = .command w :: rest ∧ decode w = .error e ∧
      step s = .next { s with
        inputs := rest, responses := s.responses ++ [{ err := 4, data := 0 }] }) ∨
    (∃ rest, s.inputs = .reset :: rest ∧
      step s = .next (State.applyReset { s with inputs := rest })) := by
  unfold step acceptInput
  cases hi : s.inputs with
  | nil => exact .inl ⟨rfl, rfl⟩
  | cons x rest =>
    cases x with
    | reset => exact .inr (.inr (.inr ⟨rest, rfl, rfl⟩))
    | command w =>
      cases hd : decode w with
      | ok i => exact .inr (.inl ⟨w, rest, i, rfl, hd, by simp [acceptWord, hd]⟩)
      | error e =>
        exact .inr (.inr (.inl ⟨w, rest, e, rfl, hd, by simp only [acceptWord, hd]; rfl⟩))

end Sys2Proof.Machine
end

