-- ==== Sys2Proof/Tests/Slice0.lean ====
section
/-! SUPPORT. The model's own tests: words written out from spec/30_encoding.md, responses written in
spec/40_builder.md, spec/41_classifier.md, spec/42_driver_system.md and spec/95_test_vectors.md, and a
witness for the hypotheses of every statement. -/

namespace Sys2Proof.Machine.Tests

open Sys2Proof Sys2Proof.Machine

/-! ## Decoding: words written bit by bit from R48, R49, R56 -/

theorem test_decode_init : decode 0b00000001_00000000_0000000000000000 = .ok .init := by decide
theorem test_decode_stat : decode 0b00000010_00000000_0000000000000000 = .ok .stat := by decide
theorem test_decode_clrp : decode 0b00010000_00000000_0000000000000000 = .ok .clrp := by decide
theorem test_decode_pushlen : decode 0b00010001_00000000_0000000000001010 = .ok (.pushlen 10) := by decide
theorem test_decode_build : decode 0b00010010_00000000_0000000000000000 = .ok .build := by decide
theorem test_decode_rdcode : decode 0b00010011_00000000_0000000100011111 = .ok (.rdcode 287) := by decide
theorem test_decode_lclass : decode 0b00100000_00000000_0000000100000010 = .ok (.lclass 258) := by decide
theorem test_decode_dclass : decode 0b00100001_00000000_1000000000000000 = .ok (.dclass 32768) := by decide
theorem test_decode_lxb : decode 0b00100010_00000000_0000000100011101 = .ok (.lxb 285) := by decide
theorem test_decode_dxb : decode 0b00100011_00000000_0000000000011101 = .ok (.dxb 29) := by decide
theorem test_decode_didx : decode 0b00100100_00000000_0000000100000001 = .ok (.didx 257) := by decide
theorem test_decode_rdltab : decode 0b00100101_00000000_0000000000000011 = .ok (.rdltab 3) := by decide
theorem test_decode_rddtab : decode 0b00100110_00000000_0000000111111111 = .ok (.rddtab 511) := by decide
theorem test_decode_rdfixl : decode 0b00110000_00000000_0000000100000000 = .ok (.rdfixl 256) := by decide
theorem test_decode_rdfixd : decode 0b00110001_00000000_0000000000011111 = .ok (.rdfixd 31) := by decide

/-- R57: each way to be no command, by its name. -/
theorem test_decode_refuses :
    decode 0x00000000 = .error .unknownOpcode ∧ decode 0xFF000000 = .error .unknownOpcode ∧
    decode 0x20010003 = .error .reservedNotZero ∧ decode 0x01000001 = .error .operandNotZero ∧
    decode 0x11000010 = .error .lengthTooWide := by decide

/-- WellFormed: an operand one above what its field holds is refused, the largest one is not. -/
theorem test_wellFormed_smoke :
    Instr.wellFormed (.pushlen 16) = false ∧ Instr.wellFormed (.pushlen 15) = true ∧
    Instr.wellFormed (.rdcode 65536) = false ∧ Instr.wellFormed (.rdcode 65535) = true ∧
    Instr.wellFormed (.lclass 65536) = false ∧ Instr.wellFormed (.dclass 65536) = false ∧
    Instr.wellFormed (.lxb 65536) = false ∧ Instr.wellFormed (.dxb 65536) = false ∧
    Instr.wellFormed (.didx 65536) = false ∧ Instr.wellFormed (.rdltab 65536) = false ∧
    Instr.wellFormed (.rddtab 65536) = false ∧ Instr.wellFormed (.rdfixl 65536) = false ∧
    Instr.wellFormed (.rdfixd 65536) = false := by decide

theorem test_decodeTableWord :
    decodeTableWord 32 0x2400FFFF = some (.didx 65535) ∧ decodeTableWord 32 0x00000000 = none := by
  decide

/-- R60: the notation of 95_test_vectors.md. -/
theorem test_assembly :
    asmOf (.lclass 258) = "LCLASS 258" ∧ asmOf .init = "INIT" ∧
    asmResponse { err := 0, data := 0x811D0102 } = "ok 0x811D0102" ∧
    asmResponse { err := 2, data := 0 } = "DomainError" := by decide

/-- R61. -/
theorem test_pseudo :
    expandPseudo (.profile [1, 1]) = [.clrp, .pushlen 1, .pushlen 1] ∧
    pseudoResult (.lengthBase 115) 0x89180073 = some 115 ∧
    pseudoResult (.lengthExtraBits 115) 0x89180073 = some 4 ∧
    pseudoResult (.lengthCode 115) 0x89180073 = some 280 := by decide

/-! ## States -/

/-- The last response and nothing else. -/
def answerOf (o : Host.Outcome State Fault Refusal) : Option Response :=
  match o with
  | .next s => s.responses.getLast?
  | .fault _ => none
  | .refused _ => none

/-- A profile in the buffer, `BUILD` not run. -/
def profiled (lens : List (BitVec 4)) : State :=
  { State.reset with
    nsym := BitVec.ofNat 16 lens.length, mem := { Memory.empty with len := numberFrom 0 lens } }

/-- The profile of section 2 of 40_builder.md, its codes in `CODE` (95_test_vectors.md section 3). -/
def builtState : State :=
  { profiled [3, 3, 3, 3, 3, 2, 4, 4] with
    cv := true
    mem := { Memory.empty with
      len := numberFrom 0 [3, 3, 3, 3, 3, 2, 4, 4]
      code := numberFrom 0 [⟨2, 3⟩, ⟨6, 3⟩, ⟨1, 3⟩, ⟨5, 3⟩, ⟨3, 3⟩, ⟨0, 2⟩, ⟨7, 4⟩, ⟨15, 4⟩] } }

/-- A buffer with room for one more length, and a full one. -/
def roomForOne : State := { State.reset with nsym := 287 }
def fullState : State := { State.reset with nsym := 288 }

/-- The slot of `DTAB` in the default configuration: the class of the first distance with that index. -/
def defaultSlot (i : Nat) : ClassEntry :=
  if i < 256 then (classify defaultDspec (i + 1)).getD blankEntry
  else if i < 258 then blankEntry
  else (classify defaultDspec (128 * (i - 256) + 1)).getD blankEntry

/-- `DTAB` in the default configuration. -/
def defaultDtab : Table ClassEntry := (List.range 512).map (fun i => (i, defaultSlot i))

/-- A `READY` state of the default configuration. -/
def readyState : State :=
  { State.reset with
    mode := .ready
    mem := { Memory.empty with
      fixll := numberFrom 0 fixllEntries
      fixd := numberFrom 0 fixdEntries
      ltab := buildLtab defaultConfig.lspec []
      dtab := defaultDtab
      lxtra := buildXtra defaultConfig.lspec []
      dxtra := buildXtra defaultConfig.dspec [] } }

/-- R93: rows 16 and 17 of `DSPEC` changed, so that 383 and 384 share a slot and differ. -/
def unsoundConfig : Configuration :=
  { lspec := defaultLspec
    dspec := (defaultDspec.set 16 ⟨16, 7, 257, 383⟩).set 17 ⟨17, 8, 384, 512⟩
    nsymMax := 288, wf := by decide }

def failedState : State := { State.powerOn unsoundConfig with mode := .failed, err := 3 }

/-! ## Steps: one each, values from the spec -/

theorem test_stat_reset : answerOf (exec .stat State.reset) = some ⟨0, 0⟩ := by decide
theorem test_stat_failed : answerOf (exec .stat failedState) = some ⟨0, 0x0000000E⟩ := by decide
theorem test_clrp : answerOf (exec .clrp builtState) = some ⟨0, 0⟩ := by decide
theorem test_pushlen_full : answerOf (exec (.pushlen 3) fullState) = some ⟨5, 0⟩ := by decide
theorem test_pushlen_room : answerOf (exec (.pushlen 3) roomForOne) = some ⟨0, 0⟩ := by decide
theorem test_build_oversubscribed : answerOf (exec .build (profiled [1, 1, 1])) = some ⟨1, 0⟩ := by decide

/-- The codes of the example, from the spec's table and not from the model. -/
theorem test_build_example :
    build [3, 3, 3, 3, 3, 2, 4, 4] =
      .ok [⟨2, 3⟩, ⟨6, 3⟩, ⟨1, 3⟩, ⟨5, 3⟩, ⟨3, 3⟩, ⟨0, 2⟩, ⟨7, 4⟩, ⟨15, 4⟩] := by decide

theorem test_rdcode : answerOf (exec (.rdcode 1) builtState) = some ⟨0, 0x00030006⟩ := by decide
theorem test_rdcode_outside : answerOf (exec (.rdcode 8) builtState) = some ⟨2, 0⟩ := by decide
theorem test_lclass : (classify defaultLspec 257).map packClass = some 0x8B1C00E3 := by decide
theorem test_lclass_uninit : answerOf (exec (.lclass 2) State.reset) = some ⟨5, 0⟩ := by decide
theorem test_dclass : packClass (defaultSlot (distanceIndex 32768)) = 0x9A1D6001 := by decide
theorem test_lxb : answerOf (exec (.lxb 284) readyState) = some ⟨0, 5⟩ := by decide
theorem test_dxb : answerOf (exec (.dxb 29) readyState) = some ⟨0, 13⟩ := by decide
theorem test_dxb_outside : answerOf (exec (.dxb 30) readyState) = some ⟨2, 0⟩ := by decide
theorem test_didx_low : answerOf (exec (.didx 256) State.reset) = some ⟨0, 0xFF⟩ := by decide
theorem test_didx_high : answerOf (exec (.didx 257) State.reset) = some ⟨0, 0x102⟩ := by decide
theorem test_rdltab_outside : answerOf (exec (.rdltab 259) readyState) = some ⟨2, 0⟩ := by decide
theorem test_rddtab_outside : answerOf (exec (.rddtab 512) readyState) = some ⟨2, 0⟩ := by decide
theorem test_rdfixl_outside : answerOf (exec (.rdfixl 288) readyState) = some ⟨2, 0⟩ := by decide
theorem test_rdfixd_outside : answerOf (exec (.rdfixd 32) readyState) = some ⟨2, 0⟩ := by decide
theorem test_init_twice : answerOf (exec .init readyState) = some ⟨5, 0⟩ := by decide

/-- R90: the first distance whose class differs from its slot's stops the loop, the slot keeping the
earlier class (95_test_vectors.md, program P5). -/
theorem test_dtab_conflict :
    fillDtab unsoundConfig.dspec [257, 383, 384, 385] [] = .error [(258, ⟨true, 7, 16, 257⟩)] := by
  decide

theorem test_withFetchWord :
    answerOf (step (State.reset.withFetchWord 32 0x24000101)) = some ⟨0, 0x102⟩ := by decide

theorem test_reset_input :
    (match step { builtState with inputs := [.reset] } with
      | .next t => decide (t.cv = false ∧ t.nsym = 0 ∧ t.mem = Memory.empty)
      | _ => false) = true := by decide

/-! ## Witnesses: the facts about the states above -/

theorem distanceIndex_of_le {d : Nat} (h : d ≤ 256) : distanceIndex d = d - 1 := by
  simp [distanceIndex, h]

theorem distanceIndex_of_gt {d : Nat} (h : 256 < d) : distanceIndex d = 256 + (d - 1) / 128 := by
  rw [distanceIndex, if_neg (by simpa using h)]
  simp [Nat.shiftRight_eq_div_pow]

theorem distanceInDomain_iff (d : Nat) : distanceInDomain d = true ↔ 1 ≤ d ∧ d ≤ 32768 := by
  simp [distanceInDomain]

theorem lookup_defaultDtab {i : Nat} (h : i < 512) : defaultDtab.lookup i = some (defaultSlot i) :=
  lookup_range_map defaultSlot h

theorem defaultDtab_class {d : Nat} (h1 : 1 ≤ d) (h2 : d ≤ 32768) :
    defaultDtab.lookup (distanceIndex d) = classify defaultDspec d := by
  obtain ⟨r, _, hr, _⟩ := classify_distance defaultConfig h1 h2
  have hr : classify defaultDspec d = some (rowEntry r) := hr
  rw [lookup_defaultDtab (distanceIndex_lt h2)]
  by_cases h : d ≤ 256
  · rw [distanceIndex_of_le h, defaultSlot, if_pos (by omega), Nat.sub_add_cancel h1, hr]
    rfl
  · have hb := classify_block (k := (d - 1) / 128) (d := d) (by omega) (by omega) (by omega)
    rw [distanceIndex_of_gt (by omega), defaultSlot, if_neg (by omega), if_neg (by omega),
      Nat.add_sub_cancel_left, ← hb, hr]
    rfl

theorem below_defaultDtab : defaultDtab.below 512 := by
  intro p hp
  obtain ⟨j, hj, rfl⟩ := List.mem_map.1 hp
  exact List.mem_range.1 hj

/-- Any memory with these six tables holds the fixed tables of the default configuration. -/
theorem fixedTables_of_eqs {m : Memory} (h1 : m.fixll = numberFrom 0 fixllEntries)
    (h2 : m.fixd = numberFrom 0 fixdEntries) (h3 : m.ltab = buildLtab defaultConfig.lspec [])
    (h4 : m.dtab = defaultDtab) (h5 : m.lxtra = buildXtra defaultConfig.lspec [])
    (h6 : m.dxtra = buildXtra defaultConfig.dspec []) : FixedTables defaultConfig m where
  fixll := ⟨fixllEntries, build_profileLL_entries, fun i _ => by
    rw [h1, lookup_numberFrom _ (Nat.zero_le i), Nat.sub_zero]⟩
  fixd := ⟨fixdEntries, build_profileD_entries, fun i _ => by
    rw [h2, lookup_numberFrom _ (Nat.zero_le i), Nat.sub_zero]⟩
  ltab := fun L _ _ => by rw [h3, lookup_buildLtab, if_neg (by omega), if_pos (by omega)]
  ltabBlank := fun L h => by rw [h3, lookup_buildLtab, if_pos h]
  dtab := fun d ha hb => by rw [h4]; exact defaultDtab_class ha hb
  dtabBlank := by
    rintro i (rfl | rfl)
    · rw [h4]; exact lookup_defaultDtab (by omega)
    · rw [h4]; exact lookup_defaultDtab (by omega)
  lxtra := fun i hi => by
    rw [h5, lookup_buildXtra, if_pos (by rw [defaultConfig.lspec_wf.1]; exact hi)]
  dxtra := fun i hi => by
    rw [h6, lookup_buildXtra, if_pos (by rw [defaultConfig.dspec_wf.1]; exact hi)]

theorem readyState_fixedTables : FixedTables readyState.cfg readyState.mem :=
  fixedTables_of_eqs (by simp only [readyState]) (by simp only [readyState])
    (by simp only [readyState]) (by simp only [readyState]) (by simp only [readyState])
    (by simp only [readyState])

theorem below_numberFrom {α : Type} (xs : List α) {n : Nat} (h : xs.length ≤ n) :
    Table.below n (numberFrom 0 xs) := by
  intro p hp
  have := (mem_numberFrom hp).2.1
  omega

theorem below_nil {α : Type} (n : Nat) : Table.below n ([] : Table α) := fun _ hp => nomatch hp

/-- Memory with these tables, and with nothing in the builder's, is in canonical form. -/
theorem canonical_of_eqs {m : Memory} (h1 : m.fixll = numberFrom 0 fixllEntries)
    (h2 : m.fixd = numberFrom 0 fixdEntries) (h3 : m.ltab = buildLtab defaultConfig.lspec [])
    (h4 : m.dtab = defaultDtab) (h5 : m.lxtra = buildXtra defaultConfig.lspec [])
    (h6 : m.dxtra = buildXtra defaultConfig.dspec []) (h7 : m.len = []) (h8 : m.code = []) :
    m.wf ∧ m.InSpaces 288 := by
  have b1 := below_numberFrom fixllEntries (Nat.le_of_eq fixllEntries_length)
  have b2 := below_numberFrom fixdEntries (Nat.le_of_eq fixdEntries_length)
  have b3 := below_buildLtab defaultConfig (below_nil 259)
  have b5 : Table.below 29 (buildXtra defaultConfig.lspec []) :=
    below_buildXtra (below_nil 29) (Nat.le_of_eq defaultConfig.lspec_wf.1)
  have b6 : Table.below 30 (buildXtra defaultConfig.dspec []) :=
    below_buildXtra (below_nil 30) (Nat.le_of_eq defaultConfig.dspec_wf.1)
  have w3 : Table.wf (buildLtab defaultConfig.lspec []) :=
    wf_putAll (wf_putAll List.Pairwise.nil _) _
  have w5 : Table.wf (buildXtra defaultConfig.lspec []) := wf_putAll List.Pairwise.nil _
  have w6 : Table.wf (buildXtra defaultConfig.dspec []) := wf_putAll List.Pairwise.nil _
  have w4 : Table.wf defaultDtab := wf_range_map _ _
  rw [← h1] at b1
  rw [← h2] at b2
  rw [← h3] at b3 w3
  rw [← h5] at b5 w5
  rw [← h6] at b6 w6
  rw [← h4] at w4
  refine ⟨⟨?_, ?_, ?_, ?_, w3, w4, w5, w6⟩, ⟨?_, ?_, b1, b2, b3, ?_, b5, b6⟩⟩
  · rw [h7]; exact List.Pairwise.nil
  · rw [h8]; exact List.Pairwise.nil
  · rw [h1]; exact wf_numberFrom _ _
  · rw [h2]; exact wf_numberFrom _ _
  · rw [h7]; exact below_nil _
  · rw [h8]; exact below_nil _
  · rw [h4]; exact below_defaultDtab

theorem readyState_memory : readyState.mem.wf ∧ readyState.mem.InSpaces 288 :=
  canonical_of_eqs (by simp only [readyState]) (by simp only [readyState])
    (by simp only [readyState]) (by simp only [readyState]) (by simp only [readyState])
    (by simp only [readyState]) rfl rfl

theorem readyState_inv : readyState.Inv where
  canonical := readyState_memory.1
  inSpaces := readyState_memory.2
  errExactlyFailed := by decide
  errValue := fun h => nomatch h
  nsymBound := by decide
  profileWritten := fun _ hi => absurd hi (Nat.not_lt_zero _)
  codeValid := fun h => nomatch h
  fixedTables := fun _ => readyState_fixedTables

theorem builtState_profile : builtState.profile = [3, 3, 3, 3, 3, 2, 4, 4] := by decide

theorem builtState_inv : builtState.Inv where
  canonical := by decide
  inSpaces :=
    { len := below_numberFrom _ (by decide)
      code := below_numberFrom _ (by decide)
      fixll := below_nil _
      fixd := below_nil _
      ltab := below_nil _
      dtab := below_nil _
      lxtra := below_nil _
      dxtra := below_nil _ }
  errExactlyFailed := by decide
  errValue := fun h => nomatch h
  nsymBound := by decide
  profileWritten := by decide
  codeValid := fun _ => ⟨_, (congrArg build builtState_profile).trans test_build_example, by decide⟩
  fixedTables := fun h => nomatch h

theorem unsoundConfig_not_sound : ¬ CompactionSound unsoundConfig.dspec := fun h =>
  absurd (h 383 384 (by decide) (by decide) (by decide)) (by decide)

theorem defaultDspec_sound : CompactionSound defaultDspec := by
  intro d₁ d₂ h₁ h₂ h
  rw [distanceInDomain_iff] at h₁ h₂
  rw [← defaultDtab_class h₁.1 h₁.2, ← defaultDtab_class h₂.1 h₂.2, h]

/-- `BuildDTAB` under the unsound configuration raises. -/
theorem unsoundConfig_raises (t : Table ClassEntry) :
    ∃ u, buildDtab unsoundConfig.dspec t = .error u := by
  cases hb : buildDtab unsoundConfig.dspec t with
  | error u => exact ⟨u, rfl⟩
  | ok u =>
    have hk := fillDtab_ok hb
    have h1 := hk.1 383 (List.mem_range'_1.2 (by decide)) ⟨true, 7, 16, 257⟩ (by decide)
    have h2 := hk.1 384 (List.mem_range'_1.2 (by decide)) ⟨true, 8, 17, 384⟩ (by decide)
    have h3 : distanceIndex 383 = distanceIndex 384 := by decide
    rw [h3, h2] at h1
    exact absurd h1 (by decide)

/-- `BuildDTAB` under the default configuration ends. -/
theorem defaultConfig_builds (t : Table ClassEntry) :
    ∃ u, buildDtab defaultDspec t = .ok u := by
  cases hb : buildDtab defaultDspec t with
  | ok u => exact ⟨u, rfl⟩
  | error u =>
    have hmem : ∀ d ∈ List.range' 1 32768, 1 ≤ d ∧ d ≤ 32768 := fun d hd => by
      rw [List.mem_range'_1] at hd
      omega
    obtain ⟨a, ha, b, hb', h1, h2⟩ :=
      fillDtab_error (fun d hd => (hmem d hd).2) (filled_blank defaultDspec t) hb
    exact absurd (defaultDspec_sound a b
      ((distanceInDomain_iff a).2 (hmem a (by simpa using ha)))
      ((distanceInDomain_iff b).2 (hmem b hb')) h1) h2

theorem init_runs {s : State} (h : s.mode = .uninit) : exec .init s = .next s.runInit := by
  simp only [exec, execInit, State.isUninit, h, decide_true, checked_true_true]

/-- `INIT` under the unsound configuration ends in `FAILED` with response 3 (R105, R118). -/
theorem init_fails_when_unsound : ∃ t,
    exec .init (State.powerOn unsoundConfig) = .next t ∧ t.mode = .failed ∧ t.err = 3 ∧
    t.responses = (State.powerOn unsoundConfig).responses ++ [{ err := 3, data := 0 }] := by
  refine ⟨(State.powerOn unsoundConfig).runInit, init_runs rfl, ?_⟩
  rcases runInit_cases (State.powerOn unsoundConfig) with ⟨u, hb, _⟩ | ⟨u, _, h⟩
  · obtain ⟨v, hv⟩ := unsoundConfig_raises (State.powerOn unsoundConfig).mem.dtab
    exact absurd (hb.symm.trans hv) (by simp)
  · rw [h]; exact ⟨rfl, rfl, rfl⟩

/-- `INIT` under the default configuration ends in `READY` (R105, R106). -/
theorem init_succeeds_by_default : ∃ t,
    exec .init State.reset = .next t ∧ t.mode = .ready ∧
    t.responses = State.reset.responses ++ [{ err := 0, data := 0 }] := by
  refine ⟨State.reset.runInit, init_runs rfl, ?_⟩
  rcases runInit_cases State.reset with ⟨u, _, h⟩ | ⟨u, hb, _⟩
  · rw [h]; exact ⟨rfl, rfl⟩
  · obtain ⟨v, hv⟩ := defaultConfig_builds State.reset.mem.dtab
    exact absurd (hb.symm.trans hv) (by simp)

/-! ## Witnesses: one theorem for the hypotheses of each statement

For each clause an input at the edge of its range. The statements not named here have no hypotheses. -/

def isCommand (w : Word) : Bool := match decode w with
  | .ok _ => true
  | .error _ => false

/-- `FormatN`, `FormatL`, `FormatA`: a word with each opcode, legal, with `rsv` not 0, and with `arg` not
0 or too large. -/
theorem witness_formats : ∀ row ∈ opcodeTable,
    opField row.matchBits = row.op ∧ rsvField row.matchBits = 0 ∧ argField row.matchBits = 0 ∧
    opField (row.matchBits ||| 0x00800000) = row.op ∧ rsvField (row.matchBits ||| 0x00800000) ≠ 0 ∧
    opField (row.matchBits ||| 0x00000010) = row.op ∧ argField (row.matchBits ||| 0x00000010) = 16 ∧
    argField (row.matchBits ||| 0x0000000F) = 15 := by decide

theorem witness_DecodingAnEncodedCommandGivesItBack :
    Instr.wellFormed (.pushlen 15) = true ∧ Instr.wellFormed (.rddtab 65535) = true := by decide

theorem witness_EncodingADecodedWordGivesItBack : decode 0x1100000F = .ok (.pushlen 15) := by decide

/-- One word of each kind that R57 lists. -/
theorem witness_EveryOtherWordIsIllegalAndChangesNothing :
    (∀ row ∈ opcodeTable, (0x00000000 : Word) &&& row.mask ≠ row.matchBits) ∧
    (∀ row ∈ opcodeTable, (0x20010000 : Word) &&& row.mask ≠ row.matchBits) ∧
    (∀ row ∈ opcodeTable, (0x01000001 : Word) &&& row.mask ≠ row.matchBits) ∧
    (∀ row ∈ opcodeTable, (0x11000010 : Word) &&& row.mask ≠ row.matchBits) ∧
    (State.reset.present [0]).inputs = .command 0 :: [] :=
  ⟨by decide, by decide, by decide, by decide, rfl⟩

theorem witness_AStepRunsTheDecodedCommand :
    (State.reset.present [0x02000000]).inputs = .command 0x02000000 :: [] ∧
    decode 0x02000000 = .ok .stat := ⟨rfl, by decide⟩

theorem witness_AnIdleBlockWaitsUnchanged : State.reset.inputs = [] := rfl

theorem witness_EveryWordGetsExactlyOneResponse :
    (State.reset.present [0xFFFFFFFF, 0]).inputs = .command 0xFFFFFFFF :: [.command 0] := rfl

theorem witness_ARunAnswersEveryWordAndNeverStops : builtState.inputs = [] := rfl

theorem witness_ResetPutsTheStatusRegistersAtTheirResetValues :
    State.inputs { builtState with inputs := [.reset] } = .reset :: [] := rfl

theorem witness_NothingChangesTheConfiguration : ∃ t, step (State.reset.present [0x10000000]) = .next t :=
  ⟨_, rfl⟩

/-- A word, a domain error, a protocol error, `BUILD`'s condition and `INIT`'s. -/
theorem witness_AConditionChangesOnlyWhatItsRowSays :
    (∃ e, decode 0x00000000 = .error e) ∧
    (∃ t, exec (.didx 32769) State.reset = .next t ∧
      t.responses = State.reset.responses ++ [⟨2, 0⟩]) ∧
    (∃ t, exec (.rdcode 0) State.reset = .next t ∧
      t.responses = State.reset.responses ++ [⟨5, 0⟩]) ∧
    (∃ t, exec .build (profiled [1, 1, 1]) = .next t ∧
      t.responses = (profiled [1, 1, 1]).responses ++ [⟨1, 0⟩]) ∧
    (∃ t, exec .init (State.powerOn unsoundConfig) = .next t ∧
      t.responses = (State.powerOn unsoundConfig).responses ++ [⟨3, 0⟩]) := by
  refine ⟨⟨_, rfl⟩, ⟨_, rfl, by decide⟩, ⟨_, rfl, by decide⟩, ⟨_, rfl, by decide⟩, ?_⟩
  obtain ⟨t, h, _, _, hr⟩ := init_fails_when_unsound
  exact ⟨t, h, hr⟩

theorem witness_TheStateIsCheckedBeforeTheOperand :
    readsFixedTable (.lclass 2) = true ∧ State.reset.mode ≠ .ready ∧ State.reset.cv = false ∧
    ∃ e, decode 0x20010002 = .error e := ⟨rfl, by decide, rfl, _, rfl⟩

theorem witness_AReadHasNoSideEffect : isRead (.rdcode 8) = true ∧ isRead .stat = true := by decide

/-- Two states that the builder's commands tell apart and the fixed tables do not. -/
theorem witness_FixedTableReadsDoNotSeeTheBuilder :
    readsFixedTable (.dclass 32768) = true ∧
    readyState.mode = State.mode { readyState with nsym := 8, cv := true } ∧
    readyState.resets = State.resets { readyState with nsym := 8, cv := true } ∧
    SameFixedTables readyState.mem (State.mem { readyState with nsym := 8, cv := true }) :=
  ⟨rfl, rfl, rfl, rfl, rfl, rfl, rfl, rfl, rfl⟩

theorem witness_TheWorkingRegistersCannotBeObserved :
    ∃ t, step (builtState.present [0x12000000]) = .next t :=
  ⟨_, rfl⟩

theorem witness_ReversalIsWithinTheCodesOwnLength :
    1 ≤ 15 ∧ 15 ≤ 15 ∧ 32767 < 2 ^ 15 ∧ 1 ≤ 1 ∧ 1 < 2 ^ 1 ∧ 1 < 2 := by decide

theorem witness_BuildAcceptsExactlyTheProfilesWithinKraft :
    (∀ l ∈ ([0, 0] : List (BitVec 4)), l = 0) ∧ k15 [1, 1] = 32768 ∧ k15 [1, 1, 15] = 32769 := by
  decide

theorem witness_KraftAndFirstCodesHaveTheirClosedForms :
    maxLength [1, 15] = 15 ∧ (1 ≤ 15 ∧ 15 ≤ maxLength [1, 15]) ∧ (15 : BitVec 4) ≠ 0 := by decide

/-- A profile that fills the code space exactly, and one that exceeds it by the least amount. -/
theorem witness_CodesFitTheirLengthsAndNothingOverflows :
    k15 [1, 2, 2] ≤ 32768 ∧ (1 ≤ 2 ∧ 2 ≤ maxLength [1, 2, 2]) ∧
    ([1, 2, 2] : List (BitVec 4))[2]? = some 2 ∧ (2 : BitVec 4) ≠ 0 ∧ 32768 < k15 [1, 1, 15] := by
  decide

theorem witness_TheDetectionMethodsAndTheLoopBoundsAgree :
    k15 [15] ≤ 32768 ∧ 1 ≤ maxLength [15] ∧ maxLength [0] = 0 ∧ maxLength [] = 0 := by decide

theorem witness_BuildKeepsLengthsAndMarksUnusedSymbols :
    build [0, 1] = .ok [sentinel, ⟨0, 1⟩] ∧ ([sentinel, ⟨0, 1⟩] : List CodeEntry)[0]? = some sentinel ∧
    (∀ l ∈ ([0, 0] : List (BitVec 4)), l = 0) ∧ (15 : BitVec 4) ≠ 0 := by decide

/-- Two used symbols of one length and two of different lengths. -/
theorem witness_BuildAssignsCodesInCanonicalOrder :
    build [1, 2, 2] = .ok [⟨0, 1⟩, ⟨1, 2⟩, ⟨3, 2⟩] ∧
    ([⟨0, 1⟩, ⟨1, 2⟩, ⟨3, 2⟩] : List CodeEntry)[0]? = some ⟨0, 1⟩ ∧
    ([⟨0, 1⟩, ⟨1, 2⟩, ⟨3, 2⟩] : List CodeEntry)[1]? = some ⟨1, 2⟩ ∧
    ([⟨0, 1⟩, ⟨1, 2⟩, ⟨3, 2⟩] : List CodeEntry)[2]? = some ⟨3, 2⟩ := by decide

theorem witness_BuiltCodesArePrefixFree :
    build [1, 2, 2] = .ok [⟨0, 1⟩, ⟨1, 2⟩, ⟨3, 2⟩] ∧ (0 : Nat) ≠ 2 ∧
    (CodeEntry.len ⟨0, 1⟩) ≠ 0 ∧ (CodeEntry.len ⟨0, 1⟩).toNat ≤ (CodeEntry.len ⟨3, 2⟩).toNat := by
  decide

/-- Room for exactly one length, and none. -/
theorem witness_PushlenAppendsOneLengthOrRejects :
    15 ≤ 15 ∧ roomForOne.nsym.toNat < roomForOne.cfg.nsymMax ∧ roomForOne.nsym.toNat + 1 = 288 ∧
    fullState.cfg.nsymMax ≤ fullState.nsym.toNat := by decide

theorem witness_BuildCommandBuildsTheCodeOrClearsCv :
    k15 (profiled [1, 1]).profile ≤ 32768 ∧ 0 < (profiled [1, 1]).nsym.toNat ∧
    (k15 State.reset.profile ≤ 32768 ∧ State.reset.nsym = 0) ∧
    (∀ l ∈ (profiled [0, 0]).profile, l = 0) ∧ 32768 < k15 (profiled [1, 1, 15]).profile := by decide

theorem witness_RdcodeReadsOneEntryOfAValidResult :
    State.reset.cv = false ∧ builtState.Inv ∧ builtState.cv = true ∧
    builtState.profile = [3, 3, 3, 3, 3, 2, 4, 4] ∧ 7 < builtState.nsym.toNat ∧
    builtState.nsym.toNat ≤ 8 :=
  ⟨rfl, builtState_inv, rfl, builtState_profile, by decide, by decide⟩

/-- And an unused symbol in a built profile. -/
def builtUnused : State :=
  { profiled [0, 1] with
    cv := true
    mem := { Memory.empty with len := numberFrom 0 [0, 1], code := numberFrom 0 [sentinel, ⟨0, 1⟩] } }

theorem witness_RdcodeOfAnUnusedSymbol :
    builtUnused.Inv ∧ builtUnused.cv = true ∧ 0 < builtUnused.nsym.toNat ∧ builtUnused.readLen 0 = 0 :=
  ⟨{ canonical := by decide
     inSpaces :=
      { len := below_numberFrom _ (by decide)
        code := below_numberFrom _ (by decide)
        fixll := below_nil _
        fixd := below_nil _
        ltab := below_nil _
        dtab := below_nil _
        lxtra := below_nil _
        dxtra := below_nil _ }
     errExactlyFailed := by decide
     errValue := fun h => nomatch h
     nsymBound := by decide
     profileWritten := by decide
     codeValid := fun _ => ⟨[sentinel, ⟨0, 1⟩], by decide, by decide⟩
     fixedTables := fun h => nomatch h }, rfl, by decide, by decide⟩

/-- The edges of the ranges of R86 and R87. -/
theorem witness_TheDistanceIndexHasItsFormulaAndItsRange :
    distanceIndex 1 = 0 ∧ distanceIndex 256 = 255 ∧ distanceIndex 257 = 258 ∧
    distanceIndex 384 = 258 ∧ distanceIndex 385 = 259 ∧ distanceIndex 32640 = 510 ∧
    distanceIndex 32641 = 511 ∧ distanceIndex 32768 = 511 := by decide

theorem witness_EveryValueOfADomainLiesInExactlyOneRow :
    (defaultLspec = defaultConfig.lspec ∧ 3 ≤ 258 ∧ 258 ≤ 258) ∧
    (unsoundConfig.dspec = unsoundConfig.dspec ∧ 1 ≤ 32768 ∧ 32768 ≤ 32768) := by decide

theorem witness_TheDefaultTablesHaveTheirProperties :
    (∃ r, defaultLspec[28]? = some r) ∧ ⟨16, 7, 257, 384⟩ ∈ defaultDspec ∧
    256 < (SpecRow.start ⟨16, 7, 257, 384⟩).toNat := ⟨⟨_, rfl⟩, by decide, by decide⟩

/-- A configuration of each kind, and two distances of one index that classify differently. -/
theorem witness_TheConsistencyCheckFiresExactlyOnAnUnsoundTable :
    CompactionSound defaultConfig.dspec ∧ ¬ CompactionSound unsoundConfig.dspec ∧
    (List.range' 1 32768).Perm (List.range' 1 32768) ∧
    distanceIndex 383 = distanceIndex 384 ∧
    classify unsoundConfig.dspec 383 ≠ classify unsoundConfig.dspec 384 ∧
    (∃ u, buildDtab defaultConfig.dspec [] = .ok u) :=
  ⟨defaultDspec_sound, unsoundConfig_not_sound, List.Perm.refl _, by decide, by decide,
    defaultConfig_builds []⟩

theorem witness_CompactionIsSoundByDefaultAndNotForMisalignedRows :
    ⟨17, 8, 384, 512⟩ ∈ unsoundConfig.dspec ∧ 256 < (SpecRow.start ⟨17, 8, 384, 512⟩).toNat ∧
    ((SpecRow.start ⟨17, 8, 384, 512⟩).toNat - 1) % 128 ≠ 0 := by decide

theorem witness_PackedEntriesHaveTheirFieldsInPlace :
    build [1] = .ok [⟨0, 1⟩] ∧ (⟨0, 1⟩ : CodeEntry) ∈ ([⟨0, 1⟩] : List CodeEntry) := by decide

/-- For `LCLASS`, `DCLASS`, `LXB`, `DXB`, `RDLTAB`, `RDDTAB`, `RDFIXL`, `RDFIXD`: a state that is not
ready, and one that is and holds its fixed tables; the operands at the edges are literals of the
statements. -/
theorem witness_readersOfFixedTables :
    State.reset.mode ≠ .ready ∧ failedState.mode ≠ .ready ∧ DefaultReady readyState ∧
    readyState.mode = .ready ∧ FixedTables readyState.cfg readyState.mem :=
  ⟨by decide, by decide, ⟨rfl, rfl, readyState_fixedTables⟩, rfl, readyState_fixedTables⟩

/-- And operands at the edges of each reader's range. -/
theorem witness_operandEdges :
    lengthInDomain 2 = false ∧ lengthInDomain 3 = true ∧ lengthInDomain 258 = true ∧
    lengthInDomain 259 = false ∧ distanceInDomain 0 = false ∧ distanceInDomain 1 = true ∧
    distanceInDomain 32768 = true ∧ distanceInDomain 32769 = false ∧
    lengthCodeInRange 256 = false ∧ lengthCodeInRange 257 = true ∧ lengthCodeInRange 285 = true ∧
    lengthCodeInRange 286 = false ∧ distanceCodeInRange 29 = true ∧ distanceCodeInRange 30 = false ∧
    ltabIndexInRange 258 = true ∧ ltabIndexInRange 259 = false ∧ dtabIndexInRange 511 = true ∧
    dtabIndexInRange 512 = false ∧ fixllSymbolInRange 287 = true ∧ fixllSymbolInRange 288 = false ∧
    fixdSymbolInRange 31 = true ∧ fixdSymbolInRange 32 = false := by decide

theorem witness_InitBuildsTheFixedTablesOnceOrFails :
    readyState.mode ≠ .uninit ∧ failedState.mode ≠ .uninit ∧
    (State.reset.mode = .uninit ∧ CompactionSound State.reset.cfg.dspec) ∧
    ((State.powerOn unsoundConfig).mode = .uninit ∧
      ¬ CompactionSound (State.powerOn unsoundConfig).cfg.dspec) :=
  ⟨by decide, by decide, ⟨rfl, defaultDspec_sound⟩, rfl, unsoundConfig_not_sound⟩

theorem witness_InitFailsOnlyWithTableInconsistency :
    State.reset.mode = .uninit ∧ State.reset.cfg.dspec = defaultDspec ∧
    (∃ t, exec .init State.reset = .next t) ∧
    (State.powerOn unsoundConfig).cfg = unsoundConfig ∧
    ∃ t, exec .init (State.powerOn unsoundConfig) = .next t :=
  ⟨rfl, rfl, ⟨_, init_runs rfl⟩, rfl, ⟨_, init_runs rfl⟩⟩

theorem witness_ReadyMeansBuiltAndNeverChanged :
    (State.reset.mode = .uninit ∧ ∃ t, exec .init State.reset = .next t ∧
      t.responses = State.reset.responses ++ [{ err := 0, data := 0 }]) ∧
    (readyState.mode = .ready ∧ ∃ t, exec .clrp readyState = .next t) := by
  obtain ⟨t, h, _, hr⟩ := init_succeeds_by_default
  exact ⟨⟨rfl, t, h, hr⟩, rfl, _, rfl⟩

theorem witness_StatReadsTheStatusWordInEveryMode :
    (failedState.mode = .failed ∧ failedState.err = 3) ∧
    (State.mode { readyState with nsym := 8, cv := true } = .ready ∧ readyState.err = 0) :=
  ⟨⟨rfl, rfl⟩, rfl, rfl⟩

theorem witness_EveryStepKeepsTheInvariant :
    readyState.Inv ∧ builtState.Inv ∧ ∃ t, step readyState = .next t :=
  ⟨readyState_inv, builtState_inv, _, rfl⟩

theorem witness_ReachableStatesMeetTheInvariant :
    (∃ t, step readyState = .next t) ∧ readyState.mode ≠ .uninit ∧
    ∀ rest, readyState.inputs ≠ .reset :: rest := ⟨⟨_, rfl⟩, by decide, fun _ h => nomatch h⟩

/-- A state that meets the invariant for each clause, and each reader answering `ok` in one at the edge
of its range. -/
theorem witness_NoAcceptedReadReachesAnUnwrittenEntry :
    builtState.Inv ∧ readyState.Inv ∧
    (∃ d, exec (.rdcode 7) builtState = .next (builtState.answered 0 d)) ∧
    (∃ d, exec (.rdfixl 287) readyState = .next (readyState.answered 0 d)) ∧
    (∃ d, exec (.rdfixd 31) readyState = .next (readyState.answered 0 d)) ∧
    (∃ d, exec (.lclass 258) readyState = .next (readyState.answered 0 d)) ∧
    (∃ d, exec (.dclass 32768) readyState = .next (readyState.answered 0 d)) ∧
    (∃ d, exec (.lxb 285) readyState = .next (readyState.answered 0 d)) ∧
    (∃ d, exec (.dxb 29) readyState = .next (readyState.answered 0 d)) ∧
    (∃ d, exec (.rdltab 0) readyState = .next (readyState.answered 0 d)) ∧
    (∃ d, exec (.rddtab 511) readyState = .next (readyState.answered 0 d)) ∧
    7 < builtState.nsym.toNat :=
  ⟨builtState_inv, readyState_inv, ⟨_, rfl⟩, ⟨_, rfl⟩, ⟨_, rfl⟩, ⟨_, rfl⟩, ⟨_, rfl⟩, ⟨_, rfl⟩,
    ⟨_, rfl⟩, ⟨_, rfl⟩, ⟨_, rfl⟩, by decide⟩

/-- Equal memories meet the premises, and by the statement no others do. -/
theorem witness_CanonicalTablesAreDeterminedByTheirReads :
    ∃ m n : Memory, m.wf ∧ n.wf ∧ m.len ≠ [] ∧
    (∀ i, m.len.lookup i = n.len.lookup i) ∧ (∀ i, m.code.lookup i = n.code.lookup i) ∧
    (∀ i, m.fixll.lookup i = n.fixll.lookup i) ∧ (∀ i, m.fixd.lookup i = n.fixd.lookup i) ∧
    (∀ i, m.ltab.lookup i = n.ltab.lookup i) ∧ (∀ i, m.dtab.lookup i = n.dtab.lookup i) ∧
    (∀ i, m.lxtra.lookup i = n.lxtra.lookup i) ∧ (∀ i, m.dxtra.lookup i = n.dxtra.lookup i) :=
  ⟨builtState.mem, builtState.mem, builtState_inv.canonical, builtState_inv.canonical, by decide,
    fun _ => rfl, fun _ => rfl, fun _ => rfl, fun _ => rfl, fun _ => rfl, fun _ => rfl, fun _ => rfl,
    fun _ => rfl⟩

end Sys2Proof.Machine.Tests
end

section
/-! The invariant of R33 along every run: what each command and each step can do, that every such effect
keeps the invariant, and that reset establishes it (O57). -/

namespace Sys2Proof.Machine

/-! ## What a command can do -/

/-- R40: a read only answers. -/
theorem exec_read : ∀ {i : Instr} (s : State), isRead i = true →
    ∃ r, exec i s = .next { s with responses := s.responses ++ [r] }
  | .stat, _, _ => ⟨_, rfl⟩
  | .rdcode _, s, _ | .lclass _, s, _ | .dclass _, s, _ | .lxb _, s, _ | .dxb _, s, _
  | .didx _, s, _ | .rdltab _, s, _ | .rddtab _, s, _ | .rdfixl _, s, _ | .rdfixd _, s, _ =>
    (checked_respond s _ _ _).imp fun _ => congrArg Host.Outcome.next

/-- `s` after a `PUSHLEN` of the length `l` that found room (R74). -/
def State.pushed (s : State) (l : BitVec 4) : State :=
  State.respond { s.writeLen s.nsym.toNat l with nsym := s.nsym + 1, cv := false } 0

/-- Everything a command can do: answer only, or the work of one of the four commands that write, its
state condition being met (R54, R55). -/
theorem exec_cases (i : Instr) (s : State) :
    (∃ r, exec i s = .next { s with responses := s.responses ++ [r] }) ∨
    (i = .clrp ∧ exec i s = .next (State.respond { s with nsym := 0, cv := false } 0)) ∨
    (∃ len, i = .pushlen len ∧ s.nsym.toNat < s.cfg.nsymMax ∧
      exec i s = .next (s.pushed (BitVec.ofNat 4 len))) ∨
    (i = .build ∧ exec i s = .next s.runBuild) ∨
    (i = .init ∧ s.mode = .uninit ∧ exec i s = .next s.runInit) := by
  cases hi : isRead i with
  | true => exact .inl (exec_read s hi)
  | false =>
    cases i with
    | clrp => exact .inr (.inl ⟨rfl, rfl⟩)
    | build => exact .inr (.inr (.inr (.inl ⟨rfl, rfl⟩)))
    | pushlen len =>
      cases hroom : s.hasRoom with
      | true =>
        refine .inr (.inr (.inl ⟨len, rfl, of_decide_eq_true hroom, ?_⟩))
        simp only [exec, execPushlen, hroom, checked_true_true, State.pushed]
      | false => exact .inl ⟨_, by simp only [exec, execPushlen, hroom, checked_false]; rfl⟩
    | init =>
      cases hmode : s.isUninit with
      | true =>
        refine .inr (.inr (.inr (.inr ⟨rfl, of_decide_eq_true hmode, ?_⟩)))
        simp only [exec, execInit, hmode, checked_true_true]
      | false => exact .inl ⟨_, by simp only [exec, execInit, hmode, checked_false]; rfl⟩
    | _ => cases hi

/-! ## The fixed tables -/

/-- What the fixed tables hold does not depend on the builder's two tables. -/
theorem FixedTables.withBuilderTables {cfg : Configuration} {m : Memory} (h : FixedTables cfg m)
    (len : Table (BitVec 4)) (code : Table CodeEntry) :
    FixedTables cfg { m with len := len, code := code } :=
  ⟨h.fixll, h.fixd, h.ltab, h.ltabBlank, h.dtab, h.dtabBlank, h.lxtra, h.dxtra⟩

/-- No distance has the index 256 or 257 (R87). -/
theorem distanceIndex_ne_of_blank {d i : Nat} (h1 : 1 ≤ d) (hi : i = 256 ∨ i = 257) :
    distanceIndex d ≠ i := by
  simp only [distanceIndex, Config.didxSplit, Config.didxShift, Nat.shiftRight_eq_div_pow]
  split <;> omega

/-- A construction of `DTAB` that ends gives every distance its class (R90). -/
theorem lookup_buildDtab {cfg : Configuration} {t u : Table ClassEntry}
    (h : buildDtab cfg.dspec t = .ok u) {d : Nat} (h1 : 1 ≤ d) (h2 : d ≤ 32768) :
    u.lookup (distanceIndex d) = classify cfg.dspec d := by
  obtain ⟨r, -, hr, -⟩ := classify_distance cfg h1 h2
  have hd : d ∈ List.range' Config.distMin Config.distMax :=
    List.mem_range'_1.2 (by simp only [Config.distMin, Config.distMax]; omega)
  rw [hr, (fillDtab_ok h).1 d hd _ hr]

/-- A construction of `DTAB` that ends leaves the two slots of no distance blank (R91). -/
theorem lookup_buildDtab_blank {rows : List SpecRow} {t u : Table ClassEntry}
    (h : buildDtab rows t = .ok u) {i : Nat} (hi : i = 256 ∨ i = 257) :
    u.lookup i = some blankEntry := by
  rw [(fillDtab_ok h).2.1 i fun d hd => distanceIndex_ne_of_blank (List.mem_range'_1.1 hd).1 hi,
    lookup_blank, if_pos (by simp only [Config.dtabDepth]; omega)]

/-- R105, R107: a construction that ends leaves the six fixed tables built. -/
theorem fixedTables_constructedMem {cfg : Configuration} {m : Memory} {u : Table ClassEntry}
    (h : buildDtab cfg.dspec m.dtab = .ok u) :
    FixedTables cfg (constructedMem cfg m fixllEntries fixdEntries u) where
  fixll := ⟨_, build_profileLL_entries, fun i hi =>
    (lookup_putAll_numberFrom _ _ i).trans (if_pos (fixllEntries_length ▸ hi))⟩
  fixd := ⟨_, build_profileD_entries, fun i hi =>
    (lookup_putAll_numberFrom _ _ i).trans (if_pos (fixdEntries_length ▸ hi))⟩
  ltab := fun L h3 h258 =>
    (lookup_buildLtab cfg _ L).trans (by rw [if_neg (by omega), if_pos h258])
  ltabBlank := fun L hL => (lookup_buildLtab cfg _ L).trans (if_pos hL)
  dtab := fun _ h1 h2 => lookup_buildDtab h h1 h2
  dtabBlank := fun _ hi => lookup_buildDtab_blank h hi
  lxtra := fun i hi => (lookup_buildXtra _ _ i).trans (if_pos (cfg.lspec_wf.1.symm ▸ hi))
  dxtra := fun i hi => (lookup_buildXtra _ _ i).trans (if_pos (cfg.dspec_wf.1.symm ▸ hi))

/-! ## The invariant at reset -/

theorem inSpaces_empty (n : Nat) : Memory.empty.InSpaces n := by
  constructor <;> exact fun _ hp => nomatch hp

/-- A state at the reset values of R32 meets the invariant. -/
theorem inv_of_resetValues {s : State} (hmode : s.mode = .uninit) (herr : s.err = 0)
    (hnsym : s.nsym = 0) (hcv : s.cv = false) (hmem : s.mem = Memory.empty) : s.Inv where
  canonical := hmem ▸ wf_empty
  inSpaces := hmem ▸ inSpaces_empty _
  errExactlyFailed := by simp [hmode, herr]
  errValue := by simp [hmode]
  nsymBound := by simp [hnsym]
  profileWritten := by simp [hnsym]
  codeValid := by simp [hcv]
  fixedTables := by simp [hmode]

/-! ## Every effect keeps the invariant -/

namespace State.Inv

variable {s : State}

/-- The invariant says nothing of the working registers and of the host's side. -/
theorem withHostSide (h : s.Inv) (work : Work) (inputs : List HostInput)
    (responses : List Response) :
    State.Inv { s with work := work, inputs := inputs, responses := responses } :=
  ⟨h.canonical, h.inSpaces, h.errExactlyFailed, h.errValue, h.nsymBound, h.profileWritten,
    h.codeValid, h.fixedTables⟩

/-- `NSYM` may be lowered and `CV` cleared: nothing more is then asked of `LEN` and `CODE` (R73, R75). -/
theorem withoutCode (h : s.Inv) {n : BitVec 16} (hn : n.toNat ≤ s.nsym.toNat) :
    State.Inv { s with nsym := n, cv := false } where
  canonical := h.canonical
  inSpaces := h.inSpaces
  errExactlyFailed := h.errExactlyFailed
  errValue := h.errValue
  nsymBound := hn.trans h.nsymBound
  profileWritten := fun i hi => h.profileWritten i (Nat.lt_of_lt_of_le hi hn)
  codeValid := fun hcv => nomatch hcv
  fixedTables := h.fixedTables

/-- `PUSHLEN` with room (R74): `NSYM` does not wrap, and the new last length is written. -/
theorem pushed (h : s.Inv) (hroom : s.nsym.toNat < s.cfg.nsymMax) (l : BitVec 4) :
    (s.pushed l).Inv := by
  have hnsym : (s.pushed l).nsym.toNat = s.nsym.toNat + 1 := by
    have hmax := s.cfg.nsymMax_bounds.2
    show (s.nsym + 1).toNat = _
    bv_omega
  exact {
    canonical := wf_writeLen h.canonical _ _
    inSpaces := { h.inSpaces with len := below_put h.inSpaces.len hroom l }
    errExactlyFailed := h.errExactlyFailed
    errValue := h.errValue
    nsymBound := hnsym ▸ hroom
    profileWritten := fun i hi => by
      show ((s.mem.len.put s.nsym.toNat l).lookup i).isSome
      rw [lookup_put]
      split
      · rfl
      · exact h.profileWritten i (by omega)
    codeValid := fun hcv => nomatch hcv
    fixedTables := fun hr => (h.fixedTables hr).withBuilderTables _ _ }

/-- `CODE` written with the result of `Build` on the profile, and `CV` set (R75). -/
theorem withCode (h : s.Inv) {out : List CodeEntry} (hb : build s.profile = .ok out) :
    State.Inv { s.writeCodes out with cv := true } := by
  have hlen : out.length = s.nsym.toNat := (build_ok_length hb).trans (profile_length s)
  have hbelow : ∀ p ∈ numberFrom 0 out, p.1 < s.cfg.nsymMax := fun p hp => by
    have := (mem_numberFrom hp).2.1
    have := h.nsymBound
    omega
  exact {
    canonical := wf_writeCodes h.canonical out
    inSpaces := { h.inSpaces with code := below_putAll h.inSpaces.code hbelow }
    errExactlyFailed := h.errExactlyFailed
    errValue := h.errValue
    nsymBound := h.nsymBound
    profileWritten := h.profileWritten
    codeValid := fun _ => ⟨out, hb, fun i hi =>
      (lookup_putAll_numberFrom _ out i).trans (if_pos (hlen ▸ hi))⟩
    fixedTables := fun hr => (h.fixedTables hr).withBuilderTables _ _ }

theorem runBuild (h : s.Inv) : s.runBuild.Inv := by
  rcases runBuild_cases s with ⟨-, hs⟩ | ⟨out, hb, hs⟩ <;> rw [hs]
  · exact (h.withoutCode le_rfl).withHostSide _ _ _
  · exact (h.withCode hb).withHostSide _ _ _

/-- The memory that the construction of `INIT` leaves, with a `MODE` that is `READY` only if it ended and
an `ERR` that fits that mode (R105). -/
theorem withConstruction (h : s.Inv) {u : Table ClassEntry} {mode : Mode} {err : BitVec 3}
    (hu : buildDtab s.cfg.dspec s.mem.dtab = .ok u ∨ buildDtab s.cfg.dspec s.mem.dtab = .error u)
    (hready : mode = .ready → buildDtab s.cfg.dspec s.mem.dtab = .ok u)
    (herr : err ≠ 0 ↔ mode = .failed) (hvalue : mode = .failed → err = 1 ∨ err = 3) :
    State.Inv { s with
      mode := mode, err := err, mem := constructedMem s.cfg s.mem fixllEntries fixdEntries u } := by
  obtain ⟨-, -, -, -, -, hdtab, -, -⟩ := h.canonical
  exact {
    canonical := wf_constructedMem h.canonical (wf_buildDtab hdtab hu) _ _
    inSpaces := inSpaces_constructedMem h.inSpaces (below_buildDtab h.inSpaces.dtab hu)
      fixllEntries_length fixdEntries_length
    errExactlyFailed := herr
    errValue := hvalue
    nsymBound := h.nsymBound
    profileWritten := h.profileWritten
    codeValid := h.codeValid
    fixedTables := fun hr => fixedTables_constructedMem (hready hr) }

theorem runInit (h : s.Inv) (hmode : s.mode = .uninit) : s.runInit.Inv := by
  have herr : ¬ s.err ≠ 0 := mt h.errExactlyFailed.1 (by simp [hmode])
  rcases runInit_cases s with ⟨u, hu, hs⟩ | ⟨u, hu, hs⟩ <;> rw [hs]
  · have ht := h.withConstruction (mode := .ready) (.inl hu) (fun _ => hu)
      (iff_of_false herr nofun) nofun
    exact ht.withHostSide _ _ _
  · have ht := h.withConstruction (mode := .failed) (.inr hu) nofun (by decide) (fun _ => .inr rfl)
    exact ht.withHostSide _ _ _

end State.Inv

theorem exec_keeps_inv (i : Instr) {s : State} (hs : s.Inv) : ∃ t, exec i s = .next t ∧ t.Inv := by
  rcases exec_cases i s with ⟨r, h⟩ | ⟨-, h⟩ | ⟨len, -, hroom, h⟩ | ⟨-, h⟩ | ⟨-, hmode, h⟩
  · exact ⟨_, h, hs.withHostSide _ _ _⟩
  · exact ⟨_, h, (hs.withoutCode (Nat.zero_le _)).withHostSide _ _ _⟩
  · exact ⟨_, h, hs.pushed hroom _⟩
  · exact ⟨_, h, hs.runBuild⟩
  · exact ⟨_, h, hs.runInit hmode⟩

/-- Every step ends in a state and keeps the invariant. -/
theorem step_keeps_inv {s : State} (hs : s.Inv) : ∃ t, step s = .next t ∧ t.Inv := by
  rcases step_cases s with ⟨-, h⟩ | ⟨-, rest, i, -, -, h⟩ | ⟨-, rest, -, -, -, h⟩ | ⟨rest, -, h⟩ <;>
    rw [h]
  · exact ⟨s, rfl, hs⟩
  · exact exec_keeps_inv i (hs.withHostSide _ rest _)
  · exact ⟨_, rfl, hs.withHostSide _ _ _⟩
  · exact ⟨_, rfl, inv_of_resetValues rfl rfl rfl rfl rfl⟩

theorem run_succ {s t : State} (h : step s = .next t) (k : Nat) :
    Host.Core.run Sys2Proof.core (k + 1) s = Host.Core.run Sys2Proof.core k t := by
  have hcore : Sys2Proof.core.step s = .next t := h
  simp only [Host.Core.run, hcore]

/-- Every run from a state of the invariant ends in one. -/
theorem run_keeps_inv (k : Nat) {s : State} (hs : s.Inv) :
    ∃ t, Host.Core.run Sys2Proof.core k s = .next t ∧ t.Inv := by
  induction k generalizing s with
  | zero => exact ⟨s, rfl, hs⟩
  | succ k ih =>
    obtain ⟨t, hstep, ht⟩ := step_keeps_inv hs
    rw [run_succ hstep]
    exact ih ht

/-! ## What a step keeps once `INIT` has run -/

/-- A write of the builder's two tables leaves the six fixed tables as they are. -/
theorem sameFixedTables_withBuilderTables (m : Memory) (len : Table (BitVec 4))
    (code : Table CodeEntry) : SameFixedTables { m with len := len, code := code } m :=
  ⟨rfl, rfl, rfl, rfl, rfl, rfl⟩

/-- Once `MODE` is not `UNINIT`, no command changes it or a fixed table: only `INIT` writes them. -/
theorem exec_keeps_mode_fixedTables {i : Instr} {s t : State} (h : exec i s = .next t)
    (hmode : s.mode ≠ .uninit) : t.mode = s.mode ∧ SameFixedTables t.mem s.mem := by
  have htables := sameFixedTables_withBuilderTables s.mem
  rcases exec_cases i s with ⟨r, he⟩ | ⟨-, he⟩ | ⟨len, -, -, he⟩ | ⟨-, he⟩ | ⟨-, huninit, -⟩
  · cases he.symm.trans h; exact ⟨rfl, htables _ _⟩
  · cases he.symm.trans h; exact ⟨rfl, htables _ _⟩
  · cases he.symm.trans h; exact ⟨rfl, htables _ _⟩
  · cases he.symm.trans h
    rcases runBuild_cases s with ⟨-, hs⟩ | ⟨out, -, hs⟩ <;> rw [hs] <;> exact ⟨rfl, htables _ _⟩
  · exact absurd huninit hmode

/-- R33: once `MODE` is not `UNINIT`, no step but a reset changes it or a fixed table. -/
theorem step_keeps_mode_fixedTables {s t : State} (h : step s = .next t) (hmode : s.mode ≠ .uninit)
    (hreset : ∀ rest, s.inputs ≠ .reset :: rest) : t.mode = s.mode ∧ SameFixedTables t.mem s.mem := by
  have htables := sameFixedTables_withBuilderTables s.mem
  rcases step_cases s with ⟨-, he⟩ | ⟨-, rest, i, -, -, he⟩ | ⟨-, rest, -, -, -, he⟩ | ⟨rest, hi, -⟩
  · cases he.symm.trans h; exact ⟨rfl, htables _ _⟩
  · exact exec_keeps_mode_fixedTables (s := { s with inputs := rest }) (he.symm.trans h) hmode
  · cases he.symm.trans h; exact ⟨rfl, htables _ _⟩
  · exact absurd hi (hreset rest)

theorem Mode.bits_le (m : Mode) : m.bits.toNat ≤ 2 := by
  cases m <;> decide

/-- Settles O57: reset establishes the invariant and every step keeps it, by induction on the number of
steps; and of the effects a command can have, only those of `INIT` in `UNINIT` reach `MODE` or a fixed
table. -/
theorem reachableStatesMeetTheInvariant : Obligations.ReachableStatesMeetTheInvariant := by
  refine ⟨fun c inputs k => ?_, fun s t hstep hmode hreset => ?_⟩
  · obtain ⟨t, hrun, ht⟩ := run_keeps_inv k
      (s := { State.powerOn c with inputs := inputs }) (inv_of_resetValues rfl rfl rfl rfl rfl)
    exact ⟨t, hrun, ht, t.mode.bits_le⟩
  · obtain ⟨hkeep, hsame⟩ := step_keeps_mode_fixedTables hstep hmode hreset
    exact ⟨hkeep, fun _ => hsame⟩

end Sys2Proof.Machine
end

section
/-! A read only answers, and its answer does not depend on the answers given before it: R40 (O14). -/

namespace Sys2Proof.Machine

/-- The response of a command that only answers is decided by its two checks and its data: it is the
same response in every state. -/
theorem checked_respond_uniform (stateOk operandOk : Bool) (data : Word) :
    ∃ r : Response, ∀ s : State,
      s.checked stateOk operandOk (s.respond data) = s.answered r.err r.data := by
  match stateOk, operandOk with
  | true, true => exact ⟨⟨0, data⟩, fun _ => rfl⟩
  | true, false => exact ⟨⟨Condition.domainError.code, 0⟩, fun _ => rfl⟩
  | false, _ => exact ⟨⟨Condition.protocolError.code, 0⟩, fun _ => rfl⟩

/-- Settles O14: a read's checks and data are taken from fields that its answer leaves as they are, so
the read that is repeated gives the response of the first. -/
theorem aReadHasNoSideEffect : Obligations.AReadHasNoSideEffect := by
  intro i s hi
  cases i with
  | stat => exact ⟨⟨0, s.statusWord⟩, rfl, rfl⟩
  | rdcode _ | lclass _ | dclass _ | lxb _ | dxb _ | didx _ | rdltab _ | rddtab _ | rdfixl _
  | rdfixd _ =>
    exact (checked_respond_uniform _ _ _).imp fun r hr =>
      ⟨congrArg Host.Outcome.next (hr s), congrArg Host.Outcome.next (hr (s.answered r.err r.data))⟩
  | init | clrp | pushlen _ | build => cases hi

end Sys2Proof.Machine
end

section
/-! The opcode map and the decoder, which does not use it, say the same: R56 (O4), R57 (O5). Both are
compared with the same conditions on the three fields of a word. -/

namespace Sys2Proof

/-! ## The fields of a word -/

/-- A bit field, as a number. -/
theorem extractLsb'_eq_iff {n start len : Nat} {x : BitVec n} {y : BitVec len} :
    x.extractLsb' start len = y ↔ x.toNat / 2 ^ start % 2 ^ len = y.toNat := by
  rw [← BitVec.toNat_inj, BitVec.extractLsb'_toNat, Nat.shiftRight_eq_div_pow]

/-- A word is the concatenation of its three fields (R48). -/
theorem append_fields (w : Word) : opField w ++ rsvField w ++ argField w = w := by
  have hop : opField w ++ rsvField w = w.extractLsb' 16 16 :=
    BitVec.extractLsb'_append_extractLsb'_eq_extractLsb' rfl
  have hall : w.extractLsb' 16 16 ++ argField w = w.extractLsb' 0 32 :=
    BitVec.extractLsb'_append_extractLsb'_eq_extractLsb' rfl
  rw [hop, hall, BitVec.extractLsb'_eq_self]

/-- Two words are equal when their three fields are. -/
theorem eq_iff_fields {w v : Word} :
    w = v ↔ opField w = opField v ∧ rsvField w = rsvField v ∧ argField w = argField v := by
  refine ⟨fun h => h ▸ ⟨rfl, rfl, rfl⟩, fun ⟨hop, hrsv, harg⟩ => ?_⟩
  rw [← append_fields w, ← append_fields v, hop, hrsv, harg]

@[simp] theorem opField_and (w m : Word) : opField (w &&& m) = opField w &&& opField m :=
  BitVec.extractLsb'_and

@[simp] theorem rsvField_and (w m : Word) : rsvField (w &&& m) = rsvField w &&& rsvField m :=
  BitVec.extractLsb'_and

@[simp] theorem argField_and (w m : Word) : argField (w &&& m) = argField w &&& argField m :=
  BitVec.extractLsb'_and

/-! ## The formats and the rows -/

/-- What a format asks of `arg` (R49). -/
def Format.Admits : Format → BitVec 16 → Prop
  | .n, arg => arg = 0
  | .l, arg => arg.toNat < 16
  | .a, _ => True

/-- The bits of `arg` that a format holds to 0, as a mask (R49). -/
def Format.argMask : Format → BitVec 16
  | .n => BitVec.allOnes 16
  | .l => BitVec.allOnes 12 ++ 0#4
  | .a => 0

/-- The fields of `w` are those of a command of the row (R48, R49, R56). -/
def OpcodeRow.Accepts (row : OpcodeRow) (w : Word) : Prop :=
  opField w = row.op ∧ rsvField w = 0 ∧ row.format.Admits (argField w)

/-- `arg[15:4]` is 0 exactly when `arg` is below 16. -/
theorem highBits_eq_zero_iff (arg : BitVec 16) : arg.extractLsb' 4 12 = 0 ↔ arg.toNat < 16 := by
  rw [extractLsb'_eq_iff, BitVec.ofNat_eq_ofNat, BitVec.toNat_zero]
  have := arg.isLt
  omega

/-- The mask of a format tests what the format asks of `arg`. -/
theorem Format.and_argMask_eq_zero_iff (f : Format) (arg : BitVec 16) :
    arg &&& f.argMask = 0 ↔ f.Admits arg := by
  cases f with
  | n => rw [Format.argMask, BitVec.and_allOnes, Format.Admits]
  | a => exact iff_of_true BitVec.and_zero trivial
  | l =>
    have hsplit : arg = arg.extractLsb' 4 12 ++ arg.extractLsb' 0 4 := by
      rw [BitVec.extractLsb'_append_extractLsb'_eq_extractLsb' (x := arg) (start₂ := 4) rfl,
        BitVec.extractLsb'_eq_self]
    have hand : arg &&& Format.argMask .l = arg.extractLsb' 4 12 ++ 0#4 := by
      conv_lhs => rw [hsplit]
      rw [Format.argMask, BitVec.and_append, BitVec.and_allOnes, BitVec.and_zero]
    have hzero : (0 : BitVec 16) = 0#12 ++ 0#4 := by decide
    rw [hand, hzero, BitVec.append_left_inj]
    exact highBits_eq_zero_iff arg

/-- The mask and the match of each row, field by field. -/
theorem fields_of_row : ∀ row ∈ opcodeTable,
    opField row.mask = BitVec.allOnes 8 ∧ rsvField row.mask = BitVec.allOnes 8 ∧
    argField row.mask = row.format.argMask ∧
    opField row.matchBits = row.op ∧ rsvField row.matchBits = 0 ∧ argField row.matchBits = 0 := by
  decide

/-- No two rows share an `op`. -/
theorem row_eq_of_op_eq : ∀ row ∈ opcodeTable, ∀ row' ∈ opcodeTable,
    row.op = row'.op → row = row' := by
  decide

/-- No two rows share a mnemonic. -/
theorem row_eq_of_mnemonic_eq : ∀ row ∈ opcodeTable, ∀ row' ∈ opcodeTable,
    row.mnemonic = row'.mnemonic → row = row' := by
  decide

/-- `(W & mask) = match` (R56), as the conditions on the fields. -/
theorem and_mask_eq_matchBits_iff {row : OpcodeRow} (hrow : row ∈ opcodeTable) (w : Word) :
    w &&& row.mask = row.matchBits ↔ row.Accepts w := by
  obtain ⟨hop, hrsv, harg, hop', hrsv', harg'⟩ := fields_of_row row hrow
  rw [eq_iff_fields, opField_and, rsvField_and, argField_and, hop, hrsv, harg, hop', hrsv', harg',
    BitVec.and_allOnes, BitVec.and_allOnes, Format.and_argMask_eq_zero_iff, OpcodeRow.Accepts]

/-! ## The decoder -/

/-- An answer of the decoder for a word with the row's `op`: a command of the row when `rsv` and `arg`
are as its format asks, and otherwise an error. -/
def OpcodeRow.Answers (row : OpcodeRow) (w : Word) (answer : Except DecodeError Instr) : Prop :=
  (rsvField w = 0 ∧ row.format.Admits (argField w) ∧
    ∃ i, answer = .ok i ∧ i.mnemonic = row.mnemonic) ∨
  (¬ (rsvField w = 0 ∧ row.format.Admits (argField w)) ∧ ∃ e, answer = .error e)

/-- After the check of `rsv`, an answer is the row's if what follows is a command of the row exactly when
the format admits `arg`. -/
theorem needRsvZero_answers {row : OpcodeRow} {w : Word} {rest : Except DecodeError Instr}
    (hok : row.format.Admits (argField w) → ∃ i, rest = .ok i ∧ i.mnemonic = row.mnemonic)
    (herr : ¬ row.format.Admits (argField w) → ∃ e, rest = .error e) :
    row.Answers w (needRsvZero w rest) := by
  unfold needRsvZero
  split
  · next hrsv =>
    by_cases harg : row.format.Admits (argField w)
    · exact .inl ⟨hrsv, harg, hok harg⟩
    · exact .inr ⟨fun h => harg h.2, herr harg⟩
  · next hrsv => exact .inr ⟨fun h => hrsv h.1, _, rfl⟩

theorem decodeN_answers {row : OpcodeRow} {i : Instr} (w : Word) (hf : row.format = .n)
    (hi : i.mnemonic = row.mnemonic) : row.Answers w (decodeN w i) := by
  refine needRsvZero_answers (fun harg => ⟨i, ?_, hi⟩) (fun harg => ⟨.operandNotZero, ?_⟩) <;>
    rw [hf] at harg
  · exact if_pos harg
  · exact if_neg harg

theorem decodeL_answers {row : OpcodeRow} {mk : Nat → Instr} (w : Word) (hf : row.format = .l)
    (hmk : ∀ n, (mk n).mnemonic = row.mnemonic) : row.Answers w (decodeL w mk) := by
  refine needRsvZero_answers
    (fun harg => ⟨_, ?_, hmk ((argField w).extractLsb' 0 4).toNat⟩)
    (fun harg => ⟨.lengthTooWide, ?_⟩) <;> rw [hf] at harg
  · exact if_pos ((highBits_eq_zero_iff _).2 harg)
  · exact if_neg (mt (highBits_eq_zero_iff _).1 harg)

theorem decodeA_answers {row : OpcodeRow} {mk : Nat → Instr} (w : Word) (hf : row.format = .a)
    (hmk : ∀ n, (mk n).mnemonic = row.mnemonic) : row.Answers w (decodeA w mk) :=
  needRsvZero_answers (fun _ => ⟨mk _, rfl, hmk _⟩)
    (fun harg => absurd (hf ▸ trivial : row.format.Admits (argField w)) harg)

/-- Everything the decoder can do: a word has the `op` of a row and is answered by that row, or has the
`op` of none and is answered by an error. -/
theorem decode_cases (w : Word) :
    (∃ row ∈ opcodeTable, opField w = row.op ∧ row.Answers w (decode w)) ∨
    ((∀ row ∈ opcodeTable, opField w ≠ row.op) ∧ ∃ e, decode w = .error e) := by
  have byRow (k : Fin 15) {answer : Except DecodeError Instr}
      (hop : (opField w).toNat = opcodeTable[k.val].op.toNat)
      (h : opcodeTable[k.val].Answers w answer) :
      ∃ row ∈ opcodeTable, opField w = row.op ∧ row.Answers w answer :=
    ⟨_, List.getElem_mem k.isLt, BitVec.eq_of_toNat_eq hop, h⟩
  unfold decode
  split
  · next hop => exact .inl (byRow 0 hop (decodeN_answers w rfl rfl))
  · next hop => exact .inl (byRow 1 hop (decodeN_answers w rfl rfl))
  · next hop => exact .inl (byRow 2 hop (decodeN_answers w rfl rfl))
  · next hop => exact .inl (byRow 3 hop (decodeL_answers w rfl fun _ => rfl))
  · next hop => exact .inl (byRow 4 hop (decodeN_answers w rfl rfl))
  · next hop => exact .inl (byRow 5 hop (decodeA_answers w rfl fun _ => rfl))
  · next hop => exact .inl (byRow 6 hop (decodeA_answers w rfl fun _ => rfl))
  · next hop => exact .inl (byRow 7 hop (decodeA_answers w rfl fun _ => rfl))
  · next hop => exact .inl (byRow 8 hop (decodeA_answers w rfl fun _ => rfl))
  · next hop => exact .inl (byRow 9 hop (decodeA_answers w rfl fun _ => rfl))
  · next hop => exact .inl (byRow 10 hop (decodeA_answers w rfl fun _ => rfl))
  · next hop => exact .inl (byRow 11 hop (decodeA_answers w rfl fun _ => rfl))
  · next hop => exact .inl (byRow 12 hop (decodeA_answers w rfl fun _ => rfl))
  · next hop => exact .inl (byRow 13 hop (decodeA_answers w rfl fun _ => rfl))
  · next hop => exact .inl (byRow 14 hop (decodeA_answers w rfl fun _ => rfl))
  · refine .inr ⟨?_, _, rfl⟩
    simp only [opcodeTable, List.forall_mem_cons, List.not_mem_nil, false_implies, implies_true,
      and_true, ne_eq, ← BitVec.toNat_inj]
    and_intros <;> assumption

/-- A word decodes to a command with the row's mnemonic exactly when its fields are the row's. -/
theorem decode_ok_iff_accepts {row : OpcodeRow} (hrow : row ∈ opcodeTable) (w : Word) :
    (∃ i, decode w = .ok i ∧ i.mnemonic = row.mnemonic) ↔ row.Accepts w := by
  constructor
  · rintro ⟨i, hi, hmn⟩
    obtain ⟨row', hrow', hop, ⟨hrsv, harg, j, hj, hmn'⟩ | ⟨-, e, he⟩⟩ | ⟨-, e, he⟩ := decode_cases w
    · cases hi.symm.trans hj
      cases row_eq_of_mnemonic_eq row hrow row' hrow' (hmn.symm.trans hmn')
      exact ⟨hop, hrsv, harg⟩
    · cases hi.symm.trans he
    · cases hi.symm.trans he
  · rintro ⟨hop, hrsv, harg⟩
    obtain ⟨row', hrow', hop', h⟩ | ⟨hnone, -⟩ := decode_cases w
    · cases row_eq_of_op_eq row hrow row' hrow' (hop.symm.trans hop')
      obtain ⟨-, -, hdec⟩ | ⟨hbad, -⟩ := h
      · exact hdec
      · exact absurd ⟨hrsv, harg⟩ hbad
    · exact absurd hop (hnone row hrow)

/-- Settles O4: the mask test and the decoder both come to the row's conditions on the three fields. -/
theorem aWordIsACommandWhenItMatchesARow : Obligations.AWordIsACommandWhenItMatchesARow :=
  ⟨rfl, fun w _ hrow =>
    (and_mask_eq_matchBits_iff hrow w).trans (decode_ok_iff_accepts hrow w).symm⟩

/-! ## Illegal words -/

/-- A word that no row accepts decodes to an error. -/
theorem decode_error_of_not_accepts {w : Word} (h : ∀ row ∈ opcodeTable, ¬ row.Accepts w) :
    ∃ e, decode w = .error e := by
  obtain ⟨row, hrow, hop, ⟨hrsv, harg, -⟩ | ⟨-, he⟩⟩ | ⟨-, he⟩ := decode_cases w
  · exact absurd ⟨hop, hrsv, harg⟩ (h row hrow)
  · exact he
  · exact he

/-- The `arg` that a format does not admit (R57). -/
theorem Format.not_admits_iff (f : Format) (arg : BitVec 16) :
    ¬ f.Admits arg ↔ (f = .n ∧ arg ≠ 0) ∨ (f = .l ∧ 16 ≤ arg.toNat) := by
  cases f <;> simp [Format.Admits]

/-- No row accepts a word exactly when its `op` is in no row, its `rsv` is not 0, or its `arg` is not one
that the format of its row admits. -/
theorem not_accepts_iff (w : Word) :
    (∀ row ∈ opcodeTable, ¬ row.Accepts w) ↔
      (∀ row ∈ opcodeTable, opField w ≠ row.op) ∨ rsvField w ≠ 0 ∨
      ∃ row ∈ opcodeTable, opField w = row.op ∧ ¬ row.format.Admits (argField w) := by
  constructor
  · intro h
    by_cases hop : ∃ row ∈ opcodeTable, opField w = row.op
    · obtain ⟨row, hrow, hop⟩ := hop
      by_cases hrsv : rsvField w = 0
      · exact .inr (.inr ⟨row, hrow, hop, fun harg => h row hrow ⟨hop, hrsv, harg⟩⟩)
      · exact .inr (.inl hrsv)
    · exact .inl fun row hrow h => hop ⟨row, hrow, h⟩
  · rintro (hop | hrsv | ⟨row', hrow', hop', harg'⟩) row hrow ⟨hop₀, hrsv₀, harg₀⟩
    · exact hop row hrow hop₀
    · exact hrsv hrsv₀
    · cases row_eq_of_op_eq row hrow row' hrow' (hop₀.symm.trans hop')
      exact harg' harg₀

end Sys2Proof

namespace Sys2Proof.Machine

/-- A step with a word presented takes that word (R43). -/
theorem step_command {s : State} {w : Word} {rest : List HostInput}
    (h : s.inputs = .command w :: rest) :
    step s = acceptWord w { s with inputs := rest } := by
  simp only [step, acceptInput, h]

/-- A word that is no command raises `IllegalCommand` and nothing else (R57, R121). -/
theorem acceptWord_error {w : Word} {e : DecodeError} (h : decode w = .error e) (s : State) :
    acceptWord w s = .next (s.answered 4 0) := by
  simp only [acceptWord, h]
  rfl

theorem acceptWord_ok {w : Word} {i : Instr} (h : decode w = .ok i) (s : State) :
    acceptWord w s = exec i s := by
  simp only [acceptWord, h]

/-- Settles O5: that no row matches means that no row accepts the fields, which is R57's list. -/
theorem everyOtherWordIsIllegalAndChangesNothing :
    Obligations.EveryOtherWordIsIllegalAndChangesNothing := by
  have hmatch (w : Word) : (∀ row ∈ opcodeTable, w &&& row.mask ≠ row.matchBits) ↔
      ∀ row ∈ opcodeTable, ¬ row.Accepts w :=
    forall₂_congr fun _ hrow => not_congr (and_mask_eq_matchBits_iff hrow w)
  refine ⟨fun w h => ?_, fun w => ?_, by decide +kernel⟩
  · obtain ⟨e, he⟩ := decode_error_of_not_accepts ((hmatch w).1 h)
    exact ⟨⟨e, he⟩, fun s rest hs => (step_command hs).trans (acceptWord_error he _)⟩
  · rw [hmatch, not_accepts_iff]
    simp only [Format.not_admits_iff, and_or_left, exists_or]

end Sys2Proof.Machine
end

section
/-! Every word gets one response, an error's data being 0: R50 (O8). -/

namespace Sys2Proof.Machine

/-- `t` is `s` after one response of R50, whatever else has changed in the block. -/
def State.AnsweredOnce (s t : State) : Prop :=
  t.inputs = s.inputs ∧ ∃ r : Response, t.responses = s.responses ++ [r] ∧
    r.err.toNat ≤ 5 ∧ (r.err ≠ 0 → r.data = 0)

/-- A condition's response has its code, at most 5, and data 0 (R115, R120). -/
theorem answeredOnce_takeCondition (s : State) (c : Condition) :
    s.AnsweredOnce (s.takeCondition .check c) :=
  ⟨rfl, ⟨c.code, 0⟩, rfl, by cases c <;> decide, fun _ => rfl⟩

theorem answeredOnce_respond (s : State) (data : Word) : s.AnsweredOnce (s.respond data) :=
  ⟨rfl, ⟨0, data⟩, rfl, Nat.zero_le 5, fun h => absurd rfl h⟩

/-- The checks of R54 keep it to one response. -/
theorem answeredOnce_checked {s body : State} (stateOk operandOk : Bool) (h : s.AnsweredOnce body) :
    s.AnsweredOnce (s.checked stateOk operandOk body) := by
  obtain ⟨-, -, hb⟩ | ⟨-, -, hb⟩ | ⟨-, hb⟩ := checked_cases s stateOk operandOk body <;> rw [hb]
  · exact h
  · exact answeredOnce_takeCondition s _
  · exact answeredOnce_takeCondition s _

theorem answeredOnce_runBuild (s : State) : s.AnsweredOnce s.runBuild := by
  obtain ⟨-, h⟩ | ⟨out, -, h⟩ := runBuild_cases s <;> rw [h]
  · exact ⟨rfl, ⟨1, 0⟩, rfl, by decide, fun _ => rfl⟩
  · exact ⟨rfl, ⟨0, 0⟩, rfl, by decide, fun _ => rfl⟩

theorem answeredOnce_runInit (s : State) : s.AnsweredOnce s.runInit := by
  obtain ⟨u, -, h⟩ | ⟨u, -, h⟩ := runInit_cases s <;> rw [h]
  · exact ⟨rfl, ⟨0, 0⟩, rfl, by decide, fun _ => rfl⟩
  · exact ⟨rfl, ⟨3, 0⟩, rfl, by decide, fun _ => rfl⟩

/-- Every command ends in a next state with one response (R50). -/
theorem exec_answeredOnce (i : Instr) (s : State) : ∃ t, exec i s = .next t ∧ s.AnsweredOnce t := by
  cases i with
  | init => exact ⟨_, rfl, answeredOnce_checked _ _ (answeredOnce_runInit s)⟩
  | build => exact ⟨_, rfl, answeredOnce_runBuild s⟩
  | stat => exact ⟨_, rfl, answeredOnce_respond s _⟩
  | clrp => exact ⟨_, rfl, answeredOnce_respond s 0⟩
  | pushlen len => exact ⟨_, rfl, answeredOnce_checked _ _ (answeredOnce_respond s 0)⟩
  | rdcode _ | lclass _ | dclass _ | lxb _ | dxb _ | didx _ | rdltab _ | rddtab _ | rdfixl _
  | rdfixd _ => exact ⟨_, rfl, answeredOnce_checked _ _ (answeredOnce_respond s _)⟩

/-- A word gets one response, from its command or as illegal (R50, R57). -/
theorem acceptWord_answeredOnce (w : Word) (s : State) :
    ∃ t, acceptWord w s = .next t ∧ s.AnsweredOnce t := by
  cases hd : decode w with
  | ok i => rw [acceptWord_ok hd]; exact exec_answeredOnce i s
  | error e => exact ⟨_, acceptWord_error hd s, answeredOnce_takeCondition s .illegalCommand⟩

/-- Settles O8: a step takes the word, and whatever the word is, its one response is appended. -/
theorem everyWordGetsExactlyOneResponse : Obligations.EveryWordGetsExactlyOneResponse := by
  intro s w rest hs
  obtain ⟨t, ht, hin, r, hr, herr, hdata⟩ := acceptWord_answeredOnce w { s with inputs := rest }
  exact ⟨t, r, (step_command hs).trans ht, hin, hr, herr, hdata⟩

end Sys2Proof.Machine
end

section
/-! The fields of packed entries, and the codes that `Build` assigns: R51, R52 (O17). -/

namespace Sys2Proof.Machine

/-! ## A concatenation is a sum -/

theorem toNat_append_eq_add {m n : Nat} (x : BitVec m) (y : BitVec n) :
    (x ++ y).toNat = x.toNat * 2 ^ n + y.toNat := by
  rw [BitVec.toNat_append, ← Nat.shiftLeft_add_eq_or_of_lt y.isLt, Nat.shiftLeft_eq]

theorem packCode_toNat (e : CodeEntry) :
    (packCode e).toNat = e.code.toNat + e.len.toNat * 2 ^ 16 := by
  simp only [packCode, toNat_append_eq_add, BitVec.ofNat_eq_ofNat, BitVec.toNat_zero]
  omega

theorem packClass_toNat (e : ClassEntry) :
    (packClass e).toNat =
      e.base.toNat + e.code.toNat * 2 ^ 16 + e.extra.toNat * 2 ^ 25 + e.v.toNat * 2 ^ 31 := by
  simp only [packClass, toNat_append_eq_add, BitVec.ofNat_eq_ofNat, BitVec.toNat_zero,
    BitVec.toNat_ofBool]
  omega

/-! ## The fields -/

theorem packCode_fields (e : CodeEntry) :
    (packCode e).extractLsb' 0 15 = e.code ∧ (packCode e).extractLsb' 15 1 = 0 ∧
    (packCode e).extractLsb' 16 4 = e.len ∧ (packCode e).extractLsb' 20 12 = 0 := by
  simp only [extractLsb'_eq_iff, packCode_toNat, BitVec.ofNat_eq_ofNat, BitVec.toNat_zero]
  omega

theorem packClass_fields (e : ClassEntry) :
    (packClass e).extractLsb' 0 16 = e.base ∧ (packClass e).extractLsb' 16 9 = e.code ∧
    (packClass e).extractLsb' 25 4 = e.extra ∧ (packClass e).extractLsb' 29 2 = 0 ∧
    (packClass e).extractLsb' 31 1 = BitVec.ofBool e.v := by
  simp only [extractLsb'_eq_iff, packClass_toNat, BitVec.ofNat_eq_ofNat, BitVec.toNat_zero,
    BitVec.toNat_ofBool]
  have := e.v.toNat_le
  omega

/-! ## A code fits its length -/

/-- `rev(c, L)` has `L` bits (R64). -/
theorem rev_lt (c L : Nat) : rev c L < 2 ^ L := by
  induction L generalizing c with
  | zero => exact Nat.one_pos
  | succ L ih =>
    have hbit : c % 2 * 2 ^ L ≤ 1 * 2 ^ L := Nat.mul_le_mul_right _ (by omega)
    have hrest := ih (c / 2)
    rw [rev]
    omega

/-- An assigned code has no bit at or above its length (R51, R69). -/
theorem assign_code_lt (next : Vector Nat 16) (lens : List (BitVec 4)) :
    ∀ e ∈ (assign next lens).1, e.code.toNat < 2 ^ e.len.toNat := by
  induction lens generalizing next with
  | nil => exact fun e he => nomatch he
  | cons l ls ih =>
    rw [assign]
    split
    · exact List.forall_mem_cons.2 ⟨by decide, ih next⟩
    · refine List.forall_mem_cons.2 ⟨?_, ih _⟩
      exact (BitVec.toNat_ofNat ..).trans_le (Nat.mod_le ..) |>.trans_lt (rev_lt _ _)

theorem build_code_lt {lens : List (BitVec 4)} {out : List CodeEntry} (h : build lens = .ok out) :
    ∀ e ∈ out, e.code.toNat < 2 ^ e.len.toNat := by
  obtain ⟨-, hb⟩ | ⟨-, hb⟩ := build_cases lens <;> cases hb.symm.trans h
  exact assign_code_lt _ lens

/-- Settles O17: the packed words are concatenations, and every code `Build` stores is a reversal within
its length. -/
theorem packedEntriesHaveTheirFieldsInPlace : Obligations.PackedEntriesHaveTheirFieldsInPlace := by
  refine ⟨fun e => ?_, by decide, fun _ _ => build_code_lt, fun e => ?_, by decide⟩
  · obtain ⟨hcode, hgap, hlen, htop⟩ := packCode_fields e
    exact ⟨hcode, hgap, hlen, htop, packCode_toNat e⟩
  · obtain ⟨hbase, hcode, hextra, hgap, hv⟩ := packClass_fields e
    exact ⟨hbase, hcode, hextra, hgap, hv, packClass_toNat e⟩

end Sys2Proof.Machine
end

section
/-! Reversal within a code's own length: R64 (O18). -/

namespace Sys2Proof.Machine

/-- R64, bit by bit: bit `i` of the reversal is bit `L - 1 - i` of the code, and there is none from `L`
on. -/
theorem testBit_rev (c L i : Nat) :
    (rev c L).testBit i = (decide (i < L) && c.testBit (L - 1 - i)) := by
  induction L generalizing c with
  | zero => simp [rev]
  | succ L ih =>
    rw [rev, Nat.mul_comm, Nat.testBit_two_pow_mul_add _ (rev_lt _ L), ih]
    obtain hi | rfl | hi := Nat.lt_trichotomy i L
    · rw [if_pos hi, ← Nat.testBit_succ]
      simp [hi, Nat.lt_succ_of_lt hi, show L - 1 - i + 1 = L - i by omega]
    · simp
    · have hbit : (c % 2).testBit (i - L) = false :=
        Nat.testBit_lt_two_pow ((Nat.mod_lt c two_pos).trans_le (Nat.le_self_pow (by omega) 2))
      simp [Nat.not_lt.2 hi.le, hbit, Nat.not_lt.2 (Nat.succ_le_of_lt hi)]

/-- Within `L` bits the reversal is its own inverse (R64). -/
theorem rev_rev {c L : Nat} (h : c < 2 ^ L) : rev (rev c L) L = c := by
  refine Nat.eq_of_testBit_eq fun i => ?_
  rw [testBit_rev, testBit_rev]
  by_cases hi : i < L
  · simp [hi, show L - 1 - i < L by omega, show L - 1 - (L - 1 - i) = i by omega]
  · simp [hi, Nat.testBit_lt_two_pow (h.trans_le (Nat.pow_le_pow_right two_pos (Nat.not_lt.1 hi)))]

/-- The low bits of a reversed code are its leading bits, reversed. -/
theorem rev_mod_two_pow (c : Nat) {L M : Nat} (h : L ≤ M) :
    rev c M % 2 ^ L = rev (c / 2 ^ (M - L)) L := by
  refine Nat.eq_of_testBit_eq fun i => ?_
  rw [Nat.testBit_mod_two_pow, testBit_rev, testBit_rev, Nat.testBit_div_two_pow]
  by_cases hi : i < L
  · simp [hi, hi.trans_le h, show L - 1 - i + (M - L) = M - 1 - i by omega]
  · simp [hi]

/-- Settles O18: the bits of a reversal say it all; the identity in one bit and the two examples are
small closed facts. -/
theorem reversalIsWithinTheCodesOwnLength : Obligations.ReversalIsWithinTheCodesOwnLength := by
  refine ⟨fun L c _ _ hc => ⟨fun i hi => ?_, fun i hi => ?_, rev_rev hc⟩, by decide, rfl, rfl⟩
  · rw [testBit_rev, decide_eq_true hi, Bool.true_and]
  · rw [testBit_rev, decide_eq_false (Nat.not_lt.2 hi), Bool.false_and]

end Sys2Proof.Machine
end

section
/-! The counters, the Kraft accumulator and the first codes: R65 to R68 (O19, O20). -/

namespace Sys2Proof.Machine

/-! ## The counters -/

theorem toNat_ne_zero {l : BitVec 4} (h : l ≠ 0) : l.toNat ≠ 0 :=
  fun h0 => h (BitVec.eq_of_toNat_eq h0)

/-- Bit vectors and their numbers are counted alike. -/
theorem countP_toNat (lens : List (BitVec 4)) (l : BitVec 4) :
    lens.countP (fun m => m.toNat == l.toNat) = lens.count l :=
  List.countP_congr fun m _ => by simp [BitVec.toNat_inj]

@[simp] theorem reg_countLengths_zero (lens : List (BitVec 4)) : reg (countLengths lens) 0 = 0 := by
  simp [reg_countLengths]

theorem reg_countLengths_eq_count (lens : List (BitVec 4)) {l : BitVec 4} (h : l ≠ 0) :
    reg (countLengths lens) l.toNat = lens.count l := by
  rw [reg_countLengths _ _ l.isLt, if_neg (toNat_ne_zero h), countP_toNat]

/-- `max_len` is the length of a symbol, if any symbol is used (R66). -/
theorem exists_mem_maxLength {lens : List (BitVec 4)} (h : 1 ≤ maxLength lens) :
    ∃ l ∈ lens, l.toNat = maxLength lens := by
  induction lens with
  | nil => simp [maxLength] at h
  | cons l ls ih =>
    rw [maxLength] at h ⊢
    by_cases hl : maxLength ls ≤ l.toNat
    · exact ⟨l, List.mem_cons_self, (Nat.max_eq_left hl).symm⟩
    · obtain ⟨m, hm, hmax⟩ := ih (by omega)
      exact ⟨m, List.mem_cons_of_mem _ hm, by omega⟩

/-- A profile with a used symbol has one of length `max_len`. -/
theorem reg_countLengths_maxLength_pos {lens : List (BitVec 4)} (h : 1 ≤ maxLength lens) :
    0 < reg (countLengths lens) (maxLength lens) := by
  obtain ⟨l, hmem, hl⟩ := exists_mem_maxLength h
  have hl0 : l ≠ 0 := fun h0 => by simp [h0] at hl; omega
  rw [← hl, reg_countLengths_eq_count _ hl0]
  exact List.count_pos_iff.2 hmem

/-- No symbol is longer than `max_len`. -/
theorem reg_countLengths_of_maxLength_lt {lens : List (BitVec 4)} {b : Nat} (hb : b < 16)
    (h : maxLength lens < b) : reg (countLengths lens) b = 0 := by
  rw [reg_countLengths _ _ hb, if_neg (by omega), List.countP_eq_zero]
  intro l hl
  have := le_maxLength hl
  simp only [beq_iff_eq]
  omega

/-! ## The Kraft accumulator -/

/-- One more symbol of length `l` adds its term, if the sum reaches it. -/
theorem kraftUpTo_setReg (bl : Vector Nat 16) {l : Nat} (hl : l < 16) (n : Nat) :
    kraftUpTo (setReg bl l (reg bl l + 1)) n =
      kraftUpTo bl n + if 1 ≤ l ∧ l ≤ n then 2 ^ (15 - l) else 0 := by
  induction n with
  | zero => rw [if_neg (by omega)]; rfl
  | succ n ih =>
    rw [kraftUpTo, kraftUpTo, ih, reg_setReg]
    by_cases h : l = n + 1
    · subst h
      rw [if_neg (by omega), if_pos ⟨rfl, hl⟩, if_pos (by omega), Nat.add_mul, Config.maxBits]
      omega
    · have hreach : (1 ≤ l ∧ l ≤ n + 1) ↔ (1 ≤ l ∧ l ≤ n) := by omega
      rw [if_neg (fun hc : l = n + 1 ∧ l < 16 => h hc.1), Nat.add_right_comm]
      simp only [hreach]

theorem k15_cons (l : BitVec 4) (ls : List (BitVec 4)) :
    k15 (l :: ls) = (if l = 0 then 0 else 2 ^ (15 - l.toNat)) + k15 ls := rfl

/-- Step 1 adds a symbol's term of `K15` to `kraft` for each symbol. -/
theorem kraftSum_countFrom (bl : Vector Nat 16) (lens : List (BitVec 4)) :
    kraftSum (countFrom bl lens) = kraftSum bl + k15 lens := by
  induction lens generalizing bl with
  | nil => rfl
  | cons l ls ih =>
    rw [countFrom, ih, k15_cons, ← Nat.add_assoc]
    congr 1
    by_cases h0 : l = 0
    · rw [if_pos h0, if_pos h0, Nat.add_zero]
    · have hl := l.isLt
      have hl0 := toNat_ne_zero h0
      rw [if_neg h0, if_neg h0, kraftSum, kraftUpTo_setReg _ hl, if_pos (by simp; omega), kraftSum]

/-- `kraft` is `K15` (R65, R67). -/
theorem kraftSum_countLengths (lens : List (BitVec 4)) :
    kraftSum (countLengths lens) = k15 lens := by
  have hzero : kraftSum (Vector.replicate 16 0) = 0 := by decide
  rw [countLengths, kraftSum_countFrom, hzero, Nat.zero_add]

theorem overSubscribed_iff (lens : List (BitVec 4)) :
    overSubscribed lens = true ↔ 32768 < k15 lens := by
  rw [overSubscribed, decide_eq_true_iff, kraftSum_countLengths]

theorem not_overSubscribed_iff (lens : List (BitVec 4)) :
    overSubscribed lens = false ↔ k15 lens ≤ 32768 := by
  rw [← Bool.not_eq_true, overSubscribed_iff, Nat.not_lt]

theorem build_of_valid {lens : List (BitVec 4)} (h : k15 lens ≤ 32768) :
    build lens = .ok (assignAll lens).1 := by
  rw [build, (not_overSubscribed_iff lens).2 h]
  rfl

theorem build_of_overSubscribed {lens : List (BitVec 4)} (h : 32768 < k15 lens) :
    build lens = .error .invalidCodeLengths := by
  rw [build, (overSubscribed_iff lens).2 h]
  rfl

/-- A result is that of steps 2 to 4 on a valid profile. -/
theorem build_eq_ok_iff {lens : List (BitVec 4)} {out : List CodeEntry} :
    build lens = .ok out ↔ k15 lens ≤ 32768 ∧ out = (assignAll lens).1 := by
  by_cases h : k15 lens ≤ 32768
  · simp [build_of_valid h, h, eq_comm]
  · simp [build_of_overSubscribed (Nat.not_le.1 h), h]

theorem build_eq_error_iff (lens : List (BitVec 4)) :
    build lens = .error .invalidCodeLengths ↔ 32768 < k15 lens := by
  refine ⟨fun h => Nat.lt_of_not_le fun hle => ?_, build_of_overSubscribed⟩
  rw [build_of_valid hle] at h
  cases h

theorem k15_append (ls ms : List (BitVec 4)) : k15 (ls ++ ms) = k15 ls + k15 ms := by
  simp [k15]

theorem k15_replicate (n : Nat) {l : BitVec 4} (h : l ≠ 0) :
    k15 (List.replicate n l) = n * 2 ^ (15 - l.toNat) := by
  rw [k15, List.map_replicate, if_neg h, List.sum_replicate, smul_eq_mul]

/-- A profile of no used symbol has `K15 = 0` (R65). -/
theorem k15_unused {lens : List (BitVec 4)} (h : ∀ l ∈ lens, l = 0) : k15 lens = 0 :=
  List.sum_eq_zero fun x hx => by
    obtain ⟨l, hl, rfl⟩ := List.mem_map.1 hx
    exact if_pos (h l hl)

theorem k15_profileLL : k15 Config.profileLL = 32768 := by
  simp only [Config.profileLL, k15_append]
  rw [k15_replicate _ (by decide), k15_replicate _ (by decide), k15_replicate _ (by decide),
    k15_replicate _ (by decide)]
  rfl

theorem k15_profileD : k15 Config.profileD = 32768 :=
  k15_replicate 32 (by decide)

/-- Settles O19: `kraft` is `K15`, and `Build` raises exactly when it exceeds 32768. -/
theorem buildAcceptsExactlyTheProfilesWithinKraft :
    Obligations.BuildAcceptsExactlyTheProfilesWithinKraft := by
  refine ⟨fun lens => ?_, build_eq_error_iff, fun _ => k15_unused, k15_profileLL, k15_profileD⟩
  exact ⟨fun ⟨_, h⟩ => (build_eq_ok_iff.1 h).1, fun h => ⟨_, build_of_valid h⟩⟩

/-! ## The first codes -/

theorem firstCode_succ (bl : Vector Nat 16) (b : Nat) :
    firstCode bl (b + 1) = 2 * (firstCode bl b + reg bl b) := by
  rw [firstCode, Nat.shiftLeft_eq, Nat.pow_one, Nat.mul_comm]

/-- Step 2 writes the first codes up to `max_len` (R68). -/
theorem reg_firstCodes_maxLength (lens : List (BitVec 4)) {b : Nat} (hb : b ≤ maxLength lens) :
    reg (firstCodes (countLengths lens) (maxLength lens)) b = firstCode (countLengths lens) b :=
  (reg_firstCodes _ _ (hb.trans_lt (maxLength_lt lens))).trans (if_pos hb)

/-- The closed form of R68. -/
theorem firstCode_eq_sum {bl : Vector Nat 16} (h0 : reg bl 0 = 0) (b : Nat) :
    firstCode bl b = ((List.range' 1 (b - 1)).map (fun j => reg bl j * 2 ^ (b - j))).sum := by
  induction b with
  | zero => rfl
  | succ b ih =>
    cases b with
    | zero => simp [firstCode, h0]
    | succ b =>
      have hdouble : ∀ j ∈ List.range' 1 b,
          reg bl j * 2 ^ (b + 2 - j) = 2 * (reg bl j * 2 ^ (b + 1 - j)) := fun j hj => by
        rw [show b + 2 - j = b + 1 - j + 1 by have := List.mem_range'_1.1 hj; omega, Nat.pow_succ]
        ring
      rw [firstCode_succ, ih, Nat.mul_add, Nat.add_sub_cancel, Nat.add_sub_cancel,
        List.range'_1_concat, List.map_append, List.sum_append, List.map_congr_left hdouble,
        List.sum_map_mul_left]
      simp [Nat.add_comm 1 b, Nat.mul_comm]

/-- R80, the fact behind both its equivalences: the code space used up to length `b`. -/
theorem firstCode_add_reg_scaled {bl : Vector Nat 16} (h0 : reg bl 0 = 0) {b : Nat} (hb : b ≤ 15) :
    (firstCode bl b + reg bl b) * 2 ^ (15 - b) = kraftUpTo bl b := by
  induction b with
  | zero => simp [firstCode, kraftUpTo, h0]
  | succ b ih =>
    rw [kraftUpTo, ← ih (by omega), firstCode_succ, show 15 - b = 15 - (b + 1) + 1 by omega,
      Nat.pow_succ, Config.maxBits]
    ring

/-- Settles O20: step 1 adds a symbol's term of `K15` and raises the counter of its length; a turn of
step 2 doubles, which gives the closed form by induction on the length. -/
theorem kraftAndFirstCodesHaveTheirClosedForms :
    Obligations.KraftAndFirstCodesHaveTheirClosedForms := by
  intro lens
  refine ⟨kraftSum_countLengths lens, reg_countLengths_zero lens,
    fun l hl => reg_countLengths_eq_count lens hl, fun b _ hb => ?_, fun h1 => ?_⟩
  · rw [reg_firstCodes_maxLength _ hb, firstCode_eq_sum (reg_countLengths_zero lens)]
  · rw [reg_firstCodes_maxLength _ h1, firstCode_succ, reg_countLengths_zero]
    rfl

end Sys2Proof.Machine
end

section
/-! The bounds of a valid profile's codes, what `Build` assigns to each symbol, and the other methods of
detection: R69 to R72, R80 (O21, O22, O23). -/

namespace Sys2Proof.Machine

/-! ## The code space used by the lengths up to one of them -/

/-- The first code of a length, continued to a greater one (R68): a turn of step 2 doubles. -/
theorem firstCode_mul_two_pow_le (bl : Vector Nat 16) {b M : Nat} (h : b ≤ M) :
    firstCode bl b * 2 ^ (M - b) ≤ firstCode bl M := by
  induction M, h using Nat.le_induction with
  | base => simp
  | succ M hbM ih =>
    rw [firstCode_succ, show M + 1 - b = M - b + 1 by omega, Nat.pow_succ, ← Nat.mul_assoc]
    omega

/-- The codes of a length end before the first code of a greater one, continued. -/
theorem firstCode_add_reg_mul_two_pow_le (bl : Vector Nat 16) {b M : Nat} (h : b < M) :
    (firstCode bl b + reg bl b) * 2 ^ (M - b) ≤ firstCode bl M := by
  calc (firstCode bl b + reg bl b) * 2 ^ (M - b)
    _ = firstCode bl (b + 1) * 2 ^ (M - (b + 1)) := by
      rw [firstCode_succ, show M - b = M - (b + 1) + 1 by omega, Nat.pow_succ]
      ring
    _ ≤ firstCode bl M := firstCode_mul_two_pow_le bl h

theorem kraftUpTo_mono (bl : Vector Nat 16) {m n : Nat} (h : m ≤ n) :
    kraftUpTo bl m ≤ kraftUpTo bl n :=
  monotone_nat_of_le_succ (f := kraftUpTo bl) (fun _ => Nat.le_add_right _ _) h

/-- No term of `kraft` stands above `max_len`. -/
theorem kraftUpTo_maxLength {lens : List (BitVec 4)} {n : Nat} (h : maxLength lens ≤ n)
    (hn : n ≤ 15) : kraftUpTo (countLengths lens) n =
      kraftUpTo (countLengths lens) (maxLength lens) := by
  induction n, h using Nat.le_induction with
  | base => rfl
  | succ n hmn ih =>
    rw [kraftUpTo, ih (by omega), reg_countLengths_of_maxLength_lt (by omega) (by omega),
      Nat.zero_mul, Nat.add_zero]

/-- R80 (b): where the codes of the greatest length end, scaled, is `kraft`. -/
theorem firstCode_add_reg_maxLength_scaled (lens : List (BitVec 4)) :
    (firstCode (countLengths lens) (maxLength lens) + reg (countLengths lens) (maxLength lens))
      * 2 ^ (15 - maxLength lens) = k15 lens := by
  have hmax : maxLength lens ≤ 15 := Nat.le_of_lt_succ (maxLength_lt lens)
  rw [firstCode_add_reg_scaled (reg_countLengths_zero lens) hmax, ← kraftUpTo_maxLength hmax le_rfl,
    ← kraftSum_countLengths]
  rfl

theorem two_pow_mul_two_pow_sub {b : Nat} (hb : b ≤ 15) : 2 ^ b * 2 ^ (15 - b) = 32768 := by
  rw [← Nat.pow_add, Nat.add_sub_cancel' hb]

/-- A profile is over-subscribed exactly when the codes of the greatest length run past the end of their
space (R80 (b)). -/
theorem overSubscribed_iff_maxLength (lens : List (BitVec 4)) : overSubscribed lens = true ↔
    2 ^ maxLength lens <
      firstCode (countLengths lens) (maxLength lens) + reg (countLengths lens) (maxLength lens) := by
  rw [overSubscribed_iff, ← firstCode_add_reg_maxLength_scaled,
    ← two_pow_mul_two_pow_sub (Nat.le_of_lt_succ (maxLength_lt lens))]
  exact Nat.mul_lt_mul_right (Nat.two_pow_pos _)

/-! ## The bounds of a valid profile -/

/-- The earlier symbols of a length are fewer than all symbols of that length. -/
theorem count_take_lt_count {lens : List (BitVec 4)} {s : Nat} {l : BitVec 4}
    (hs : lens[s]? = some l) : (lens.take s).count l < lens.count l := by
  have hle : (lens.take (s + 1)).count l ≤ lens.count l :=
    List.Sublist.count_le l (List.take_sublist _ _)
  rwa [List.take_add_one, hs, Option.toList_some, List.count_append, List.count_singleton_self] at hle

section
variable {lens : List (BitVec 4)} (hvalid : k15 lens ≤ 32768)
include hvalid

/-- The codes of every length end within its space (R71). -/
theorem firstCode_add_reg_le {b : Nat} (hb : b ≤ 15) :
    firstCode (countLengths lens) b + reg (countLengths lens) b ≤ 2 ^ b := by
  have hsum : kraftUpTo (countLengths lens) b ≤ 32768 :=
    (kraftUpTo_mono _ hb).trans ((kraftSum_countLengths lens).trans_le hvalid)
  rw [← firstCode_add_reg_scaled (reg_countLengths_zero lens) hb, ← two_pow_mul_two_pow_sub hb] at hsum
  exact Nat.le_of_mul_le_mul_right hsum (Nat.two_pow_pos _)

/-- Some code of the greatest length is assigned, so the first code of every length is within its space
(R71). -/
theorem firstCode_lt {b : Nat} (h1 : 1 ≤ b) (hb : b ≤ maxLength lens) :
    firstCode (countLengths lens) b < 2 ^ b := by
  have hused := reg_countLengths_maxLength_pos (h1.trans hb)
  have hend := firstCode_add_reg_le hvalid (Nat.le_of_lt_succ (maxLength_lt lens))
  have hcont := firstCode_mul_two_pow_le (countLengths lens) hb
  rw [← Nat.add_sub_cancel' hb, Nat.pow_add, Nat.add_sub_cancel' hb] at hend
  exact Nat.lt_of_mul_lt_mul_right (a := 2 ^ (maxLength lens - b)) (by omega)

/-- The number of every used symbol is within the space of its length (R71). -/
theorem codeNumber_lt {s : Nat} {l : BitVec 4} (hs : lens[s]? = some l) (hl : l ≠ 0) :
    codeNumber lens s l < 2 ^ l.toNat := by
  have hend := firstCode_add_reg_le hvalid (Nat.le_of_lt_succ l.isLt)
  rw [reg_countLengths_eq_count lens hl] at hend
  exact (Nat.add_lt_add_left (count_take_lt_count hs) _).trans_le hend

end

/-! ## What step 3 assigns -/

theorem reg_countLengths_cons (l : BitVec 4) (ls : List (BitVec 4)) {b : Nat} (hb : b < 16) :
    reg (countLengths (l :: ls)) b =
      reg (countLengths ls) b + if l ≠ 0 ∧ l.toNat = b then 1 else 0 := by
  rw [reg_countLengths _ _ hb, reg_countLengths _ _ hb, List.countP_cons]
  by_cases hb0 : b = 0
  · have hnone : ¬ (l ≠ 0 ∧ l.toNat = b) := fun h => toNat_ne_zero h.1 (h.2.trans hb0)
    rw [if_pos hb0, if_pos hb0, if_neg hnone]
  · have hone : (l ≠ 0 ∧ l.toNat = b) ↔ (l.toNat == b) = true := by
      rw [beq_iff_eq, and_iff_right_iff_imp]
      exact fun hl h0 => hb0 (hl.symm.trans (congrArg BitVec.toNat h0))
    rw [if_neg hb0, if_neg hb0]
    simp only [hone]

/-- The entry of a symbol of length `l` that is given the number `c` (R69). -/
def codeEntry (c : Nat) (l : BitVec 4) : CodeEntry :=
  { code := BitVec.ofNat 15 (rev c l.toNat), len := l }

/-- `next_code` after a symbol of length `l` has taken a number (R69). -/
def takeNumber (next : Vector Nat 16) (l : BitVec 4) : Vector Nat 16 :=
  setReg next l.toNat (reg next l.toNat + 1)

theorem reg_takeNumber (next : Vector Nat 16) (l : BitVec 4) (b : Nat) :
    reg (takeNumber next l) b = reg next b + if l.toNat = b then 1 else 0 := by
  rw [takeNumber, reg_setReg]
  by_cases hl : l.toNat = b
  · rw [if_pos ⟨hl, l.isLt⟩, if_pos hl, hl]
  · rw [if_neg (fun h : l.toNat = b ∧ l.toNat < 16 => hl h.1), if_neg hl, Nat.add_zero]

theorem assign_zero_cons (next : Vector Nat 16) (ls : List (BitVec 4)) :
    assign next (0 :: ls) = (sentinel :: (assign next ls).1, (assign next ls).2) := rfl

theorem assign_cons (next : Vector Nat 16) {l : BitVec 4} (hl : l ≠ 0) (ls : List (BitVec 4)) :
    assign next (l :: ls) = (codeEntry (reg next l.toNat) l :: (assign (takeNumber next l) ls).1,
      (assign (takeNumber next l) ls).2) :=
  if_neg hl

/-- `next_code` after step 3 (R69): each symbol has raised the entry of its length. -/
theorem reg_assign (next : Vector Nat 16) (lens : List (BitVec 4)) {b : Nat} (hb : b < 16) :
    reg (assign next lens).2 b = reg next b + reg (countLengths lens) b := by
  induction lens generalizing next with
  | nil => simp [assign, countLengths, countFrom]
  | cons l ls ih =>
    rw [reg_countLengths_cons _ _ hb]
    by_cases hl : l = 0
    · rw [hl, assign_zero_cons, ih, if_neg (fun h => h.1 rfl), Nat.add_zero]
    · rw [assign_cons _ hl, ih, reg_takeNumber]
      simp only [ne_eq, hl, not_false_eq_true, true_and]
      omega

/-- Step 3 gives a symbol the first unused number of its length (R69). -/
theorem assign_getElem? (next : Vector Nat 16) {lens : List (BitVec 4)} {s : Nat} {l : BitVec 4}
    (hs : lens[s]? = some l) (hl : l ≠ 0) :
    (assign next lens).1[s]? =
      some (codeEntry (reg next l.toNat + (lens.take s).count l) l) := by
  induction lens generalizing next s with
  | nil => cases hs
  | cons m ms ih =>
    cases s with
    | zero => cases hs; rw [assign_cons _ hl]; rfl
    | succ s =>
      rw [List.getElem?_cons_succ] at hs
      rw [List.take_succ_cons, List.count_cons]
      by_cases hm : m = 0
      · subst hm
        rw [assign_zero_cons, List.getElem?_cons_succ, ih _ hs, if_neg (by simpa using hl.symm),
          Nat.add_zero]
      · rw [assign_cons _ hm, List.getElem?_cons_succ, ih _ hs, reg_takeNumber]
        simp only [BitVec.toNat_inj, beq_iff_eq]
        rw [Nat.add_right_comm, Nat.add_assoc]

/-- The result gives each used symbol the number of R69. -/
theorem assignAll_getElem? {lens : List (BitVec 4)} {s : Nat} {l : BitVec 4}
    (hs : lens[s]? = some l) (hl : l ≠ 0) :
    (assignAll lens).1[s]? = some (codeEntry (codeNumber lens s l) l) := by
  rw [assignAll, assign_getElem? _ hs hl,
    reg_firstCodes_maxLength _ (le_maxLength (List.mem_of_getElem? hs))]
  rfl

/-- Step 3 reads `next_code` at the lengths of the profile only (R80 (a)). -/
theorem assign_congr {next next' : Vector Nat 16} {lens : List (BitVec 4)}
    (h : ∀ l ∈ lens, reg next l.toNat = reg next' l.toNat) :
    (assign next lens).1 = (assign next' lens).1 := by
  induction lens generalizing next next' with
  | nil => rfl
  | cons l ls ih =>
    obtain ⟨hhead, htail⟩ := List.forall_mem_cons.1 h
    by_cases hl : l = 0
    · rw [hl, assign_zero_cons, assign_zero_cons, ih htail]
    · have hraised := ih (next := takeNumber next l) (next' := takeNumber next' l)
        fun m hm => by rw [reg_takeNumber, reg_takeNumber, htail m hm]
      rw [assign_cons _ hl, assign_cons _ hl, hhead, hraised]

/-- `next_code` ends each length where the codes of that length end (R71). -/
theorem reg_assignAll (lens : List (BitVec 4)) {b : Nat} (hb : b ≤ maxLength lens) :
    reg (assignAll lens).2 b = firstCode (countLengths lens) b + reg (countLengths lens) b := by
  rw [assignAll, reg_assign _ _ (hb.trans_lt (maxLength_lt lens)), reg_firstCodes_maxLength _ hb]

/-! ## The working register `next_code` -/

/-- A valid profile leaves in `next_code[1..max_len]` what step 3 ended with. -/
theorem workAfter_nextCode_of_valid (w : Work) {lens : List (BitVec 4)} (h : k15 lens ≤ 32768)
    {b : Nat} (hb : b < 16) (h1 : 1 ≤ b) (hmax : b ≤ maxLength lens) :
    (workAfter w lens).nextCode[b] = BitVec.ofNat 16 (reg (assignAll lens).2 b) := by
  have hvalid : ¬ overSubscribed lens = true := by rw [(not_overSubscribed_iff lens).2 h]; decide
  simp only [workAfter, if_neg hvalid, Vector.getElem_ofFn]
  exact if_pos ⟨h1, hmax⟩

/-- The check of R67 stops `Build` before step 2 writes `next_code`. -/
theorem workAfter_nextCode_of_overSubscribed (w : Work) {lens : List (BitVec 4)}
    (h : 32768 < k15 lens) : (workAfter w lens).nextCode = w.nextCode :=
  if_pos ((overSubscribed_iff lens).2 h)

/-- Settles O21: the codes of a length end within its space, and the entry of `next_code` never passes
that end. -/
theorem codesFitTheirLengthsAndNothingOverflows :
    Obligations.CodesFitTheirLengthsAndNothingOverflows := by
  refine ⟨fun lens hvalid => ⟨fun b h1 hb => ?_, fun s l hs hl => ?_⟩,
    fun lens w => workAfter_nextCode_of_overSubscribed w⟩
  · have hb15 : b ≤ 15 := Nat.le_of_lt_succ (hb.trans_lt (maxLength_lt lens))
    have hend := firstCode_add_reg_le hvalid hb15
    have hwidth : 2 ^ b ≤ 32768 := Nat.pow_le_pow_right two_pos hb15
    rw [← reg_assignAll lens hb] at hend
    refine ⟨firstCode_lt hvalid h1 hb, reg_assignAll lens hb, hend, hwidth, fun w hb16 => ?_⟩
    rw [workAfter_nextCode_of_valid w hvalid hb16 h1 hb, BitVec.toNat_ofNat]
    exact Nat.mod_eq_of_lt (by omega)
  · exact ⟨Nat.le_sub_one_of_lt (codeNumber_lt hvalid hs hl), assignAll_getElem? hs hl⟩

/-! ## The other methods of detection -/

/-- The third method of R80: no entry of `next_code` passes the end of its length's space exactly when
each ends within it. -/
theorem incrementsStayWithin_iff (next : Vector Nat 16) (lens : List (BitVec 4)) :
    incrementsStayWithin next lens = true ↔
      ∀ l ∈ lens, l ≠ 0 → reg next l.toNat + lens.count l ≤ 2 ^ l.toNat := by
  induction lens generalizing next with
  | nil => simp [incrementsStayWithin]
  | cons l ls ih =>
    rw [incrementsStayWithin, List.forall_mem_cons]
    by_cases hl : l = 0
    · subst hl
      have hcount : ∀ m : BitVec 4, m ≠ 0 → (0 :: ls).count m = ls.count m :=
        fun m hm => List.count_cons_of_ne hm.symm
      rw [if_pos rfl, ih]
      refine ⟨fun h => ⟨fun h0 => absurd rfl h0, fun m hm hm0 => ?_⟩, fun h m hm hm0 => ?_⟩
      · exact (hcount m hm0).symm ▸ h m hm hm0
      · exact hcount m hm0 ▸ h.2 m hm hm0
    · rw [if_neg hl, Bool.and_eq_true, decide_eq_true_iff, ← takeNumber, ih, List.count_cons_self]
      simp only [reg_takeNumber, List.count_cons, beq_iff_eq, BitVec.toNat_inj, Nat.add_assoc,
        Nat.add_comm (List.count _ _)]
      refine and_congr_left fun htail => ⟨fun hhead _ => ?_, fun hhead => ?_⟩
      · by_cases hmem : l ∈ ls
        · simpa using htail l hmem hl
        · rwa [List.count_eq_zero.2 hmem]
      · have := hhead hl
        omega

/-- With no used symbol, no code is assigned: the codes of length 0 end at 0. -/
theorem firstCode_add_reg_maxLength_of_unused {lens : List (BitVec 4)} (h : maxLength lens = 0) :
    firstCode (countLengths lens) (maxLength lens) + reg (countLengths lens) (maxLength lens) = 0 := by
  rw [h, reg_countLengths_zero]
  rfl

/-- The third method of R80 gives the verdict of R67: the greatest length's entry of `next_code` ends
where its codes end. -/
theorem not_overSubscribed_iff_incrementsStayWithin (lens : List (BitVec 4)) :
    overSubscribed lens = false ↔
      incrementsStayWithin (firstCodes (countLengths lens) (maxLength lens)) lens = true := by
  have hend {l : BitVec 4} (hmem : l ∈ lens) (hl : l ≠ 0) :
      reg (firstCodes (countLengths lens) (maxLength lens)) l.toNat + lens.count l =
        firstCode (countLengths lens) l.toNat + reg (countLengths lens) l.toNat := by
    rw [reg_firstCodes_maxLength _ (le_maxLength hmem), reg_countLengths_eq_count _ hl]
  rw [incrementsStayWithin_iff]
  refine ⟨fun h l hmem hl => ?_, fun h => ?_⟩
  · rw [hend hmem hl]
    exact firstCode_add_reg_le ((not_overSubscribed_iff lens).1 h) (Nat.le_of_lt_succ l.isLt)
  · rw [← Bool.not_eq_true, overSubscribed_iff_maxLength, Nat.not_lt]
    obtain hmax | hmax := Nat.eq_zero_or_pos (maxLength lens)
    · rw [firstCode_add_reg_maxLength_of_unused hmax]
      exact Nat.zero_le _
    · obtain ⟨l, hmem, hmaxl⟩ := exists_mem_maxLength hmax
      have hl : l ≠ 0 := fun h0 => by rw [h0] at hmaxl; exact hmax.ne hmaxl
      rw [← hmaxl, ← hend hmem hl]
      exact h l hmem hl

/-- Settles O22: every method looks at where the codes of a length end, and those of the greatest length
end, scaled, at `kraft`. -/
theorem theDetectionMethodsAndTheLoopBoundsAgree :
    Obligations.TheDetectionMethodsAndTheLoopBoundsAgree := by
  have hall (lens : List (BitVec 4)) {b : Nat} (hb : b ≤ 15) :
      reg (firstCodes (countLengths lens) 15) b = firstCode (countLengths lens) b :=
    (reg_firstCodes _ _ (Nat.lt_succ_of_le hb)).trans (if_pos hb)
  have hsame (lens : List (BitVec 4)) {b : Nat} (hb : b ≤ maxLength lens) :
      reg (firstCodes (countLengths lens) 15) b =
        reg (firstCodes (countLengths lens) (maxLength lens)) b :=
    (hall lens (Nat.le_of_lt_succ (hb.trans_lt (maxLength_lt lens)))).trans
      (reg_firstCodes_maxLength lens hb).symm
  simp only [Obligations.TheDetectionMethodsAndTheLoopBoundsAgree,
    reg_firstCodes_maxLength _ le_rfl, kraftSum_countLengths]
  refine ⟨fun lens => ⟨fun b => hsame lens, ?_, fun hvalid b hb => ?_⟩,
    fun lens _ => firstCode_add_reg_maxLength_scaled lens, overSubscribed_iff_maxLength,
    fun lens hmax => ?_, not_overSubscribed_iff_incrementsStayWithin⟩
  · exact assign_congr fun l hl => hsame lens (le_maxLength hl)
  · rw [hall lens hb]
    exact (Nat.le_add_right _ _).trans (firstCode_add_reg_le hvalid hb)
  · rw [← Bool.not_eq_true, overSubscribed_iff_maxLength, and_self,
      firstCode_add_reg_maxLength_of_unused hmax]
    exact Nat.not_lt_zero _

/-! ## Sizes, lengths and sentinels -/

/-- A result has the entry of a symbol's length at the symbol (R72 (a)). -/
theorem build_getElem?_len {lens : List (BitVec 4)} {out : List CodeEntry} (h : build lens = .ok out)
    {s : Nat} {e : CodeEntry} (he : out[s]? = some e) : lens[s]? = some e.len := by
  obtain ⟨-, rfl⟩ := build_eq_ok_iff.1 h
  have hlens : (assignAll lens).1.map CodeEntry.len = lens := assign_lens _ _
  rw [← hlens, List.getElem?_map, he]
  rfl

/-- An entry of a result is the sentinel exactly when its length is 0: no code has 0 bits but 0
(R72 (b)). -/
theorem build_len_eq_zero_iff {lens : List (BitVec 4)} {out : List CodeEntry}
    (h : build lens = .ok out) {e : CodeEntry} (he : e ∈ out) : e.len = 0 ↔ e = sentinel := by
  refine ⟨fun hlen => ?_, fun hs => hs ▸ rfl⟩
  have hcode := build_code_lt h e he
  obtain ⟨code, len⟩ := e
  obtain rfl : len = 0 := hlen
  obtain rfl : code = 0 := BitVec.eq_of_toNat_eq (Nat.lt_one_iff.1 hcode)
  rfl

theorem build_unused {lens : List (BitVec 4)} (h : ∀ l ∈ lens, l = 0) :
    build lens = .ok (List.replicate lens.length sentinel) := by
  have hb := build_of_valid ((k15_unused h).trans_le (Nat.zero_le _))
  rw [hb, Except.ok.injEq, List.eq_replicate_iff]
  refine ⟨build_ok_length hb, fun e he => (build_len_eq_zero_iff hb he).1 ?_⟩
  obtain ⟨s, hs⟩ := List.getElem?_of_mem he
  exact h _ (List.mem_of_getElem? (build_getElem?_len hb hs))

/-- Settles O23: the entries carry the profile's lengths, a code of length 0 is 0, and the profiles of one
symbol are fifteen. -/
theorem buildKeepsLengthsAndMarksUnusedSymbols :
    Obligations.BuildKeepsLengthsAndMarksUnusedSymbols := by
  refine ⟨fun lens out h => ⟨build_ok_length h, fun s e he => ?_⟩, fun lens => build_unused, by decide⟩
  exact ⟨build_getElem?_len h he, build_len_eq_zero_iff h (List.mem_of_getElem? he)⟩

end Sys2Proof.Machine
end

section
/-! Canonical order, and that no code begins another: R72 (c), (d) (O24, O25). -/

namespace Sys2Proof.Machine

/-- The codes of a result are its profile's numbers: R69 as a statement of `Build`. -/
theorem build_entry {lens : List (BitVec 4)} {out : List CodeEntry} (h : build lens = .ok out)
    {s : Nat} {e : CodeEntry} (he : out[s]? = some e) (hl : e.len ≠ 0) :
    e = codeEntry (codeNumber lens s e.len) e.len := by
  have hs := build_getElem?_len h he
  obtain ⟨-, rfl⟩ := build_eq_ok_iff.1 h
  exact Option.some.inj (he.symm.trans (assignAll_getElem? hs hl))

/-- The stored code is the reversal itself: it has no more than 15 bits (R64, R69). -/
theorem codeEntry_code_toNat (c : Nat) (l : BitVec 4) :
    (codeEntry c l).code.toNat = rev c l.toNat :=
  (BitVec.toNat_ofNat ..).trans (Nat.mod_eq_of_lt ((rev_lt c _).trans_le
    (Nat.pow_le_pow_right two_pos (Nat.le_of_lt_succ l.isLt))))

theorem unreversed_codeEntry {c : Nat} {l : BitVec 4} (h : c < 2 ^ l.toNat) :
    unreversed (codeEntry c l) = c := by
  rw [unreversed, codeEntry_code_toNat]
  exact rev_rev h

/-- Symbol `s` of length `l` precedes symbol `t` of length `m` in canonical order. -/
def Precedes (s t : Nat) (l m : BitVec 4) : Prop := l.toNat < m.toNat ∨ l = m ∧ s < t

/-- The number after an earlier code, continued to the later code's length, is at most the later code
(R72 (c)): the later code begins past every continuation of the earlier one. -/
theorem codeNumber_succ_mul_le {lens : List (BitVec 4)} {s t : Nat} {l m : BitVec 4}
    (hs : lens[s]? = some l) (hl : l ≠ 0) (h : Precedes s t l m) :
    (codeNumber lens s l + 1) * 2 ^ (m.toNat - l.toNat) ≤ codeNumber lens t m := by
  obtain hlm | ⟨rfl, hst⟩ := h
  · have hused : codeNumber lens s l + 1 ≤
        firstCode (countLengths lens) l.toNat + reg (countLengths lens) l.toNat := by
      rw [reg_countLengths_eq_count _ hl]
      exact Nat.add_lt_add_left (count_take_lt_count hs) _
    calc (codeNumber lens s l + 1) * 2 ^ (m.toNat - l.toNat)
      _ ≤ (firstCode (countLengths lens) l.toNat + reg (countLengths lens) l.toNat)
            * 2 ^ (m.toNat - l.toNat) := Nat.mul_le_mul_right _ hused
      _ ≤ firstCode (countLengths lens) m.toNat := firstCode_add_reg_mul_two_pow_le _ hlm
      _ ≤ codeNumber lens t m := Nat.le_add_right _ _
  · have hs' : (lens.take t)[s]? = some l := by rw [List.getElem?_take_of_lt hst, hs]
    have hcount := count_take_lt_count hs'
    rw [List.take_take, Nat.min_eq_left hst.le] at hcount
    rw [Nat.sub_self, Nat.pow_zero, Nat.mul_one]
    exact Nat.add_lt_add_left hcount _

section
variable {lens : List (BitVec 4)} {out : List CodeEntry} (hb : build lens = .ok out)
include hb

/-- The unreversed code of an entry is its number (R69, R72 (c)). -/
theorem unreversed_eq_codeNumber {s : Nat} {e : CodeEntry} (he : out[s]? = some e)
    (hl : e.len ≠ 0) : unreversed e = codeNumber lens s e.len := by
  have hlt := codeNumber_lt (build_eq_ok_iff.1 hb).1 (build_getElem?_len hb he) hl
  rw [build_entry hb he hl]
  exact unreversed_codeEntry hlt

/-- R72 (c) on the entries of a result. -/
theorem unreversed_succ_mul_le {s t : Nat} {e f : CodeEntry} (he : out[s]? = some e)
    (hf : out[t]? = some f) (hle : e.len ≠ 0) (hlf : f.len ≠ 0) (h : Precedes s t e.len f.len) :
    (unreversed e + 1) * 2 ^ (f.len.toNat - e.len.toNat) ≤ unreversed f := by
  rw [unreversed_eq_codeNumber hb he hle, unreversed_eq_codeNumber hb hf hlf]
  exact codeNumber_succ_mul_le (build_getElem?_len hb he) hle h

/-- The stored code of an entry is the reversal of its unreversed code. -/
theorem code_toNat_eq_rev {s : Nat} {e : CodeEntry} (he : out[s]? = some e) :
    e.code.toNat = rev (unreversed e) e.len.toNat := by
  rw [unreversed, rev_rev (build_code_lt hb e (List.mem_of_getElem? he))]

/-- The leading bits of an unreversed code are not another code that is no longer (R72 (d)). -/
theorem leadingBits_ne {s t : Nat} {e f : CodeEntry} (he : out[s]? = some e)
    (hf : out[t]? = some f) (hst : s ≠ t) (hle : e.len ≠ 0) (hlen : e.len.toNat ≤ f.len.toNat) :
    unreversed f / 2 ^ (f.len.toNat - e.len.toNat) ≠ unreversed e := by
  have hlf : f.len ≠ 0 := fun h0 => by
    have := toNat_ne_zero hle
    rw [h0] at hlen
    exact this (Nat.le_zero.1 hlen)
  have hearlier (h : Precedes s t e.len f.len) :
      unreversed f / 2 ^ (f.len.toNat - e.len.toNat) ≠ unreversed e :=
    Nat.ne_of_gt ((Nat.le_div_iff_mul_le (Nat.two_pow_pos _)).2
      (unreversed_succ_mul_le hb he hf hle hlf h))
  obtain hlt | heq := Nat.lt_or_eq_of_le hlen
  · exact hearlier (.inl hlt)
  · have heq : e.len = f.len := BitVec.eq_of_toNat_eq heq
    obtain hst | hts := Nat.lt_or_gt_of_ne hst
    · exact hearlier (.inr ⟨heq, hst⟩)
    · have hlater := unreversed_succ_mul_le hb hf he hlf hle (.inr ⟨heq.symm, hts⟩)
      rw [heq, Nat.sub_self, Nat.pow_zero, Nat.mul_one] at hlater
      rw [heq, Nat.sub_self, Nat.pow_zero, Nat.div_one]
      exact Nat.ne_of_lt hlater

end

/-- Settles O24: a code's number, and the place of the numbers after it. -/
theorem buildAssignsCodesInCanonicalOrder : Obligations.BuildAssignsCodesInCanonicalOrder := by
  intro lens out hb s t e f he hf hle hlf
  have horder := unreversed_succ_mul_le hb he hf hle hlf
  refine ⟨unreversed_eq_codeNumber hb he hle, fun heq hst => ?_, fun hlt => ?_⟩
  · simpa [heq] using horder (.inr ⟨heq, hst⟩)
  · exact (Nat.mul_lt_mul_of_pos_right (Nat.lt_succ_self _) (Nat.two_pow_pos _)).trans_le
      (horder (.inl hlt))

/-- Settles O25: the low bits of a stored code are the leading bits of the unreversed one, reversed. -/
theorem builtCodesArePrefixFree : Obligations.BuiltCodesArePrefixFree := by
  intro lens out hb s t e f he hf hst hle hlen
  have hleading := leadingBits_ne hb he hf hst hle hlen
  refine ⟨hleading, fun hlow => hleading ?_⟩
  have hfits : unreversed f / 2 ^ (f.len.toNat - e.len.toNat) < 2 ^ e.len.toNat := by
    rw [Nat.div_lt_iff_lt_mul (Nat.two_pow_pos _), ← Nat.pow_add, Nat.add_sub_cancel' hlen]
    exact rev_lt _ _
  rw [code_toNat_eq_rev hb hf, rev_mod_two_pow _ hlen] at hlow
  rw [← rev_rev hfits, hlow, unreversed]

end Sys2Proof.Machine
end

section
/-! The two fixed codes, symbol by symbol: R78, R79 (O26, O27). -/

namespace Sys2Proof.Machine

/-! ## Profiles made of runs -/

theorem maxLength_append (ls ms : List (BitVec 4)) :
    maxLength (ls ++ ms) = max (maxLength ls) (maxLength ms) := by
  induction ls with
  | nil => exact (Nat.zero_max _).symm
  | cons l ls ih => rw [List.cons_append, maxLength, maxLength, ih, Nat.max_assoc]

theorem maxLength_replicate_succ (n : Nat) (l : BitVec 4) :
    maxLength (List.replicate (n + 1) l) = l.toNat := by
  induction n with
  | zero => exact Nat.max_zero _
  | succ n ih => rw [List.replicate_succ, maxLength, ih, Nat.max_self]

/-- The shortest length's first code is 0 (R68). -/
theorem firstCode_eq_zero {bl : Vector Nat 16} {b : Nat} (h : ∀ j < b, reg bl j = 0) :
    firstCode bl b = 0 := by
  induction b with
  | zero => rfl
  | succ b ih => rw [firstCode_succ, ih fun j hj => h j (by omega), h b (Nat.lt_succ_self b)]

/-- A run of symbols of one length gets consecutive numbers (R69): the run begins at symbol `k`, after
`m` symbols of its length, with the number `c`. -/
theorem build_run {lens : List (BitVec 4)} {out : List CodeEntry} (hb : build lens = .ok out)
    (ls ms : List (BitVec 4)) {l : BitVec 4} (hl : l ≠ 0) {n k f m c s : Nat}
    (hlens : lens = ls ++ (List.replicate n l ++ ms)) (hk : ls.length = k) (hm : ls.count l = m)
    (hf : firstCode (countLengths lens) l.toNat = f) (hc : f + m = c) (hs : k ≤ s)
    (hend : s < k + n) : out[s]? = some (codeEntry (c + (s - k)) l) := by
  subst hk hm hf hc
  obtain ⟨-, rfl⟩ := build_eq_ok_iff.1 hb
  have hmem : lens[s]? = some l := by
    rw [hlens, List.getElem?_append_right hs, List.getElem?_append_left (by simp; omega),
      List.getElem?_replicate_of_lt (by omega)]
  have htake : (lens.take s).count l = ls.count l + (s - ls.length) := by
    rw [hlens, List.take_append, List.take_of_length_le hs, List.take_append_of_le_length
      (by simp; omega), List.take_replicate, Nat.min_eq_left (by omega), List.count_append,
      List.count_replicate_self]
  rw [assignAll_getElem? hmem hl, Nat.add_assoc, ← htake]
  rfl

/-! ## The fixed literal/length code -/

theorem maxLength_profileLL : maxLength Config.profileLL = 9 := by
  simp only [Config.profileLL, maxLength_append, maxLength_replicate_succ 143,
    maxLength_replicate_succ 111, maxLength_replicate_succ 23, maxLength_replicate_succ 7]
  rfl

theorem reg_countLengths_profileLL {b : Nat} (hb : b < 16) : reg (countLengths Config.profileLL) b =
    if b = 7 then 24 else if b = 8 then 152 else if b = 9 then 112 else 0 := by
  rw [reg_countLengths _ _ hb]
  simp only [Config.profileLL, List.countP_append, List.countP_replicate]
  interval_cases b <;> rfl

theorem firstCode_profileLL_seven : firstCode (countLengths Config.profileLL) 7 = 0 :=
  firstCode_eq_zero fun j hj => by
    rw [reg_countLengths_profileLL (by omega), if_neg (by omega), if_neg (by omega), if_neg (by omega)]

theorem firstCode_profileLL_eight : firstCode (countLengths Config.profileLL) 8 = 48 := by
  rw [firstCode_succ, firstCode_profileLL_seven, reg_countLengths_profileLL (by decide)]
  rfl

theorem firstCode_profileLL_nine : firstCode (countLengths Config.profileLL) 9 = 400 := by
  rw [firstCode_succ, firstCode_profileLL_eight, reg_countLengths_profileLL (by decide)]
  rfl

/-- `PROFILE_LL` as four runs (R6). -/
theorem profileLL_runs : Config.profileLL =
    List.replicate 144 8 ++ (List.replicate 112 9 ++ (List.replicate 24 7 ++ List.replicate 8 8)) := by
  rw [Config.profileLL, List.append_assoc, List.append_assoc]

/-- Settles O26: the profile is four runs, and each gets consecutive numbers from the first code of its
length or, the last one, from where the first run ends. -/
theorem theFixedLiteralLengthCode : Obligations.TheFixedLiteralLengthCode := by
  have hfirst {b : Nat} (h : b ≤ 9) : reg (firstCodes (countLengths Config.profileLL) 9) b =
      firstCode (countLengths Config.profileLL) b :=
    (reg_firstCodes _ _ (by omega)).trans (if_pos h)
  have hb := build_profileLL_entries
  have hrun1 (s : Nat) (h : s < 144) : fixllEntries[s]? = some (codeEntry (48 + s) 8) :=
    build_run (l := 8) (n := 144) (k := 0) (c := 48) hb [] _ (by decide)
      (by rw [List.nil_append]; exact profileLL_runs) rfl rfl firstCode_profileLL_eight rfl
      (Nat.zero_le s) (by omega)
  refine ⟨k15_profileLL, maxLength_profileLL, fun b => reg_countLengths_profileLL,
    (hfirst (by decide)).trans firstCode_profileLL_seven,
    (hfirst (by decide)).trans firstCode_profileLL_eight,
    (hfirst (by decide)).trans firstCode_profileLL_nine,
    fixllEntries, hb, fixllEntries_length, hrun1, fun s h1 h2 => ?_, fun s h1 h2 => ?_,
    fun s h1 h2 => ?_, hrun1 0 (by decide)⟩
  · exact build_run (l := 9) (n := 112) (k := 144) (c := 400) hb (List.replicate 144 8) _ (by decide)
      profileLL_runs List.length_replicate List.count_replicate firstCode_profileLL_nine rfl h1 h2
  · rw [← Nat.zero_add (s - 256)]
    refine build_run (l := 7) (n := 24) (k := 256) (c := 0) (m := 0) hb
      (List.replicate 144 8 ++ List.replicate 112 9) _ (by decide)
      (by rw [profileLL_runs, List.append_assoc]) ?_ ?_ firstCode_profileLL_seven rfl h1 h2
    · rw [List.length_append, List.length_replicate, List.length_replicate]
    · rw [List.count_append, List.count_replicate, List.count_replicate]
      rfl
  · refine build_run (l := 8) (n := 8) (k := 280) (c := 192) (m := 144) hb
      (List.replicate 144 8 ++ (List.replicate 112 9 ++ List.replicate 24 7)) [] (by decide) ?_ ?_ ?_
      firstCode_profileLL_eight rfl h1 h2
    · rw [profileLL_runs, List.append_assoc, List.append_assoc, List.append_nil]
    · rw [List.length_append, List.length_append, List.length_replicate, List.length_replicate,
        List.length_replicate]
    · rw [List.count_append, List.count_append, List.count_replicate, List.count_replicate,
        List.count_replicate]
      rfl

/-! ## The fixed distance code -/

theorem reg_countLengths_profileD {b : Nat} (hb : b < 16) :
    reg (countLengths Config.profileD) b = if b = 5 then 32 else 0 := by
  rw [reg_countLengths _ _ hb, Config.profileD, List.countP_replicate]
  interval_cases b <;> rfl

theorem firstCode_profileD_five : firstCode (countLengths Config.profileD) 5 = 0 :=
  firstCode_eq_zero fun j hj => by rw [reg_countLengths_profileD (by omega), if_neg (by omega)]

/-- Settles O27: the profile is one run, and its first code is 0. -/
theorem theFixedDistanceCode : Obligations.TheFixedDistanceCode := by
  have hb := build_profileD_entries
  have hrun (s : Nat) (h : s < 32) : fixdEntries[s]? = some (codeEntry s 5) := by
    have hrun := build_run (l := 5) (n := 32) (k := 0) (c := 0) hb [] [] (by decide)
      (by simp only [List.nil_append, List.append_nil, Config.profileD]) rfl rfl
      firstCode_profileD_five rfl (Nat.zero_le s) (by omega)
    rwa [Nat.sub_zero, Nat.zero_add] at hrun
  refine ⟨k15_profileD, maxLength_replicate_succ 31 5, fun b => reg_countLengths_profileD,
    ((reg_firstCodes _ _ (by decide)).trans (if_pos le_rfl)).trans firstCode_profileD_five,
    fixdEntries, hb, fixdEntries_length, hrun, hrun 1 (by decide), hrun 3 (by decide),
    hrun 31 (by decide)⟩

end Sys2Proof.Machine
end

section
/-! The formats of the builder's four commands and what they do: R73 to R76 (O28 to O31). -/

namespace Sys2Proof.Machine

/-! ## The words of a command -/

/-- What the three formats have in common: after the check of `rsv`, a word is its command when the format
admits `arg`, and is illegal otherwise (R48, R49, R57). -/
theorem command_or_illegal {w : Word} {rest : Except DecodeError Instr} {i : Instr} {argOk : Prop}
    (hdec : decode w = needRsvZero w rest) (hok : argOk → rest = .ok i)
    (herr : ¬ argOk → ∃ e, rest = .error e) :
    (rsvField w = 0 → argOk → decode w = .ok i) ∧
    ((rsvField w ≠ 0 ∨ ¬ argOk) → ∀ s, acceptWord w s = .next (s.answered 4 0)) := by
  rw [needRsvZero] at hdec
  by_cases hrsv : rsvField w = 0
  · rw [if_pos hrsv] at hdec
    refine ⟨fun _ harg => hdec.trans (hok harg), fun hbad s => ?_⟩
    obtain ⟨e, he⟩ := herr (hbad.resolve_left (not_not_intro hrsv))
    exact acceptWord_error (hdec.trans he) s
  · rw [if_neg hrsv] at hdec
    exact ⟨fun h => absurd h hrsv, fun _ => acceptWord_error hdec⟩

theorem formatN_of_decode {op : BitVec 8} {i : Instr}
    (h : ∀ w, opField w = op → decode w = decodeN w i) : FormatN op i := fun w hw =>
  command_or_illegal (h w hw) (fun harg => if_pos harg) (fun harg => ⟨_, if_neg harg⟩)

theorem formatL_of_decode {op : BitVec 8} {mk : Nat → Instr}
    (h : ∀ w, opField w = op → decode w = decodeL w mk) : FormatL op mk := by
  intro w hw
  rw [← Nat.not_lt]
  refine command_or_illegal (h w hw) (fun harg => ?_) (fun harg => ⟨.lengthTooWide, ?_⟩)
  · rw [if_pos ((highBits_eq_zero_iff _).2 harg), BitVec.extractLsb'_toNat, Nat.shiftRight_zero,
      Nat.mod_eq_of_lt harg]
  · exact if_neg (mt (highBits_eq_zero_iff _).1 harg)

theorem formatA_of_decode {op : BitVec 8} {mk : Nat → Instr}
    (h : ∀ w, opField w = op → decode w = decodeA w mk) : FormatA op mk := by
  intro w hw
  have hcases := command_or_illegal (argOk := True) (h w hw) (fun _ => rfl)
    (fun hno => absurd trivial hno)
  simpa using hcases

theorem formatN_clrp : FormatN 0x10 .clrp :=
  formatN_of_decode fun w h => by simp only [decode, h]; rfl

theorem formatL_pushlen : FormatL 0x11 .pushlen :=
  formatL_of_decode fun w h => by simp only [decode, h]; rfl

theorem formatN_build : FormatN 0x12 .build :=
  formatN_of_decode fun w h => by simp only [decode, h]; rfl

theorem formatA_rdcode : FormatA 0x13 .rdcode :=
  formatA_of_decode fun w h => by simp only [decode, h]; rfl

/-! ## `RDCODE` -/

/-- Without a result every `RDCODE` answers `ProtocolError` (R76). -/
theorem exec_rdcode_of_not_cv {s : State} (h : s.cv = false) (sym : Nat) :
    exec (.rdcode sym) s = .next (s.answered 5 0) := by
  simp only [exec, execRdcode, h, checked_false]
  rfl

/-- With a result a symbol outside the profile is outside its domain (R76). -/
theorem exec_rdcode_outside {s : State} (hcv : s.cv = true) {sym : Nat} (h : s.nsym.toNat ≤ sym) :
    exec (.rdcode sym) s = .next (s.answered 2 0) := by
  have hsym : symbolInProfile s sym = false := decide_eq_false (Nat.not_lt.2 h)
  simp only [exec, execRdcode, hcv, hsym, checked_true_false]
  rfl

/-- With a result a symbol of the profile is answered with its packed entry (R76). -/
theorem exec_rdcode_inside {s : State} (hcv : s.cv = true) {sym : Nat} (h : sym < s.nsym.toNat) :
    exec (.rdcode sym) s = .next (s.answered 0 (packCode (s.readCode sym))) := by
  have hsym : symbolInProfile s sym = true := decide_eq_true h
  simp only [exec, execRdcode, hcv, hsym, checked_true_true]
  rfl

/-- In the states of the invariant, `CODE` lists the profile's result (R33 (d)). -/
theorem lookup_code_of_inv {s : State} (hs : s.Inv) (hcv : s.cv = true) {out : List CodeEntry}
    (hb : build s.profile = .ok out) {sym : Nat} (h : sym < s.nsym.toNat) :
    s.mem.code.lookup sym = out[sym]? := by
  obtain ⟨out', hb', hcode⟩ := hs.codeValid hcv
  cases hb'.symm.trans hb
  exact hcode sym h

theorem profile_getElem? {s : State} {i : Nat} (h : i < s.nsym.toNat) :
    s.profile[i]? = some (s.readLen i) := by
  rw [State.profile, List.getElem?_map, List.getElem?_range h]
  rfl

/-- What `RDCODE` answers in the states of the invariant: a packed entry of the profile's result. -/
theorem exec_rdcode_of_inv {s : State} (hs : s.Inv) (hcv : s.cv = true) {out : List CodeEntry}
    (hb : build s.profile = .ok out) {sym : Nat} {e : CodeEntry} (he : out[sym]? = some e) :
    exec (.rdcode sym) s = .next (s.answered 0 (packCode e)) := by
  have hsym : sym < s.nsym.toNat := by
    rw [← profile_length s, ← build_ok_length hb]
    exact (List.getElem?_eq_some_iff.1 he).1
  rw [exec_rdcode_inside hcv hsym, State.readCode, lookup_code_of_inv hs hcv hb hsym, he]
  rfl

/-- Settles O31: the checks in their order; and in the states of the invariant the entry read is that of
the profile's result. -/
theorem rdcodeReadsOneEntryOfAValidResult : Obligations.RdcodeReadsOneEntryOfAValidResult := by
  refine ⟨formatA_rdcode, fun s sym h => exec_rdcode_of_not_cv h sym,
    fun s sym hcv h => exec_rdcode_outside hcv h, fun s sym hcv h => exec_rdcode_inside hcv h,
    fun s sym hs hcv hsym => ?_, fun s hs hcv hprofile => ?_⟩
  · obtain ⟨out, hb, -⟩ := hs.codeValid hcv
    obtain ⟨e, he⟩ : ∃ e, out[sym]? = some e := by
      rw [← profile_length s, ← build_ok_length hb] at hsym
      exact ⟨_, List.getElem?_eq_getElem hsym⟩
    refine ⟨by rw [lookup_code_of_inv hs hcv hb hsym, he]; rfl, fun hlen => ?_⟩
    have hzero : e.len = 0 := by
      have := (profile_getElem? hsym).symm.trans (build_getElem?_len hb he)
      rw [← Option.some.inj this, hlen]
    rw [exec_rdcode_of_inv hs hcv hb he,
      (build_len_eq_zero_iff hb (List.mem_of_getElem? he)).1 hzero]
    rfl
  · have hb := build_of_valid (lens := s.profile) (by rw [hprofile]; decide)
    have he : (assignAll s.profile).1[1]? = some ⟨6, 3⟩ := by rw [hprofile]; decide
    have hnsym : s.nsym.toNat = 8 := by rw [← profile_length, hprofile]; rfl
    exact ⟨exec_rdcode_of_inv hs hcv hb he, exec_rdcode_outside hcv hnsym.le⟩

/-! ## `CLRP` and `PUSHLEN` -/

/-- Settles O28: the effect of `CLRP` is its definition, and it clears `CV`. -/
theorem clrpEmptiesTheProfileInEveryMode : Obligations.ClrpEmptiesTheProfileInEveryMode :=
  ⟨formatN_clrp, by decide, fun _ => ⟨_, rfl, rfl, exec_rdcode_of_not_cv rfl⟩⟩

/-- `PUSHLEN` with room (R74). -/
theorem exec_pushlen_room {s : State} (h : s.nsym.toNat < s.cfg.nsymMax) (len : Nat) :
    exec (.pushlen len) s = .next (s.pushed (BitVec.ofNat 4 len)) := by
  have hroom : s.hasRoom = true := decide_eq_true h
  simp only [exec, execPushlen, hroom, checked_true_true, State.pushed]

/-- `PUSHLEN` with a full buffer (R74). -/
theorem exec_pushlen_full {s : State} (h : s.cfg.nsymMax ≤ s.nsym.toNat) (len : Nat) :
    exec (.pushlen len) s = .next (s.answered 5 0) := by
  have hroom : s.hasRoom = false := decide_eq_false (Nat.not_lt.2 h)
  simp only [exec, execPushlen, hroom, checked_false]
  rfl

/-- `NSYM` does not wrap: it is below `NSYM_MAX`, which is at most 65535 (R7). -/
theorem nsym_pushed {s : State} (h : s.nsym.toNat < s.cfg.nsymMax) (l : BitVec 4) :
    (s.pushed l).nsym.toNat = s.nsym.toNat + 1 := by
  have hmax := s.cfg.nsymMax_bounds.2
  show (s.nsym + 1).toNat = _
  bv_omega

/-- The length pushed is read at the index that `NSYM` had, and every other as before (R74). -/
theorem readLen_pushed (s : State) (l : BitVec 4) (i : Nat) :
    (s.pushed l).readLen i = if i = s.nsym.toNat then l else s.readLen i := by
  show ((s.mem.len.put s.nsym.toNat l).lookup i).getD _ = _
  rw [lookup_put]
  split <;> rfl

/-- Settles O29: `PUSHLEN` with room is one write at the index `NSYM`, and it clears `CV`. -/
theorem pushlenAppendsOneLengthOrRejects : Obligations.PushlenAppendsOneLengthOrRejects := by
  refine ⟨formatL_pushlen, fun s len hlen hroom => ?_, fun s len h => exec_pushlen_full h len⟩
  refine ⟨_, exec_pushlen_room hroom len, rfl, nsym_pushed hroom _, ?_, fun i hi => ?_,
    exec_rdcode_of_not_cv rfl⟩
  · rw [readLen_pushed, if_pos rfl, BitVec.toNat_ofNat, Nat.mod_eq_of_lt (Nat.lt_succ_of_le hlen)]
  · rw [readLen_pushed, if_neg hi]

/-! ## `BUILD` -/

/-- `s` after a `BUILD` that wrote the codes `out` (R75). -/
def State.built (s : State) (out : List CodeEntry) : State :=
  State.answered { s.writeCodes out with cv := true, work := workAfter s.work s.profile } 0 0

/-- `s` after a `BUILD` on an over-subscribed profile (R75). -/
def State.notBuilt (s : State) : State :=
  State.answered { s with cv := false, work := workAfter s.work s.profile } 1 0

theorem exec_build_ok {s : State} {out : List CodeEntry} (h : build s.profile = .ok out) :
    exec .build s = .next (s.built out) := by
  obtain ⟨herr, -⟩ | ⟨out', hok, hrun⟩ := runBuild_cases s
  · cases herr.symm.trans h
  · cases hok.symm.trans h
    exact congrArg Host.Outcome.next hrun

theorem exec_build_overSubscribed {s : State} (h : 32768 < k15 s.profile) :
    exec .build s = .next s.notBuilt := by
  obtain ⟨-, hrun⟩ | ⟨out, hok, -⟩ := runBuild_cases s
  · exact congrArg Host.Outcome.next hrun
  · cases hok.symm.trans (build_of_overSubscribed h)

/-- `BUILD` leaves the profile loaded (R75). -/
@[simp] theorem profile_built (s : State) (out : List CodeEntry) : (s.built out).profile = s.profile :=
  profile_congr rfl rfl rfl

@[simp] theorem profile_notBuilt (s : State) : s.notBuilt.profile = s.profile :=
  profile_congr rfl rfl rfl

/-- The codes written are read at the indices they have, and every other as before (R75). -/
theorem readCode_built (s : State) (out : List CodeEntry) (i : Nat) :
    (s.built out).readCode i = out[i]?.getD (s.readCode i) := by
  show ((s.mem.code.putAll (numberFrom 0 out)).lookup i).getD _ = _
  rw [lookup_putAll_numberFrom]
  split
  · next h => rw [List.getElem?_eq_getElem h]; rfl
  · next h => rw [List.getElem?_eq_none (Nat.not_lt.1 h)]; rfl

/-- Settles O30: `Build`'s verdict on the profile decides between the two outcomes, and both leave the
profile as it was, so that the next `BUILD` comes to the same. -/
theorem buildCommandBuildsTheCodeOrClearsCv : Obligations.BuildCommandBuildsTheCodeOrClearsCv := by
  refine ⟨formatN_build, by decide, fun s hvalid => ?_, fun s hover => ?_, by decide, by decide⟩
  · obtain ⟨out, hb⟩ : ∃ out, build s.profile = .ok out := ⟨_, build_of_valid hvalid⟩
    have hlen : out.length = s.nsym.toNat := (build_ok_length hb).trans (profile_length s)
    have hagain : exec .build (s.built out) = .next ((s.built out).built out) :=
      exec_build_ok ((congrArg build (profile_built s out)).trans hb)
    refine ⟨s.built out, out, hb, exec_build_ok hb, rfl, fun i hi => ?_, fun i hi => ?_,
      profile_built s out, fun h0 => ⟨?_, fun sym => ?_⟩, fun hunused i hi => ?_, _, hagain, fun i => ?_⟩
    · rw [readCode_built, List.getElem?_eq_getElem (hlen ▸ hi)]
      rfl
    · rw [readCode_built, List.getElem?_eq_none (hlen ▸ hi)]
      rfl
    · obtain rfl : out = [] := List.length_eq_zero_iff.1 (by rw [hlen, h0]; rfl)
      rfl
    · exact exec_rdcode_outside rfl ((congrArg BitVec.toNat h0).trans_le (Nat.zero_le sym))
    · cases hb.symm.trans (build_unused hunused)
      rw [readCode_built, List.getElem?_replicate_of_lt (by rwa [profile_length])]
      rfl
    · rw [readCode_built, readCode_built]
      cases out[i]? <;> rfl
  · exact ⟨s.notBuilt, exec_build_overSubscribed hover, rfl, profile_notBuilt s, _,
      exec_build_overSubscribed (by rwa [profile_notBuilt]), rfl⟩

end Sys2Proof.Machine
end

section
/-! The distance index: its formula, the distances of a slot and the first of them: R86, R87 (O32). -/

namespace Sys2Proof.Machine

theorem distanceIndex_of_le {d : Nat} (h : d ≤ 256) : distanceIndex d = d - 1 := if_pos h

theorem distanceIndex_of_gt {d : Nat} (h : 256 < d) : distanceIndex d = 256 + (d - 1) / 128 := by
  rw [distanceIndex, if_neg (Nat.not_le.2 h), Nat.shiftRight_eq_div_pow]
  rfl

/-- The distances of a slot (R87): one below 256, a block of 128 from 258 up, and none between. -/
theorem distanceIndex_eq_iff {d i : Nat} (h1 : 1 ≤ d) : distanceIndex d = i ↔
    (i < 256 ∧ d = i + 1) ∨ (258 ≤ i ∧ 128 * (i - 256) + 1 ≤ d ∧ d ≤ 128 * (i - 256) + 128) := by
  by_cases h : d ≤ 256
  · rw [distanceIndex_of_le h]
    omega
  · rw [distanceIndex_of_gt (Nat.not_le.1 h)]
    omega

theorem distanceIndex_mono {d₁ d₂ : Nat} (h1 : 1 ≤ d₁) (h : d₁ ≤ d₂) :
    distanceIndex d₁ ≤ distanceIndex d₂ := by
  have hd₁ := (distanceIndex_eq_iff h1).1 rfl
  have hd₂ := (distanceIndex_eq_iff (h1.trans h)).1 rfl
  omega

/-- The least distance of a slot (R87). -/
def firstDistance (i : Nat) : Nat := if i < 256 then i + 1 else 128 * (i - 256) + 1

theorem firstDistance_of_lt {i : Nat} (h : i < 256) : firstDistance i = i + 1 := if_pos h

theorem firstDistance_of_ge {i : Nat} (h : 256 ≤ i) : firstDistance i = 128 * (i - 256) + 1 :=
  if_neg (Nat.not_lt.2 h)

theorem firstDistance_pos (i : Nat) : 1 ≤ firstDistance i := by
  unfold firstDistance
  split <;> omega

theorem firstDistance_le {i : Nat} (h : i < 512) : firstDistance i ≤ 32768 := by
  unfold firstDistance
  split <;> omega

/-- From the slot 258 up, and below the slot 256, the least distances rise with the slot. -/
theorem firstDistance_mono {i j : Nat} (hij : i ≤ j) (hi : i < 256 → j < 256) :
    firstDistance i ≤ firstDistance j := by
  unfold firstDistance
  split <;> split <;> omega

/-- Every slot but 256 and 257 has a distance (R87). -/
theorem distanceIndex_firstDistance {i : Nat} (h256 : i ≠ 256) (h257 : i ≠ 257) :
    distanceIndex (firstDistance i) = i := by
  rw [distanceIndex_eq_iff (firstDistance_pos i)]
  by_cases h : i < 256
  · exact .inl ⟨h, firstDistance_of_lt h⟩
  · rw [firstDistance_of_ge (Nat.not_lt.1 h)]
    omega

/-- Settles O32: the distances of a slot, read in both directions. -/
theorem theDistanceIndexHasItsFormulaAndItsRange :
    Obligations.TheDistanceIndexHasItsFormulaAndItsRange := by
  refine ⟨fun d _ _ => ⟨distanceIndex_of_le, fun h => ⟨if_neg (Nat.not_le.2 h), distanceIndex_of_gt h⟩⟩,
    fun d h1 h => ?_, fun d h h2 => ?_, fun k d hk _ h1 _ => ?_, fun d h1 _ => ?_, fun d h1 h2 => ?_,
    by decide +kernel, fun i hi h256 h257 => ?_, fun d₁ d₂ h1 h _ => distanceIndex_mono h1 h⟩
  · rw [distanceIndex_of_le h]
    omega
  · rw [distanceIndex_of_gt h]
    omega
  · rw [distanceIndex_eq_iff h1]
    omega
  · exact ⟨distanceIndex_ne_of_blank h1 (.inl rfl), distanceIndex_ne_of_blank h1 (.inr rfl)⟩
  · rw [distanceIndex_eq_iff h1]
    omega
  · exact ⟨firstDistance i, firstDistance_pos i, firstDistance_le hi,
      distanceIndex_firstDistance h256 h257⟩

end Sys2Proof.Machine
end

section
/-! Interval tables: the one row of a value, and what it says of the value's class: R81, R82, R85, R92
(O33, O34, O37). -/

namespace Sys2Proof.Machine

/-! ## The rows of a table -/

/-- `WF_SPEC` for one table (R82): `n` rows, codes from `code0`, the domain `lo` to `hi`, and at most
`maxExtra` extra bits. -/
structure IntervalTable (n code0 lo hi maxExtra : Nat) (rows : List SpecRow) : Prop where
  length : rows.length = n
  codes : codesInOrder code0 rows = true
  intervals : contiguous lo hi rows = true
  extras : rows.all (extraOk maxExtra) = true

theorem Configuration.lspec_table (c : Configuration) : IntervalTable 29 257 3 258 5 c.lspec :=
  have ⟨hlength, hcodes, hintervals, hextras⟩ := c.lspec_wf
  ⟨hlength, hcodes, hintervals, hextras⟩

theorem Configuration.dspec_table (c : Configuration) : IntervalTable 30 0 1 32768 13 c.dspec :=
  have ⟨hlength, hcodes, hintervals, hextras⟩ := c.dspec_wf
  ⟨hlength, hcodes, hintervals, hextras⟩

/-- Row `i` of a table is `r`, and it contains `v` (R81). -/
structure RowAt (rows : List SpecRow) (v i : Nat) (r : SpecRow) : Prop where
  row : rows[i]? = some r
  start_le : r.start.toNat ≤ v
  le_stop : v ≤ r.stop.toNat

/-- In a contiguous table a row ends before every later one starts. -/
theorem pairwise_of_contiguous {rows : List SpecRow} {lo hi : Nat} (h : contiguous lo hi rows = true) :
    rows.Pairwise fun r q => r.stop.toNat < q.start.toNat := by
  induction rows generalizing lo with
  | nil => exact .nil
  | cons a rows ih =>
    cases rows with
    | nil => exact List.pairwise_singleton _ _
    | cons b rows =>
      simp only [contiguous, Bool.and_eq_true] at h
      exact .cons (fun q hq => (contiguous_bounds h.2 hq).1) (ih h.2)

theorem code_of_codesInOrder {rows : List SpecRow} {code0 : Nat} (h : codesInOrder code0 rows = true)
    {i : Nat} {r : SpecRow} (hr : rows[i]? = some r) : r.code.toNat = code0 + i := by
  induction rows generalizing code0 i with
  | nil => simp at hr
  | cons a rows ih =>
    simp only [codesInOrder, Bool.and_eq_true, decide_eq_true_eq] at h
    cases i with
    | zero =>
      cases hr
      exact h.1
    | succ i =>
      have := ih h.2 hr
      omega

namespace IntervalTable

variable {n code0 lo hi maxExtra : Nat} {rows : List SpecRow}
  (h : IntervalTable n code0 lo hi maxExtra rows) {i j : Nat} {r q : SpecRow}
include h

theorem index_lt (hr : rows[i]? = some r) : i < n :=
  h.length ▸ (List.getElem?_eq_some_iff.1 hr).1

theorem code_eq (hr : rows[i]? = some r) : r.code.toNat = code0 + i :=
  code_of_codesInOrder h.codes hr

/-- The extra bits are within the bound and number the values of the row (R82). -/
theorem extra_bounds (hr : rows[i]? = some r) :
    r.extra.toNat ≤ maxExtra ∧ r.stop.toNat - r.start.toNat + 1 ≤ 2 ^ r.extra.toNat := by
  simpa [extraOk] using List.all_eq_true.1 h.extras r (List.mem_of_getElem? hr)

theorem start_le_stop (hr : rows[i]? = some r) : r.start.toNat ≤ r.stop.toNat :=
  (contiguous_bounds h.intervals (List.mem_of_getElem? hr)).2.1

theorem stop_lt_start (hr : rows[i]? = some r) (hq : rows[j]? = some q) (hij : i < j) :
    r.stop.toNat < q.start.toNat := by
  obtain ⟨hi, rfl⟩ := List.getElem?_eq_some_iff.1 hr
  obtain ⟨hj, rfl⟩ := List.getElem?_eq_some_iff.1 hq
  exact List.pairwise_iff_getElem.1 (pairwise_of_contiguous h.intervals) i j hi hj hij

/-- Every value of the domain lies in a row. -/
theorem exists_rowAt {v : Nat} (hlo : lo ≤ v) (hhi : v ≤ hi) : ∃ i r, RowAt rows v i r := by
  obtain ⟨r, hr, -, hstart, hstop⟩ := exists_row h.intervals hlo hhi
  obtain ⟨i, hi⟩ := List.mem_iff_getElem?.1 hr
  exact ⟨i, r, hi, hstart, hstop⟩

/-- The class of a value is that of any row it lies in (R81). -/
theorem classify_of_mem {v : Nat} (hr : r ∈ rows) (hstart : r.start.toNat ≤ v)
    (hstop : v ≤ r.stop.toNat) : classify rows v = some (rowEntry r) := by
  rw [classify, find_of_mem h.intervals hr (rowContains_iff.2 ⟨hstart, hstop⟩)]
  rfl

theorem classify_of_rowAt {v : Nat} (hr : RowAt rows v i r) : classify rows v = some (rowEntry r) :=
  h.classify_of_mem (List.mem_of_getElem? hr.row) hr.start_le hr.le_stop

/-- A smaller value lies in no later row. -/
theorem index_mono {a b : Nat} (hr : RowAt rows a i r) (hq : RowAt rows b j q) (hab : a ≤ b) :
    i ≤ j := by
  by_contra hji
  have hlt := h.stop_lt_start hq.row hr.row (Nat.not_le.1 hji)
  have hstart := hr.start_le
  have hstop := hq.le_stop
  omega

/-- No value lies in two rows (R81). -/
theorem index_unique {v : Nat} (hr : RowAt rows v i r) (hq : RowAt rows v j q) : i = j :=
  Nat.le_antisymm (h.index_mono hr hq le_rfl) (h.index_mono hq hr le_rfl)

theorem start_mono (hr : rows[i]? = some r) (hq : rows[j]? = some q) (hij : i ≤ j) :
    r.start.toNat ≤ q.start.toNat := by
  rcases hij.eq_or_lt with rfl | hlt
  · cases hr.symm.trans hq
    exact le_rfl
  · exact (h.start_le_stop hr).trans (h.stop_lt_start hr hq hlt).le

/-- R81 for one table. -/
theorem exists_unique_row {v : Nat} (hlo : lo ≤ v) (hhi : v ≤ hi) : ∃ (i : Nat) (r : SpecRow),
    rows[i]? = some r ∧ r.start.toNat ≤ v ∧ v ≤ r.stop.toNat ∧
    (∀ (j : Nat) (q : SpecRow), rows[j]? = some q → q.start.toNat ≤ v → v ≤ q.stop.toNat → j = i) ∧
    classify rows v = some (rowEntry r) := by
  obtain ⟨i, r, hr⟩ := h.exists_rowAt hlo hhi
  exact ⟨i, r, hr.row, hr.start_le, hr.le_stop,
    fun j q hq hstart hstop => h.index_unique ⟨hq, hstart, hstop⟩ hr, h.classify_of_rowAt hr⟩

end IntervalTable

/-! ## The obligations about the tables of a configuration -/

/-- Settles O33: the rows of a contiguous table follow one another, so that a value lies in one of them
only, and that is the row that `classify` finds. -/
theorem everyValueOfADomainLiesInExactlyOneRow :
    Obligations.EveryValueOfADomainLiesInExactlyOneRow := by
  rintro c rows v (⟨rfl, h1, h2⟩ | ⟨rfl, h1, h2⟩)
  · exact c.lspec_table.exists_unique_row h1 h2
  · exact c.dspec_table.exists_unique_row h1 h2

/-- Settles O34: facts of the rows of the default tables, which are literals. -/
theorem theDefaultTablesHaveTheirProperties : Obligations.TheDefaultTablesHaveTheirProperties := by
  have hlspec : ∀ i < 29, ∀ r ∈ defaultLspec[i]?,
      (r.stop.toNat - r.start.toNat + 1 = 2 ^ r.extra.toNat ↔ i ≠ 27) := by decide
  exact ⟨by decide, by decide, hlspec, by decide, rfl, rfl, by decide, rfl, by decide⟩

/-- Settles O37: a table has as many rows as the reverse map has entries. -/
theorem theReverseMapsHoldTheExtraBitCounts : Obligations.TheReverseMapsHoldTheExtraBitCounts := by
  refine ⟨fun c t => ⟨fun i hi => ?_, fun i hi => ?_⟩, rfl, rfl⟩
  · rw [lookup_buildXtra, if_pos (c.lspec_table.length ▸ hi)]
  · rw [lookup_buildXtra, if_pos (c.dspec_table.length ▸ hi)]

end Sys2Proof.Machine
end

section
/-! `BuildDTAB`: when the consistency check fires, and what the table holds when it does not: R90, R91,
R93 (O35, O36, O38). -/

namespace Sys2Proof.Machine

/-! ## The verdict of the consistency check -/

theorem distanceInDomain_iff (d : Nat) : distanceInDomain d = true ↔ 1 ≤ d ∧ d ≤ 32768 := by
  simp [distanceInDomain]

/-- Distances that share a slot but not a class lie above 256: below it a slot has one distance (R90). -/
theorem lt_distanceIndex_of_conflict {rows : List SpecRow} {d₁ d₂ : Nat} (h₁ : 1 ≤ d₁) (h₂ : 1 ≤ d₂)
    (hidx : distanceIndex d₁ = distanceIndex d₂) (hne : classify rows d₁ ≠ classify rows d₂) :
    255 < distanceIndex d₁ := by
  by_contra hle
  have hd₁ := (distanceIndex_eq_iff h₁).1 rfl
  have hd₂ := (distanceIndex_eq_iff h₂).1 hidx.symm
  exact hne (congrArg _ (by omega))

/-- The loop over a cleared table ends when no two of its distances share a slot but not a class. -/
theorem fillDtab_ends {rows : List SpecRow} {ds : List Nat} (t : Table ClassEntry)
    (hds : ∀ d ∈ ds, d ≤ 32768) (halike : ∀ d₁ ∈ ds, ∀ d₂ ∈ ds,
      distanceIndex d₁ = distanceIndex d₂ → classify rows d₁ = classify rows d₂) :
    ∃ u, fillDtab rows ds (t.putAll (blankWrites 512)) = .ok u := by
  cases hf : fillDtab rows ds (t.putAll (blankWrites 512)) with
  | ok u => exact ⟨u, rfl⟩
  | error u =>
    obtain ⟨d₁, h₁, d₂, h₂, hidx, hne⟩ := fillDtab_error hds (filled_blank rows t) hf
    exact absurd (halike d₁ h₁ d₂ h₂ hidx) hne

/-- The loop over all distances, in any order, raises exactly when the compaction is unsound (R90). -/
theorem fillDtab_raises_iff (c : Configuration) (t : Table ClassEntry) {ds : List Nat}
    (hds : ∀ d, d ∈ ds ↔ 1 ≤ d ∧ d ≤ 32768) :
    (∃ u, fillDtab c.dspec ds (t.putAll (blankWrites 512)) = .error u) ↔
      ¬ CompactionSound c.dspec := by
  constructor
  · rintro ⟨u, hu⟩ hsound
    obtain ⟨v, hv⟩ := fillDtab_ends (rows := c.dspec) t (fun d hd => ((hds d).1 hd).2)
      fun d₁ h₁ d₂ h₂ => hsound d₁ d₂ ((distanceInDomain_iff d₁).2 ((hds d₁).1 h₁))
        ((distanceInDomain_iff d₂).2 ((hds d₂).1 h₂))
    cases hu.symm.trans hv
  · intro hunsound
    cases hf : fillDtab c.dspec ds (t.putAll (blankWrites 512)) with
    | error u => exact ⟨u, rfl⟩
    | ok u =>
      have hslot : ∀ d, distanceInDomain d = true →
          u.lookup (distanceIndex d) = classify c.dspec d := fun d hd => by
        rw [distanceInDomain_iff] at hd
        obtain ⟨r, -, hr, -⟩ := classify_distance c hd.1 hd.2
        rw [hr, (fillDtab_ok hf).1 d ((hds d).2 hd) _ hr]
      refine absurd (fun d₁ d₂ h₁ h₂ hidx => ?_) hunsound
      rw [← hslot d₁ h₁, ← hslot d₂ h₂, hidx]

theorem mem_distances (d : Nat) : d ∈ List.range' 1 32768 ↔ 1 ≤ d ∧ d ≤ 32768 := by
  rw [List.mem_range'_1]
  omega

theorem buildDtab_raises_iff (c : Configuration) (t : Table ClassEntry) :
    (∃ u, buildDtab c.dspec t = .error u) ↔ ¬ CompactionSound c.dspec :=
  fillDtab_raises_iff c t mem_distances

theorem buildDtab_ends {c : Configuration} (h : CompactionSound c.dspec) (t : Table ClassEntry) :
    ∃ u, buildDtab c.dspec t = .ok u := by
  cases hb : buildDtab c.dspec t with
  | ok u => exact ⟨u, rfl⟩
  | error u => exact absurd h ((buildDtab_raises_iff c t).1 ⟨u, hb⟩)

/-- Settles O35: a loop that ends has given every slot the class of all its distances, and one that raises
has met two distances of a slot that differ. -/
theorem theConsistencyCheckFiresExactlyOnAnUnsoundTable :
    Obligations.TheConsistencyCheckFiresExactlyOnAnUnsoundTable := fun c t =>
  ⟨buildDtab_raises_iff c t,
    fun _ hperm => fillDtab_raises_iff c t fun d => hperm.mem_iff.trans (mem_distances d),
    fun _ _ h₁ _ h₂ _ hidx hne => lt_distanceIndex_of_conflict h₁ h₂ hidx hne,
    fun _ hu => ⟨fun _ h1 h2 => lookup_buildDtab hu h1 h2, lookup_buildDtab_blank hu (.inl rfl),
      lookup_buildDtab_blank hu (.inr rfl)⟩⟩

/-! ## The default table -/

/-- A block of 128 lies in one row of the default table (R93). -/
theorem compactionSound_defaultDspec : CompactionSound defaultDspec := by
  intro d₁ d₂ h₁ h₂ hidx
  rw [distanceInDomain_iff] at h₁ h₂
  have hd₁ := (distanceIndex_eq_iff h₁.1).1 hidx
  have hd₂ := (distanceIndex_eq_iff h₂.1).1 rfl
  generalize distanceIndex d₂ = i at hd₁ hd₂
  by_cases hi : i < 256
  · rw [show d₁ = d₂ by omega]
  · rw [classify_block (k := i - 256) (by omega) (by omega) (by omega),
      classify_block (k := i - 256) (d := d₂) (by omega) (by omega) (by omega)]

theorem buildDtab_defaultDspec (t : Table ClassEntry) : ∃ u, buildDtab defaultDspec t = .ok u :=
  buildDtab_ends (c := defaultConfig) compactionSound_defaultDspec t

/-- The entry that a line of the table of R91 lists. -/
def rangeEntry (p : Nat × Nat × Nat × Nat × Nat) : ClassEntry :=
  { v := true, code := BitVec.ofNat 9 p.2.2.1, base := BitVec.ofNat 16 p.2.2.2.1,
    extra := BitVec.ofNat 4 p.2.2.2.2 }

/-- A line of the table of R91 is a row of the default table, read at the least distances of its slots. -/
theorem row_of_dtabRange : ∀ p ∈ dtabRanges, p.2.1 < 512 ∧ (p.1 < 256 → p.2.1 < 256) ∧
    p.1 ≠ 256 ∧ p.1 ≠ 257 ∧ ∃ r ∈ defaultDspec, rowEntry r = rangeEntry p ∧
      r.start.toNat ≤ firstDistance p.1 ∧ firstDistance p.2.1 ≤ r.stop.toNat := by
  decide

/-- Settles O36: a slot holds the class of its least distance, which lies in the row that the line of the
rule's table is taken from. -/
theorem theDefaultDistanceTable : Obligations.TheDefaultDistanceTable := by
  intro t
  obtain ⟨u, hu⟩ := buildDtab_defaultDspec t
  have hslot : ∀ d, 1 ≤ d → d ≤ 32768 → u.lookup (distanceIndex d) = classify defaultDspec d :=
    fun d h1 h2 => lookup_buildDtab (cfg := defaultConfig) hu h1 h2
  refine ⟨u, hu, hslot, fun p hp i hfirst hlast => ?_, lookup_buildDtab_blank hu (.inl rfl),
    lookup_buildDtab_blank hu (.inr rfl)⟩
  obtain ⟨h512, hlow, h256, h257, r, hr, hentry, hstart, hstop⟩ := row_of_dtabRange p hp
  have hi := distanceIndex_firstDistance (i := i) (by omega) (by omega)
  have hclass : classify defaultDspec (firstDistance i) = some (rowEntry r) :=
    defaultConfig.dspec_table.classify_of_mem hr
      (hstart.trans (firstDistance_mono hfirst fun h => hlast.trans_lt (hlow h)))
      ((firstDistance_mono hlast (by omega)).trans hstop)
  calc u.lookup i = u.lookup (distanceIndex (firstDistance i)) := by rw [hi]
    _ = some (rowEntry r) :=
      (hslot _ (firstDistance_pos i) (firstDistance_le (by omega))).trans hclass
    _ = some (rangeEntry p) := congrArg some hentry

/-! ## Misaligned rows -/

/-- A row above 256 that does not start after a multiple of 128 shares its first slot with the row before
it (R93). -/
theorem not_compactionSound_of_misaligned {c : Configuration} {r : SpecRow} (hr : r ∈ c.dspec)
    (h256 : 256 < r.start.toNat) (hmis : (r.start.toNat - 1) % 128 ≠ 0) :
    ¬ CompactionSound c.dspec := by
  intro hsound
  obtain ⟨-, hle, hmax⟩ := contiguous_bounds c.dspec_table.intervals hr
  obtain ⟨i, q, hq⟩ := c.dspec_table.exists_rowAt (v := r.start.toNat - 1) (by omega) (by omega)
  have hidx : distanceIndex (r.start.toNat - 1) = distanceIndex r.start.toNat := by
    rw [distanceIndex_of_gt (by omega), distanceIndex_of_gt h256]
    omega
  have hclass := hsound _ _ ((distanceInDomain_iff _).2 (by omega))
    ((distanceInDomain_iff _).2 (by omega)) hidx
  rw [c.dspec_table.classify_of_rowAt hq, c.dspec_table.classify_of_mem hr le_rfl hle] at hclass
  have hbase : q.start = r.start := congrArg ClassEntry.base (Option.some.inj hclass)
  have hstart := hq.start_le
  rw [hbase] at hstart
  omega

/-- The default `DSPEC` with rows 16 and 17 changed as R93 says. -/
def misalignedDspec : List SpecRow :=
  (defaultDspec.set 16 ⟨16, 7, 257, 383⟩).set 17 ⟨17, 8, 384, 512⟩

theorem contiguous_misalignedDspec : contiguous 1 32768 misalignedDspec = true := by decide

theorem fillDtab_append {rows : List SpecRow} {ds : List Nat} {t u : Table ClassEntry}
    (h : fillDtab rows ds t = .ok u) (es : List Nat) :
    fillDtab rows (ds ++ es) t = fillDtab rows es u := by
  induction ds generalizing t with
  | nil =>
    cases h
    rfl
  | cons d ds ih =>
    have hcons := fillDtab_cons rows d (ds ++ es) t
    rcases fillDtab_cons rows d ds t with ⟨hd, hf⟩ | ⟨e, hd, hc, hf⟩ | ⟨e, hd, hc, hf⟩
    · simpa [fillDtab, hd] using ih (hf.symm.trans h)
    · cases hf.symm.trans h
    · simpa [fillDtab, hd, hc] using ih (hf.symm.trans h)

theorem fillDtab_of_conflicts {rows : List SpecRow} {d : Nat} {t : Table ClassEntry} {e : ClassEntry}
    (hd : classify rows d = some e) (hc : conflicts (t.lookup (distanceIndex d)) e = true)
    (ds : List Nat) : fillDtab rows (d :: ds) t = .error t := by
  simp only [fillDtab, hd, hc, if_true]

/-- The distances 257 to 383 fill slot 258 alike, so the loop over 1 to 383 ends (R93). -/
theorem fillDtab_misaligned_ends (t : Table ClassEntry) : ∃ u,
    fillDtab misalignedDspec (List.range' 1 383) (t.putAll (blankWrites 512)) = .ok u ∧
    u.lookup 258 = some ⟨true, 7, 16, 257⟩ := by
  have hmem : ∀ d ∈ List.range' 1 383, 1 ≤ d ∧ d ≤ 383 := fun d hd => by
    rw [List.mem_range'_1] at hd
    omega
  have hrow : ∀ d, 257 ≤ d → d ≤ 383 → classify misalignedDspec d = some ⟨true, 7, 16, 257⟩ := by
    intro d hlo hhi
    have hc : rowContains d ⟨16, 7, 257, 383⟩ = true := rowContains_iff.2 ⟨hlo, hhi⟩
    rw [classify, find_of_mem contiguous_misalignedDspec (by decide) hc]
    rfl
  obtain ⟨u, hu⟩ := fillDtab_ends (rows := misalignedDspec) (ds := List.range' 1 383) t
    (fun d hd => (hmem d hd).2.trans (by decide)) fun d₁ h₁ d₂ h₂ hidx => by
      by_contra hne
      have h255 := lt_distanceIndex_of_conflict (hmem d₁ h₁).1 (hmem d₂ h₂).1 hidx hne
      have hd₁ := (distanceIndex_eq_iff (hmem d₁ h₁).1).1 rfl
      have hd₂ := (distanceIndex_eq_iff (hmem d₂ h₂).1).1 rfl
      exact hne ((hrow d₁ (by omega) (hmem d₁ h₁).2).trans (hrow d₂ (by omega) (hmem d₂ h₂).2).symm)
  exact ⟨u, hu, (fillDtab_ok hu).1 257 (List.mem_range'_1.2 (by decide)) _
    (hrow 257 (by decide) (by decide))⟩

/-- At the distance 384 the check fires, however many distances follow (R93). -/
theorem fillDtab_misaligned_raises (t : Table ClassEntry) (n : Nat) : ∃ u,
    fillDtab misalignedDspec (List.range' 1 (384 + n)) (t.putAll (blankWrites 512)) = .error u ∧
    u.lookup 258 = some ⟨true, 7, 16, 257⟩ := by
  obtain ⟨u, hu, hslot⟩ := fillDtab_misaligned_ends t
  have hsplit : List.range' 1 (384 + n) = List.range' 1 383 ++ 384 :: List.range' 385 n := by
    rw [show 384 + n = 383 + (n + 1) by omega, ← List.range'_append_1, List.range'_succ (n := n)]
  have hclass : classify misalignedDspec 384 = some ⟨true, 8, 17, 384⟩ := by decide
  have hconflict : conflicts (u.lookup (distanceIndex 384)) ⟨true, 8, 17, 384⟩ = true :=
    (congrArg (conflicts · _) hslot).trans (by decide)
  rw [hsplit, fillDtab_append hu]
  exact ⟨u, fillDtab_of_conflicts hclass hconflict _, hslot⟩

/-- Settles O38: in the default table every block of 128 lies in one row; a row that starts inside a block
shares a slot with the row before it, as 383 and 384 show. -/
theorem compactionIsSoundByDefaultAndNotForMisalignedRows :
    Obligations.CompactionIsSoundByDefaultAndNotForMisalignedRows := by
  refine ⟨compactionSound_defaultDspec, buildDtab_defaultDspec, ?_,
    fun t => fillDtab_misaligned_raises t 32384,
    fun t => ⟨fillDtab_misaligned_ends t, fillDtab_misaligned_raises t 0⟩, by decide, by decide,
    rfl, rfl, rfl, by decide, by decide⟩
  rintro c t ⟨r, hr, h256, hmis⟩
  exact (buildDtab_raises_iff c t).2 (not_compactionSound_of_misaligned hr h256 hmis)

end Sys2Proof.Machine
end

section
/-! The formats of the classifier's seven commands and what they answer: R94 to R100 (O39 to O45). -/

namespace Sys2Proof.Machine

/-! ## The words of the commands -/

theorem formatA_lclass : FormatA 0x20 .lclass :=
  formatA_of_decode fun w h => by simp only [decode, h]; rfl

theorem formatA_dclass : FormatA 0x21 .dclass :=
  formatA_of_decode fun w h => by simp only [decode, h]; rfl

theorem formatA_lxb : FormatA 0x22 .lxb :=
  formatA_of_decode fun w h => by simp only [decode, h]; rfl

theorem formatA_dxb : FormatA 0x23 .dxb :=
  formatA_of_decode fun w h => by simp only [decode, h]; rfl

theorem formatA_didx : FormatA 0x24 .didx :=
  formatA_of_decode fun w h => by simp only [decode, h]; rfl

theorem formatA_rdltab : FormatA 0x25 .rdltab :=
  formatA_of_decode fun w h => by simp only [decode, h]; rfl

theorem formatA_rddtab : FormatA 0x26 .rddtab :=
  formatA_of_decode fun w h => by simp only [decode, h]; rfl

/-! ## The checks -/

theorem lengthInDomain_iff (L : Nat) : lengthInDomain L = true ↔ 3 ≤ L ∧ L ≤ 258 := by
  simp [lengthInDomain]

theorem lengthCodeInRange_iff (c : Nat) : lengthCodeInRange c = true ↔ 257 ≤ c ∧ c ≤ 285 := by
  simp [lengthCodeInRange, Nat.lt_succ_iff]

theorem distanceCodeInRange_iff (c : Nat) : distanceCodeInRange c = true ↔ c ≤ 29 := by
  simp [distanceCodeInRange, Nat.lt_succ_iff]

theorem ltabIndexInRange_iff (i : Nat) : ltabIndexInRange i = true ↔ i ≤ 258 := by
  simp [ltabIndexInRange, Nat.lt_succ_iff]

theorem dtabIndexInRange_iff (i : Nat) : dtabIndexInRange i = true ↔ i ≤ 511 := by
  simp [dtabIndexInRange, Nat.lt_succ_iff]

/-- Outside `READY` a reader of the fixed tables answers `ProtocolError`, whatever its operand (R119). -/
theorem exec_reader_of_not_ready {i : Instr} {s : State} (hi : readsFixedTable i = true)
    (h : s.mode ≠ .ready) : exec i s = .next (s.answered 5 0) := by
  have hchecked : ∀ operandOk body, s.checked s.isReady operandOk body = s.answered 5 0 := by
    rw [show s.isReady = false from decide_eq_false h]
    exact fun _ _ => rfl
  cases i with
  | lclass _ | dclass _ | lxb _ | dxb _ | rdltab _ | rddtab _ | rdfixl _ | rdfixd _ =>
    exact congrArg Host.Outcome.next (hchecked _ _)
  | init | stat | clrp | pushlen _ | build | rdcode _ | didx _ => cases hi

section

variable {s : State} {operandOk : Bool}

/-- An operand out of bounds answers `DomainError` (R117). -/
theorem checked_domainError (h : ¬ operandOk = true) (body : State) :
    s.checked true operandOk body = s.answered 2 0 := by
  rw [Bool.not_eq_true] at h
  rw [h]
  rfl

theorem checked_ready_domainError (hs : s.mode = .ready) (h : ¬ operandOk = true) (body : State) :
    Host.Outcome.next (φ := Fault) (ρ := Refusal) (s.checked s.isReady operandOk body) =
      .next (s.answered 2 0) := by
  rw [show s.isReady = true from decide_eq_true hs, checked_domainError h]

/-- In `READY`, and with its operand in bounds, a reader answers its data. -/
theorem checked_ready_respond (hs : s.mode = .ready) (h : operandOk = true) (data : Word) :
    Host.Outcome.next (φ := Fault) (ρ := Refusal) (s.checked s.isReady operandOk (s.respond data)) =
      .next (s.answered 0 data) := by
  rw [show s.isReady = true from decide_eq_true hs, h]
  rfl

end

theorem packClass_blankEntry : packClass blankEntry = 0 := by decide

section

variable {s : State} (hs : s.mode = .ready)
include hs

theorem exec_lclass_outside {L : Nat} (h : ¬ (3 ≤ L ∧ L ≤ 258)) :
    exec (.lclass L) s = .next (s.answered 2 0) :=
  checked_ready_domainError hs (mt (lengthInDomain_iff L).1 h) _

theorem exec_lclass_inside {L : Nat} (h3 : 3 ≤ L) (h258 : L ≤ 258) :
    exec (.lclass L) s = .next (s.answered 0 (packClass (s.readLtab L))) :=
  checked_ready_respond hs ((lengthInDomain_iff L).2 ⟨h3, h258⟩) _

theorem exec_dclass_outside {d : Nat} (h : ¬ (1 ≤ d ∧ d ≤ 32768)) :
    exec (.dclass d) s = .next (s.answered 2 0) :=
  checked_ready_domainError hs (mt (distanceInDomain_iff d).1 h) _

theorem exec_dclass_inside {d : Nat} (h1 : 1 ≤ d) (h2 : d ≤ 32768) :
    exec (.dclass d) s = .next (s.answered 0 (packClass (s.readDtab (distanceIndex d)))) :=
  checked_ready_respond hs ((distanceInDomain_iff d).2 ⟨h1, h2⟩) _

theorem exec_lxb_outside {c : Nat} (h : ¬ (257 ≤ c ∧ c ≤ 285)) :
    exec (.lxb c) s = .next (s.answered 2 0) :=
  checked_ready_domainError hs (mt (lengthCodeInRange_iff c).1 h) _

theorem exec_lxb_inside {c : Nat} (h257 : 257 ≤ c) (h285 : c ≤ 285) :
    exec (.lxb c) s = .next (s.answered 0 (BitVec.ofNat 32 (s.readLxtra (c - 257)).toNat)) := by
  rw [BitVec.ofNat_toNat]
  exact checked_ready_respond hs ((lengthCodeInRange_iff c).2 ⟨h257, h285⟩) _

theorem exec_dxb_outside {c : Nat} (h : 29 < c) : exec (.dxb c) s = .next (s.answered 2 0) :=
  checked_ready_domainError hs (mt (distanceCodeInRange_iff c).1 (Nat.not_le.2 h)) _

theorem exec_dxb_inside {c : Nat} (h : c ≤ 29) :
    exec (.dxb c) s = .next (s.answered 0 (BitVec.ofNat 32 (s.readDxtra c).toNat)) := by
  rw [BitVec.ofNat_toNat]
  exact checked_ready_respond hs ((distanceCodeInRange_iff c).2 h) _

theorem exec_rdltab_outside {i : Nat} (h : 258 < i) :
    exec (.rdltab i) s = .next (s.answered 2 0) :=
  checked_ready_domainError hs (mt (ltabIndexInRange_iff i).1 (Nat.not_le.2 h)) _

theorem exec_rdltab_inside {i : Nat} (h : i ≤ 258) :
    exec (.rdltab i) s = .next (s.answered 0 (packClass (s.readLtab i))) :=
  checked_ready_respond hs ((ltabIndexInRange_iff i).2 h) _

theorem exec_rddtab_outside {i : Nat} (h : 511 < i) :
    exec (.rddtab i) s = .next (s.answered 2 0) :=
  checked_ready_domainError hs (mt (dtabIndexInRange_iff i).1 (Nat.not_le.2 h)) _

theorem exec_rddtab_inside {i : Nat} (h : i ≤ 511) :
    exec (.rddtab i) s = .next (s.answered 0 (packClass (s.readDtab i))) :=
  checked_ready_respond hs ((dtabIndexInRange_iff i).2 h) _

/-- From 3 up the raw entry is the answer of `LCLASS` (R99). -/
theorem exec_rdltab_eq_lclass {i : Nat} (h3 : 3 ≤ i) (h258 : i ≤ 258) :
    exec (.rdltab i) s = exec (.lclass i) s := by
  rw [exec_rdltab_inside hs h258, exec_lclass_inside hs h3 h258]

/-- The raw entry at the index of a distance is the answer of `DCLASS` (R95, R100). -/
theorem exec_rddtab_distanceIndex {d : Nat} (h1 : 1 ≤ d) (h2 : d ≤ 32768) :
    exec (.rddtab (distanceIndex d)) s = exec (.dclass d) s := by
  rw [exec_rddtab_inside hs (Nat.le_of_lt_succ (distanceIndex_lt h2)), exec_dclass_inside hs h1 h2]

/-! ## The answers, the fixed tables being built -/

variable (ht : FixedTables s.cfg s.mem)
include ht

theorem exec_lclass_of_classify {L : Nat} (h3 : 3 ≤ L) (h258 : L ≤ 258) {e : ClassEntry}
    (he : classify s.cfg.lspec L = some e) :
    exec (.lclass L) s = .next (s.answered 0 (packClass e)) := by
  rw [exec_lclass_inside hs h3 h258, State.readLtab, ht.ltab L h3 h258, he]
  rfl

theorem exec_dclass_of_classify {d : Nat} (h1 : 1 ≤ d) (h2 : d ≤ 32768) {e : ClassEntry}
    (he : classify s.cfg.dspec d = some e) :
    exec (.dclass d) s = .next (s.answered 0 (packClass e)) := by
  rw [exec_dclass_inside hs h1 h2, State.readDtab, ht.dtab d h1 h2, he]
  rfl

theorem exec_lxb_of_row {i : Nat} {r : SpecRow} (hr : s.cfg.lspec[i]? = some r) :
    exec (.lxb (257 + i)) s = .next (s.answered 0 (BitVec.ofNat 32 r.extra.toNat)) := by
  have hi := s.cfg.lspec_table.index_lt hr
  rw [exec_lxb_inside hs (by omega) (by omega), State.readLxtra, Nat.add_sub_cancel_left,
    ht.lxtra i hi, hr]
  rfl

theorem exec_dxb_of_row {i : Nat} {r : SpecRow} (hr : s.cfg.dspec[i]? = some r) :
    exec (.dxb i) s = .next (s.answered 0 (BitVec.ofNat 32 r.extra.toNat)) := by
  have hi := s.cfg.dspec_table.index_lt hr
  rw [exec_dxb_inside hs (by omega), State.readDxtra, ht.dxtra i hi, hr]
  rfl

theorem exec_rdltab_sentinel {i : Nat} (h : i ≤ 2) : exec (.rdltab i) s = .next (s.answered 0 0) := by
  rw [exec_rdltab_inside hs (by omega), State.readLtab, ht.ltabBlank i (by omega),
    Option.getD_some, packClass_blankEntry]

theorem exec_rddtab_blank {i : Nat} (h : i = 256 ∨ i = 257) :
    exec (.rddtab i) s = .next (s.answered 0 0) := by
  rw [exec_rddtab_inside hs (by omega), State.readDtab, ht.dtabBlank i h, Option.getD_some,
    packClass_blankEntry]

end

/-! ## The answers under the default configuration -/

namespace DefaultReady

variable {s : State} (h : DefaultReady s)
include h

theorem exec_lclass {L : Nat} (h3 : 3 ≤ L) (h258 : L ≤ 258) {w : Word}
    (hw : (classify defaultLspec L).map packClass = some w) :
    exec (.lclass L) s = .next (s.answered 0 w) := by
  obtain ⟨hs, hcfg, ht⟩ := h
  obtain ⟨e, he, rfl⟩ := Option.map_eq_some_iff.1 hw
  exact exec_lclass_of_classify hs ht h3 h258 (hcfg ▸ he)

theorem exec_dclass {d : Nat} (h1 : 1 ≤ d) (h2 : d ≤ 32768) {w : Word}
    (hw : (classify defaultDspec d).map packClass = some w) :
    exec (.dclass d) s = .next (s.answered 0 w) := by
  obtain ⟨hs, hcfg, ht⟩ := h
  obtain ⟨e, he, rfl⟩ := Option.map_eq_some_iff.1 hw
  exact exec_dclass_of_classify hs ht h1 h2 (hcfg ▸ he)

theorem exec_rddtab {d : Nat} (h1 : 1 ≤ d) (h2 : d ≤ 32768) {w : Word}
    (hw : (classify defaultDspec d).map packClass = some w) :
    exec (.rddtab (distanceIndex d)) s = .next (s.answered 0 w) :=
  (exec_rddtab_distanceIndex h.1 h1 h2).trans (h.exec_dclass h1 h2 hw)

theorem exec_lxb {i : Nat} {r : SpecRow} (hr : defaultLspec[i]? = some r) :
    exec (.lxb (257 + i)) s = .next (s.answered 0 (BitVec.ofNat 32 r.extra.toNat)) := by
  obtain ⟨hs, hcfg, ht⟩ := h
  exact exec_lxb_of_row hs ht (hcfg ▸ hr)

theorem exec_dxb {i : Nat} {r : SpecRow} (hr : defaultDspec[i]? = some r) :
    exec (.dxb i) s = .next (s.answered 0 (BitVec.ofNat 32 r.extra.toNat)) := by
  obtain ⟨hs, hcfg, ht⟩ := h
  exact exec_dxb_of_row hs ht (hcfg ▸ hr)

end DefaultReady

/-! ## The obligations about the commands -/

/-- Settles O39: in `READY` the entry of a length is its class. -/
theorem lclassClassifiesALength : Obligations.LclassClassifiesALength := by
  refine ⟨formatA_lclass, fun s L h => exec_reader_of_not_ready rfl h,
    fun s L hs h => exec_lclass_outside hs h, fun s L hs h3 h258 => exec_lclass_inside hs h3 h258,
    fun s L hs ht h3 h258 => ?_, fun s hd => ?_⟩
  · obtain ⟨r, -, hr, -⟩ := classify_length s.cfg h3 h258
    exact ⟨_, hr, rfl, exec_lclass_of_classify hs ht h3 h258 hr⟩
  · exact ⟨hd.exec_lclass (by decide) (by decide) rfl, hd.exec_lclass (by decide) (by decide) rfl,
      hd.exec_lclass (by decide) (by decide) rfl, hd.exec_lclass (by decide) (by decide) rfl⟩

/-- Settles O40: in `READY` the entry at the index of a distance is its class. -/
theorem dclassClassifiesADistance : Obligations.DclassClassifiesADistance := by
  refine ⟨formatA_dclass, fun s d h => exec_reader_of_not_ready rfl h,
    fun s d hs h => exec_dclass_outside hs h, fun s d hs h1 h2 => exec_dclass_inside hs h1 h2,
    fun s d hs ht h1 h2 => ?_, by decide, by decide, by decide, fun s hd => ?_⟩
  · obtain ⟨r, -, hr, -⟩ := classify_distance s.cfg h1 h2
    exact ⟨_, hr, rfl, exec_dclass_of_classify hs ht h1 h2 hr⟩
  · exact hd.exec_dclass (by decide) (by decide) rfl

/-- Settles O41: the entry of a code is that of the row of its number. -/
theorem lxbReadsTheExtraBitsOfALengthCode : Obligations.LxbReadsTheExtraBitsOfALengthCode :=
  ⟨formatA_lxb, fun _ _ h => exec_reader_of_not_ready rfl h, fun _ _ hs h => exec_lxb_outside hs h,
    fun _ _ hs h257 h285 => exec_lxb_inside hs h257 h285,
    fun _ hd => ⟨hd.exec_lxb (i := 23) rfl, hd.exec_lxb (i := 27) rfl, hd.exec_lxb (i := 28) rfl⟩⟩

/-- Settles O42: the entry of a code is that of its row. -/
theorem dxbReadsTheExtraBitsOfADistanceCode : Obligations.DxbReadsTheExtraBitsOfADistanceCode :=
  ⟨formatA_dxb, fun _ _ h => exec_reader_of_not_ready rfl h, fun _ _ hs h => exec_dxb_outside hs h,
    fun _ _ hs h => exec_dxb_inside hs h,
    fun _ hd => ⟨hd.exec_dxb (i := 0) rfl, hd.exec_dxb (i := 29) rfl⟩⟩

/-- Settles O43: no state condition, and an index is below 512. -/
theorem didxGivesTheDistanceIndexInEveryMode : Obligations.DidxGivesTheDistanceIndexInEveryMode := by
  have hinside : ∀ (s : State) (d : Nat), 1 ≤ d → d ≤ 32768 →
      exec (.didx d) s = .next (s.answered 0 (BitVec.ofNat 32 (distanceIndex d))) := fun s d h1 h2 => by
    rw [exec, execDidx, (distanceInDomain_iff d).2 ⟨h1, h2⟩]
    rfl
  refine ⟨formatA_didx, fun s d h => ?_, fun s d h1 h2 => ⟨hinside s d h1 h2, ?_⟩, fun s => ?_⟩
  · exact congrArg Host.Outcome.next (checked_domainError (mt (distanceInDomain_iff d).1 h) _)
  · rw [BitVec.toNat_ofNat, Nat.mod_eq_of_lt ((distanceIndex_lt h2).trans (by decide))]
  · exact ⟨hinside s 256 (by decide) (by decide), hinside s 257 (by decide) (by decide),
      hinside s 384 (by decide) (by decide), hinside s 385 (by decide) (by decide),
      hinside s 32768 (by decide) (by decide)⟩

/-- Settles O44: the bound of `RDLTAB` lets in the sentinels below the domain of `LCLASS`. -/
theorem rdltabReadsARawEntry : Obligations.RdltabReadsARawEntry :=
  ⟨formatA_rdltab, fun _ _ h => exec_reader_of_not_ready rfl h,
    fun _ _ hs h => exec_rdltab_outside hs h,
    fun _ _ hs h => ⟨exec_rdltab_inside hs h, fun h3 => exec_rdltab_eq_lclass hs h3 h⟩,
    fun _ _ hs ht h => ⟨exec_rdltab_sentinel hs ht h, exec_lclass_outside hs (by omega)⟩,
    fun _ hd => (exec_rdltab_eq_lclass hd.1 (by decide) (by decide)).trans
      (hd.exec_lclass (by decide) (by decide) rfl)⟩

/-- Settles O45: the slots 256 and 257 are blank, and any other is read through one of its distances. -/
theorem rddtabReadsARawEntry : Obligations.RddtabReadsARawEntry :=
  ⟨formatA_rddtab, fun _ _ h => exec_reader_of_not_ready rfl h,
    fun _ _ hs h => exec_rddtab_outside hs h, fun _ _ hs h => exec_rddtab_inside hs h,
    fun _ _ hs ht h => exec_rddtab_blank hs ht h,
    fun _ hd => ⟨hd.exec_rddtab (d := 16384) (by decide) (by decide) rfl,
      hd.exec_rddtab (d := 16385) (by decide) (by decide) rfl,
      hd.exec_rddtab (d := 32768) (by decide) (by decide) rfl⟩⟩

end Sys2Proof.Machine
end

section
/-! The classifications as the source's functions: the fields of the packed results, their order and their
offsets: R101 to R104 (O46 to O48). -/

namespace Sys2Proof.Machine

theorem codeField_packClass (e : ClassEntry) : codeField (packClass e) = e.code.toNat := by
  obtain ⟨-, hcode, -⟩ := packClass_fields e
  rw [codeField, hcode]

theorem baseField_packClass (e : ClassEntry) : baseField (packClass e) = e.base.toNat := by
  obtain ⟨hbase, -⟩ := packClass_fields e
  rw [baseField, hbase]

theorem extraField_packClass (e : ClassEntry) : extraField (packClass e) = e.extra.toNat := by
  obtain ⟨-, -, hextra, -⟩ := packClass_fields e
  rw [extraField, hextra]

namespace IntervalTable

variable {n code0 lo hi maxExtra : Nat} {rows : List SpecRow}
  (h : IntervalTable n code0 lo hi maxExtra rows) {v i : Nat} {r : SpecRow} (hr : RowAt rows v i r)
include h hr

/-- The fields of a packed class, by the row of the value (R101). -/
theorem packed_fields : i < n ∧ codeField (packClass (rowEntry r)) = code0 + i ∧
    baseField (packClass (rowEntry r)) = r.start.toNat ∧
    extraField (packClass (rowEntry r)) = r.extra.toNat ∧ r.extra.toNat ≤ maxExtra :=
  ⟨h.index_lt hr.row, (codeField_packClass _).trans (h.code_eq hr.row), baseField_packClass _,
    extraField_packClass _, (h.extra_bounds hr.row).1⟩

/-- A greater value has no smaller code and no smaller base (R102). -/
theorem packed_mono {w j : Nat} {q : SpecRow} (hq : RowAt rows w j q) (hvw : v ≤ w) :
    codeField (packClass (rowEntry r)) ≤ codeField (packClass (rowEntry q)) ∧
    baseField (packClass (rowEntry r)) ≤ baseField (packClass (rowEntry q)) := by
  obtain ⟨-, hcode, hbase, -⟩ := h.packed_fields hr
  obtain ⟨-, hcode', hbase', -⟩ := h.packed_fields hq
  have hij := h.index_mono hr hq hvw
  rw [hcode, hcode', hbase, hbase']
  exact ⟨Nat.add_le_add_left hij _, h.start_mono hr.row hq.row hij⟩

/-- The offset of a value in its row fits in the extra bits (R103). -/
theorem packed_offset : baseField (packClass (rowEntry r)) ≤ v ∧
    v ≤ baseField (packClass (rowEntry r)) + 2 ^ extraField (packClass (rowEntry r)) - 1 := by
  obtain ⟨-, -, hbase, hextra, -⟩ := h.packed_fields hr
  have hsize := (h.extra_bounds hr.row).2
  have hstart := hr.start_le
  have hstop := hr.le_stop
  rw [hbase, hextra]
  omega

end IntervalTable

section

variable {s : State} (hs : s.mode = .ready) (ht : FixedTables s.cfg s.mem)
include hs ht

/-- What `LCLASS` answers, by the row of the length. -/
theorem exec_lclass_rowAt {L : Nat} (h3 : 3 ≤ L) (h258 : L ≤ 258) :
    ∃ i r, RowAt s.cfg.lspec L i r ∧ classify s.cfg.lspec L = some (rowEntry r) ∧
      exec (.lclass L) s = .next (s.answered 0 (packClass (rowEntry r))) := by
  obtain ⟨i, r, hr⟩ := s.cfg.lspec_table.exists_rowAt h3 h258
  have hclass := s.cfg.lspec_table.classify_of_rowAt hr
  exact ⟨i, r, hr, hclass, exec_lclass_of_classify hs ht h3 h258 hclass⟩

/-- What `DCLASS` answers, by the row of the distance. -/
theorem exec_dclass_rowAt {d : Nat} (h1 : 1 ≤ d) (h2 : d ≤ 32768) :
    ∃ i r, RowAt s.cfg.dspec d i r ∧ classify s.cfg.dspec d = some (rowEntry r) ∧
      exec (.dclass d) s = .next (s.answered 0 (packClass (rowEntry r))) := by
  obtain ⟨i, r, hr⟩ := s.cfg.dspec_table.exists_rowAt h1 h2
  have hclass := s.cfg.dspec_table.classify_of_rowAt hr
  exact ⟨i, r, hr, hclass, exec_dclass_of_classify hs ht h1 h2 hclass⟩

end

/-- Settles O46: a value's code is the number of its row, at which the reverse map holds the row's extra
bits. -/
theorem theReverseMapsAgreeWithTheClassification :
    Obligations.TheReverseMapsAgreeWithTheClassification := by
  refine fun s hs ht => ⟨fun L h3 h258 => ?_, fun d h1 h2 => ?_⟩
  · obtain ⟨i, r, hr, hclass, hexec⟩ := exec_lclass_rowAt hs ht h3 h258
    obtain ⟨hi, hcode, hbase, hextra, hmax⟩ := s.cfg.lspec_table.packed_fields hr
    exact ⟨_, _, hexec, hclass, codeField_packClass _, hbase, hextra, by omega, by omega, by omega,
      rfl, rfl, rfl, by rw [hcode, hextra]; exact exec_lxb_of_row hs ht hr.row⟩
  · obtain ⟨i, r, hr, hclass, hexec⟩ := exec_dclass_rowAt hs ht h1 h2
    obtain ⟨hi, hcode, hbase, hextra, hmax⟩ := s.cfg.dspec_table.packed_fields hr
    rw [Nat.zero_add] at hcode
    exact ⟨_, _, hexec, hclass, codeField_packClass _, hbase, hextra, by omega, by omega,
      rfl, rfl, rfl, by rw [hcode, hextra]; exact exec_dxb_of_row hs ht hr.row⟩

/-- Settles O47: a greater value lies in no earlier row, and codes and bases rise with the rows. -/
theorem classificationPreservesOrder : Obligations.ClassificationPreservesOrder := by
  refine fun s hs ht => ⟨fun a b h3 hab h258 => ?_, fun a b h1 hab h2 => ?_⟩
  · obtain ⟨i, r, hr, -, hexec⟩ := exec_lclass_rowAt hs ht h3 (hab.le.trans h258)
    obtain ⟨j, q, hq, -, hexec'⟩ := exec_lclass_rowAt hs ht (h3.trans hab.le) h258
    exact ⟨_, _, hexec, hexec', s.cfg.lspec_table.packed_mono hr hq hab.le⟩
  · obtain ⟨i, r, hr, -, hexec⟩ := exec_dclass_rowAt hs ht h1 (hab.le.trans h2)
    obtain ⟨j, q, hq, -, hexec'⟩ := exec_dclass_rowAt hs ht (h1.trans hab.le) h2
    exact ⟨_, _, hexec, hexec', s.cfg.dspec_table.packed_mono hr hq hab.le⟩

/-- Settles O48: a row has at most as many values as its extra bits number. -/
theorem theOffsetFitsInTheExtraBits : Obligations.TheOffsetFitsInTheExtraBits := by
  refine ⟨fun s hs ht => ⟨fun L h3 h258 => ?_, fun d h1 h2 => ?_⟩, by decide, by decide, by decide,
    fun s hd => ⟨?_, ?_, ?_⟩⟩
  · obtain ⟨i, r, hr, -, hexec⟩ := exec_lclass_rowAt hs ht h3 h258
    exact ⟨_, hexec, s.cfg.lspec_table.packed_offset hr⟩
  · obtain ⟨i, r, hr, -, hexec⟩ := exec_dclass_rowAt hs ht h1 h2
    exact ⟨_, hexec, s.cfg.dspec_table.packed_offset hr⟩
  · exact ⟨_, hd.exec_lclass (by decide) (by decide) rfl, by decide, by decide⟩
  · exact ⟨_, hd.exec_dclass (by decide) (by decide) rfl, by decide, by decide⟩
  · exact ⟨_, hd.exec_dclass (by decide) (by decide) rfl, by decide⟩

end Sys2Proof.Machine
end

section
/-! The system commands: what `INIT` decides and leaves, the status word, and the readers of the two fixed
codes: R105 to R110 (O49 to O54). -/

namespace Sys2Proof.Machine

/-! ## The words of the commands -/

theorem formatN_init : FormatN 0x01 .init :=
  formatN_of_decode fun w h => by simp only [decode, h]; rfl

theorem formatN_stat : FormatN 0x02 .stat :=
  formatN_of_decode fun w h => by simp only [decode, h]; rfl

theorem formatA_rdfixl : FormatA 0x30 .rdfixl :=
  formatA_of_decode fun w h => by simp only [decode, h]; rfl

theorem formatA_rdfixd : FormatA 0x31 .rdfixd :=
  formatA_of_decode fun w h => by simp only [decode, h]; rfl

/-! ## `STAT` -/

theorem statusWord_toNat (s : State) : s.statusWord.toNat =
    s.mode.bits.toNat + s.err.toNat * 2 ^ 2 + s.cv.toNat * 2 ^ 5 + s.nsym.toNat * 2 ^ 16 := by
  simp only [State.statusWord, toNat_append_eq_add, BitVec.ofNat_eq_ofNat, BitVec.toNat_zero,
    BitVec.toNat_ofBool]
  omega

theorem statusWord_fields (s : State) :
    s.statusWord.extractLsb' 0 2 = s.mode.bits ∧ s.statusWord.extractLsb' 2 3 = s.err ∧
    s.statusWord.extractLsb' 5 1 = BitVec.ofBool s.cv ∧ s.statusWord.extractLsb' 6 10 = 0 ∧
    s.statusWord.extractLsb' 16 16 = s.nsym := by
  simp only [extractLsb'_eq_iff, statusWord_toNat, BitVec.ofNat_eq_ofNat, BitVec.toNat_zero,
    BitVec.toNat_ofBool]
  have := s.cv.toNat_le
  omega

/-- The low five bits of the status word are `MODE` and `ERR` (R108). -/
theorem statusWord_low (s : State) : s.statusWord.extractLsb' 0 5 = s.err ++ s.mode.bits := by
  rw [extractLsb'_eq_iff, statusWord_toNat, toNat_append_eq_add]
  omega

theorem exec_stat (s : State) : exec .stat s = .next (s.answered 0 s.statusWord) := rfl

/-- `STAT` answers the four status registers and nothing else of the state (R108). -/
theorem exec_stat_of_registers {s : State} {mode : Mode} {err : BitVec 3} {cv : Bool} {nsym : BitVec 16}
    (hmode : s.mode = mode) (herr : s.err = err) (hcv : s.cv = cv) (hnsym : s.nsym = nsym) :
    exec .stat s = .next (s.answered 0
      (nsym ++ (0 : BitVec 10) ++ BitVec.ofBool cv ++ err ++ mode.bits)) := by
  rw [exec_stat, State.statusWord, hmode, herr, hcv, hnsym]

/-- Settles O52: the status word is a concatenation, so its fields are read off the sum it is. -/
theorem statReadsTheStatusWordInEveryMode : Obligations.StatReadsTheStatusWordInEveryMode := by
  refine ⟨formatN_stat, by decide, fun s => ?_, by decide, fun s hmode herr => ?_,
    fun s hmode herr hcv hnsym => ?_⟩
  · obtain ⟨hmode, herr, hcv, hgap, hnsym⟩ := statusWord_fields s
    exact ⟨exec_stat s, hmode, herr, hcv, hgap, hnsym, statusWord_toNat s⟩
  · rw [statusWord_low, hmode, herr]
    rfl
  · exact exec_stat_of_registers hmode herr hcv hnsym

/-! ## `INIT` -/

/-- `s` after an `INIT` that built the fixed tables, `DTAB` being `u` (R105). -/
def State.initialised (s : State) (u : Table ClassEntry) : State :=
  State.answered { s with
    mode := .ready, work := constructedWork s.work
    mem := constructedMem s.cfg s.mem fixllEntries fixdEntries u } 0 0

/-- `s` after an `INIT` whose consistency check fired, `DTAB` being left as `u` (R105). -/
def State.initFailed (s : State) (u : Table ClassEntry) : State :=
  State.answered { s with
    mode := .failed, err := 3, work := constructedWork s.work
    mem := constructedMem s.cfg s.mem fixllEntries fixdEntries u } 3 0

theorem exec_init_of_not_uninit {s : State} (h : s.mode ≠ .uninit) :
    exec .init s = .next (s.answered 5 0) := by
  have huninit : s.isUninit = false := decide_eq_false h
  rw [exec, execInit, huninit, checked_false]
  rfl

section

variable {s : State} (hs : s.mode = .uninit)
include hs

theorem exec_init_of_uninit : exec .init s = .next s.runInit := by
  have huninit : s.isUninit = true := decide_eq_true hs
  rw [exec, execInit, huninit, checked_true_true]

/-- From `UNINIT` the soundness of the compaction decides between the two ends of `INIT` (R105, R106). -/
theorem exec_init_of_sound (h : CompactionSound s.cfg.dspec) :
    ∃ u, buildDtab s.cfg.dspec s.mem.dtab = .ok u ∧ exec .init s = .next (s.initialised u) := by
  rw [exec_init_of_uninit hs]
  obtain ⟨u, hu, hrun⟩ | ⟨u, hu, -⟩ := runInit_cases s
  · exact ⟨u, hu, congrArg Host.Outcome.next hrun⟩
  · exact absurd h ((buildDtab_raises_iff s.cfg _).1 ⟨u, hu⟩)

theorem exec_init_of_unsound (h : ¬ CompactionSound s.cfg.dspec) :
    ∃ u, exec .init s = .next (s.initFailed u) := by
  rw [exec_init_of_uninit hs]
  obtain ⟨u, hu, -⟩ | ⟨u, -, hrun⟩ := runInit_cases s
  · obtain ⟨v, hv⟩ := (buildDtab_raises_iff s.cfg s.mem.dtab).2 h
    cases hu.symm.trans hv
  · exact ⟨u, congrArg Host.Outcome.next hrun⟩

end

theorem initKeeps_initialised (s : State) (u : Table ClassEntry) : InitKeeps s (s.initialised u) :=
  ⟨rfl, rfl, rfl, rfl, rfl, rfl, rfl⟩

theorem initKeeps_initFailed (s : State) (u : Table ClassEntry) : InitKeeps s (s.initFailed u) :=
  ⟨rfl, rfl, rfl, rfl, rfl, rfl, rfl⟩

/-- The fixed tables are those of the configuration once `INIT` has built them (R107). -/
theorem fixedTables_initialised {s : State} {u : Table ClassEntry}
    (h : buildDtab s.cfg.dspec s.mem.dtab = .ok u) :
    FixedTables (s.initialised u).cfg (s.initialised u).mem :=
  fixedTables_constructedMem h

/-- Settles O49: the soundness of the compaction decides how `INIT` ends, and reset has the default
configuration, which is sound. -/
theorem initBuildsTheFixedTablesOnceOrFails : Obligations.InitBuildsTheFixedTablesOnceOrFails := by
  refine ⟨formatN_init, by decide, fun s h => exec_init_of_not_uninit h, fun s hs hsound => ?_,
    fun s hs hunsound => ?_, ?_⟩
  · obtain ⟨u, hu, hexec⟩ := exec_init_of_sound hs hsound
    exact ⟨_, hexec, rfl, rfl, fixedTables_initialised hu, initKeeps_initialised s u, rfl⟩
  · obtain ⟨u, hexec⟩ := exec_init_of_unsound hs hunsound
    exact ⟨_, hexec, rfl, rfl, initKeeps_initFailed s u, rfl⟩
  · obtain ⟨u, -, hexec⟩ := exec_init_of_sound (s := State.reset) rfl compactionSound_defaultDspec
    exact ⟨_, hexec, rfl, rfl, exec_stat_of_registers (mode := .ready) (err := 0)
      (cv := false) (nsym := 0) rfl rfl rfl rfl⟩

/-- The default configuration with rows 16 and 17 of `DSPEC` changed as R93 says: well formed, but not
sound. -/
def misalignedConfig : Configuration :=
  { lspec := defaultLspec, dspec := misalignedDspec, nsymMax := 288, wf := by decide }

theorem not_compactionSound_misalignedConfig : ¬ CompactionSound misalignedConfig.dspec :=
  not_compactionSound_of_misaligned (r := ⟨17, 8, 384, 512⟩) (by decide) (by decide) (by decide)

/-- Settles O50: `INIT` ends in `READY` or with `TableInconsistency`, by the soundness of the compaction;
the default table is sound and the misaligned one of R93 is not. -/
theorem initFailsOnlyWithTableInconsistency : Obligations.InitFailsOnlyWithTableInconsistency := by
  refine ⟨k15_profileLL, k15_profileD, fun s t hs ht => ?_, fun s t hs ht hdefault => ?_,
    misalignedConfig, fun s hs hcfg => ?_⟩
  · by_cases hsound : CompactionSound s.cfg.dspec
    · obtain ⟨u, -, hexec⟩ := exec_init_of_sound hs hsound
      cases ht.symm.trans hexec
      exact .inl rfl
    · obtain ⟨u, hexec⟩ := exec_init_of_unsound hs hsound
      cases ht.symm.trans hexec
      exact .inr ⟨rfl, rfl⟩
  · obtain ⟨u, -, hexec⟩ := exec_init_of_sound hs (hdefault ▸ compactionSound_defaultDspec)
    cases ht.symm.trans hexec
    rfl
  · obtain ⟨u, hexec⟩ := exec_init_of_unsound hs (hcfg ▸ not_compactionSound_misalignedConfig)
    exact ⟨_, hexec, rfl, rfl⟩

/-- Settles O51: an `INIT` that answers ok did not raise, so it built the tables; and outside `UNINIT` no
command writes `MODE` or a fixed table. -/
theorem readyMeansBuiltAndNeverChanged : Obligations.ReadyMeansBuiltAndNeverChanged := by
  refine ⟨fun s t hs ht hok => ?_, fun i s t hs ht => ?_⟩
  · by_cases hsound : CompactionSound s.cfg.dspec
    · obtain ⟨u, hu, hexec⟩ := exec_init_of_sound hs hsound
      cases ht.symm.trans hexec
      exact fixedTables_initialised hu
    · obtain ⟨u, hexec⟩ := exec_init_of_unsound hs hsound
      cases ht.symm.trans hexec
      cases List.append_cancel_left hok
  · obtain ⟨hmode, hsame⟩ := exec_keeps_mode_fixedTables ht (by rw [hs]; decide)
    exact ⟨hmode.trans hs, hsame⟩

/-! ## `RDFIXL` and `RDFIXD` -/

theorem fixllSymbolInRange_iff (sym : Nat) : fixllSymbolInRange sym = true ↔ sym ≤ 287 := by
  simp [fixllSymbolInRange, Nat.lt_succ_iff]

theorem fixdSymbolInRange_iff (sym : Nat) : fixdSymbolInRange sym = true ↔ sym ≤ 31 := by
  simp [fixdSymbolInRange, Nat.lt_succ_iff]

section

variable {s : State} (hs : s.mode = .ready)
include hs

theorem exec_rdfixl_outside {sym : Nat} (h : 287 < sym) :
    exec (.rdfixl sym) s = .next (s.answered 2 0) :=
  checked_ready_domainError hs (mt (fixllSymbolInRange_iff sym).1 (Nat.not_le.2 h)) _

theorem exec_rdfixl_inside {sym : Nat} (h : sym ≤ 287) :
    exec (.rdfixl sym) s = .next (s.answered 0 (packCode (s.readFixll sym))) :=
  checked_ready_respond hs ((fixllSymbolInRange_iff sym).2 h) _

theorem exec_rdfixd_outside {sym : Nat} (h : 31 < sym) :
    exec (.rdfixd sym) s = .next (s.answered 2 0) :=
  checked_ready_domainError hs (mt (fixdSymbolInRange_iff sym).1 (Nat.not_le.2 h)) _

theorem exec_rdfixd_inside {sym : Nat} (h : sym ≤ 31) :
    exec (.rdfixd sym) s = .next (s.answered 0 (packCode (s.readFixd sym))) :=
  checked_ready_respond hs ((fixdSymbolInRange_iff sym).2 h) _

/-! With the fixed tables built, a symbol is answered with its entry of the code of the fixed profile. -/

variable (ht : FixedTables s.cfg s.mem) {out : List CodeEntry} {sym : Nat} {e : CodeEntry}
include ht

theorem exec_rdfixl_of_build (hb : build Config.profileLL = .ok out) (he : out[sym]? = some e)
    (h : sym ≤ 287) : exec (.rdfixl sym) s = .next (s.answered 0 (packCode e)) := by
  obtain ⟨out', hb', hlookup⟩ := ht.fixll
  cases hb'.symm.trans hb
  rw [exec_rdfixl_inside hs h, State.readFixll, hlookup sym (Nat.lt_succ_of_le h), he]
  rfl

theorem exec_rdfixd_of_build (hb : build Config.profileD = .ok out) (he : out[sym]? = some e)
    (h : sym ≤ 31) : exec (.rdfixd sym) s = .next (s.answered 0 (packCode e)) := by
  obtain ⟨out', hb', hlookup⟩ := ht.fixd
  cases hb'.symm.trans hb
  rw [exec_rdfixd_inside hs h, State.readFixd, hlookup sym (Nat.lt_succ_of_le h), he]
  rfl

end

/-- Settles O53: the examples lie in three of the four runs of the fixed literal/length code (R78). -/
theorem rdfixlReadsTheFixedLiteralLengthCode : Obligations.RdfixlReadsTheFixedLiteralLengthCode := by
  refine ⟨formatA_rdfixl, fun _ _ h => exec_reader_of_not_ready rfl h,
    fun _ _ hs h => exec_rdfixl_outside hs h, fun _ _ hs h => exec_rdfixl_inside hs h,
    fun s hs ht => ?_⟩
  obtain ⟨-, -, -, -, -, -, out, hb, -, -, -, hseven, height, hzero⟩ := theFixedLiteralLengthCode
  exact ⟨exec_rdfixl_of_build hs ht hb hzero (by decide),
    exec_rdfixl_of_build hs ht hb (hseven 256 (by decide) (by decide)) (by decide),
    exec_rdfixl_of_build hs ht hb (height 286 (by decide) (by decide)) (by decide),
    exec_rdfixl_of_build hs ht hb (height 287 (by decide) (by decide)) (by decide)⟩

/-- Settles O54: the examples are the first two codes of the fixed distance code (R79). -/
theorem rdfixdReadsTheFixedDistanceCode : Obligations.RdfixdReadsTheFixedDistanceCode := by
  refine ⟨formatA_rdfixd, fun _ _ h => exec_reader_of_not_ready rfl h,
    fun _ _ hs h => exec_rdfixd_outside hs h, fun _ _ hs h => exec_rdfixd_inside hs h,
    fun s hs ht => ?_⟩
  obtain ⟨-, -, -, -, out, hb, -, hcode, hone, -⟩ := theFixedDistanceCode
  exact ⟨exec_rdfixd_of_build hs ht hb (hcode 0 (by decide)) (by decide),
    exec_rdfixd_of_build hs ht hb hone (by decide)⟩

end Sys2Proof.Machine
end

section
/-! What a command that answers a condition leaves, by the rows of the table of R120 (O12). -/

namespace Sys2Proof.Machine

/-- How a command ends (R54, R120): with its answer, with one of the two checks failed, or with the
condition that the work of `BUILD` or of `INIT` raised. -/
inductive CommandEnd (s : State) : Instr → State → Prop
  | ok {i : Instr} {t : State} (data : Word)
      (h : t.responses = s.responses ++ [{ err := 0, data := data }]) : CommandEnd s i t
  | domainError (i : Instr) : CommandEnd s i (s.answered 2 0)
  | protocolError (i : Instr) : CommandEnd s i (s.answered 5 0)
  | notBuilt : CommandEnd s .build s.notBuilt
  | initFailed (u : Table ClassEntry) : CommandEnd s .init (s.initFailed u)

/-- The checks of R54 add the two conditions that leave the block as it was. -/
theorem commandEnd_checked {i : Instr} {s body : State} (stateOk operandOk : Bool)
    (h : CommandEnd s i body) : CommandEnd s i (s.checked stateOk operandOk body) := by
  obtain ⟨-, -, hb⟩ | ⟨-, -, hb⟩ | ⟨-, hb⟩ := checked_cases s stateOk operandOk body <;> rw [hb]
  · exact h
  · exact .domainError i
  · exact .protocolError i

theorem commandEnd_runBuild (s : State) : CommandEnd s .build s.runBuild := by
  obtain ⟨-, h⟩ | ⟨out, -, h⟩ := runBuild_cases s <;> rw [h]
  · exact .notBuilt
  · exact .ok 0 rfl

theorem commandEnd_runInit (s : State) : CommandEnd s .init s.runInit := by
  obtain ⟨u, -, h⟩ | ⟨u, -, h⟩ := runInit_cases s <;> rw [h]
  · exact .ok 0 rfl
  · exact .initFailed u

/-- Every command comes to one of these ends; only `BUILD` and `INIT` raise a condition in their work. -/
theorem exec_commandEnd (i : Instr) (s : State) : ∃ t, exec i s = .next t ∧ CommandEnd s i t := by
  cases i with
  | init => exact ⟨_, rfl, commandEnd_checked _ _ (commandEnd_runInit s)⟩
  | build => exact ⟨_, rfl, commandEnd_runBuild s⟩
  | stat | clrp => exact ⟨_, rfl, .ok _ rfl⟩
  | pushlen _ | rdcode _ | lclass _ | dclass _ | lxb _ | dxb _ | didx _ | rdltab _ | rddtab _
  | rdfixl _ | rdfixd _ => exact ⟨_, rfl, commandEnd_checked _ _ (.ok _ rfl)⟩

/-- Settles O12: of the ends of a command, the response tells which one it was, and each but the answer
leaves the state of its row. -/
theorem aConditionChangesOnlyWhatItsRowSays : Obligations.AConditionChangesOnlyWhatItsRowSays := by
  refine ⟨fun w s ⟨e, he⟩ => acceptWord_error he s, fun i s t r hexec hr herr => ?_⟩
  obtain ⟨t', hexec', hend⟩ := exec_commandEnd i s
  cases hexec'.symm.trans hexec
  cases hend with
  | ok data h =>
    cases List.append_cancel_left (h.symm.trans hr)
    exact absurd rfl herr
  | domainError =>
    cases List.append_cancel_left hr
    exact ⟨rfl, .inl ⟨.inl rfl, rfl⟩⟩
  | protocolError =>
    cases List.append_cancel_left hr
    exact ⟨rfl, .inl ⟨.inr rfl, rfl⟩⟩
  | notBuilt =>
    cases List.append_cancel_left hr
    exact ⟨rfl, .inr (.inl ⟨rfl, rfl, rfl⟩)⟩
  | initFailed u =>
    cases List.append_cancel_left hr
    exact ⟨rfl, .inr (.inr ⟨rfl, .inr rfl, rfl, rfl, initKeeps_initFailed s u⟩)⟩

end Sys2Proof.Machine
end

section
/-! Encoding and decoding are inverse: a command's word decodes to it, and no other word does: R48, R49,
R56, R58 (O1 to O3). -/

namespace Sys2Proof.Machine

/-! ## A command's word -/

theorem FormatN.decode_wordOf {op : BitVec 8} {i : Instr} (h : FormatN op i) :
    decode (wordOf op 0) = .ok i :=
  (h _ (opField_wordOf op 0)).1 (rsvField_wordOf op 0) (argField_wordOf op 0)

theorem FormatL.decode_wordOf {op : BitVec 8} {mk : Nat → Instr} (h : FormatL op mk) {n : Nat}
    (hn : lenFieldOk n = true) : decode (wordOf op n) = .ok (mk n) := by
  have hlt : n < 16 := of_decide_eq_true hn
  have harg : (argField (wordOf op n)).toNat = n := by
    rw [argField_wordOf, BitVec.toNat_ofNat, Nat.mod_eq_of_lt (by omega)]
  have hdec := (h _ (opField_wordOf op n)).1 (rsvField_wordOf op n) (harg.symm ▸ hlt)
  rwa [harg] at hdec

theorem FormatA.decode_wordOf {op : BitVec 8} {mk : Nat → Instr} (h : FormatA op mk) {n : Nat}
    (hn : argFieldOk n = true) : decode (wordOf op n) = .ok (mk n) := by
  have harg : (argField (wordOf op n)).toNat = n := by
    rw [argField_wordOf, BitVec.toNat_ofNat, Nat.mod_eq_of_lt (of_decide_eq_true hn)]
  have hdec := (h _ (opField_wordOf op n)).1 (rsvField_wordOf op n)
  rwa [harg] at hdec

/-- Settles O2: a word decodes by its fields, and those of a command's word are its opcode, 0 and its
operand, which fits. -/
theorem decodingAnEncodedCommandGivesItBack : Obligations.DecodingAnEncodedCommandGivesItBack
  | .init, _ => formatN_init.decode_wordOf
  | .stat, _ => formatN_stat.decode_wordOf
  | .clrp, _ => formatN_clrp.decode_wordOf
  | .pushlen _, h => formatL_pushlen.decode_wordOf h
  | .build, _ => formatN_build.decode_wordOf
  | .rdcode _, h => formatA_rdcode.decode_wordOf h
  | .lclass _, h => formatA_lclass.decode_wordOf h
  | .dclass _, h => formatA_dclass.decode_wordOf h
  | .lxb _, h => formatA_lxb.decode_wordOf h
  | .dxb _, h => formatA_dxb.decode_wordOf h
  | .didx _, h => formatA_didx.decode_wordOf h
  | .rdltab _, h => formatA_rdltab.decode_wordOf h
  | .rddtab _, h => formatA_rddtab.decode_wordOf h
  | .rdfixl _, h => formatA_rdfixl.decode_wordOf h
  | .rdfixd _, h => formatA_rdfixd.decode_wordOf h

/-- Settles O1: the words are the encodings of their commands. -/
theorem wordsFromTheSpecDecodeToTheirCommands : Obligations.WordsFromTheSpecDecodeToTheirCommands := by
  have hdec := decodingAnEncodedCommandGivesItBack
  exact ⟨hdec .init rfl, hdec .stat rfl, hdec (.pushlen 15) rfl, hdec (.rdcode 7) rfl,
    hdec (.dclass 32768) rfl, hdec (.didx 65535) rfl, hdec (.rdfixl 256) rfl⟩

/-! ## A word that decodes -/

theorem needRsvZero_eq_ok_iff {w : Word} {rest : Except DecodeError Instr} {i : Instr} :
    needRsvZero w rest = .ok i ↔ rsvField w = 0 ∧ rest = .ok i := by
  unfold needRsvZero
  split
  · next hrsv => exact ⟨fun hrest => ⟨hrsv, hrest⟩, And.right⟩
  · next hrsv => exact ⟨nofun, fun h => absurd h.1 hrsv⟩

/-- A word with `rsv` 0 is the one that its opcode and its operand make (R48). -/
theorem wordOf_argField {w : Word} {op : BitVec 8} (hop : (opField w).toNat = op.toNat)
    (hrsv : rsvField w = 0) : wordOf op (argField w).toNat = w := by
  rw [eq_iff_fields, opField_wordOf, rsvField_wordOf, argField_wordOf, BitVec.ofNat_toNat,
    BitVec.setWidth_eq]
  exact ⟨(BitVec.eq_of_toNat_eq hop).symm, hrsv.symm, rfl⟩

/-- `i` is a well-formed command and `w` is its word. -/
def Encodes (i : Instr) (w : Word) : Prop := i.wellFormed = true ∧ encode i = w

section

variable {w : Word} {op : BitVec 8} (hop : (opField w).toNat = op.toNat) {i : Instr}
  {mk : Nat → Instr}
include hop

theorem encodes_of_decodeN {c : Instr} (hwf : c.wellFormed = true) (henc : encode c = wordOf op 0)
    (h : decodeN w c = .ok i) : Encodes i w := by
  obtain ⟨hrsv, h⟩ := needRsvZero_eq_ok_iff.1 h
  split at h
  · next harg =>
    cases h
    have hw := wordOf_argField hop hrsv
    rw [harg] at hw
    exact ⟨hwf, henc.trans hw⟩
  · cases h

theorem encodes_of_decodeL (hwf : ∀ n, (mk n).wellFormed = lenFieldOk n)
    (henc : ∀ n, encode (mk n) = wordOf op n) (h : decodeL w mk = .ok i) : Encodes i w := by
  obtain ⟨hrsv, h⟩ := needRsvZero_eq_ok_iff.1 h
  split at h
  · next hhigh =>
    cases h
    have hlt := (highBits_eq_zero_iff _).1 hhigh
    have hlow : ((argField w).extractLsb' 0 4).toNat = (argField w).toNat := by
      rw [BitVec.extractLsb'_toNat, Nat.shiftRight_zero, Nat.mod_eq_of_lt hlt]
    rw [hlow]
    exact ⟨(hwf _).trans (decide_eq_true hlt), (henc _).trans (wordOf_argField hop hrsv)⟩
  · cases h

theorem encodes_of_decodeA (hwf : ∀ n, (mk n).wellFormed = argFieldOk n)
    (henc : ∀ n, encode (mk n) = wordOf op n) (h : decodeA w mk = .ok i) : Encodes i w := by
  obtain ⟨hrsv, h⟩ := needRsvZero_eq_ok_iff.1 h
  cases h
  exact ⟨(hwf _).trans (decide_eq_true (argField w).isLt),
    (henc _).trans (wordOf_argField hop hrsv)⟩

end

/-- Settles O3: by the word's opcode; the checks of its format leave one word for the command. -/
theorem encodingADecodedWordGivesItBack : Obligations.EncodingADecodedWordGivesItBack := by
  intro w i h
  unfold decode at h
  split at h
  · next hop => exact encodes_of_decodeN (op := 0x01) hop rfl rfl h
  · next hop => exact encodes_of_decodeN (op := 0x02) hop rfl rfl h
  · next hop => exact encodes_of_decodeN (op := 0x10) hop rfl rfl h
  · next hop => exact encodes_of_decodeL (op := 0x11) hop (fun _ => rfl) (fun _ => rfl) h
  · next hop => exact encodes_of_decodeN (op := 0x12) hop rfl rfl h
  · next hop => exact encodes_of_decodeA (op := 0x13) hop (fun _ => rfl) (fun _ => rfl) h
  · next hop => exact encodes_of_decodeA (op := 0x20) hop (fun _ => rfl) (fun _ => rfl) h
  · next hop => exact encodes_of_decodeA (op := 0x21) hop (fun _ => rfl) (fun _ => rfl) h
  · next hop => exact encodes_of_decodeA (op := 0x22) hop (fun _ => rfl) (fun _ => rfl) h
  · next hop => exact encodes_of_decodeA (op := 0x23) hop (fun _ => rfl) (fun _ => rfl) h
  · next hop => exact encodes_of_decodeA (op := 0x24) hop (fun _ => rfl) (fun _ => rfl) h
  · next hop => exact encodes_of_decodeA (op := 0x25) hop (fun _ => rfl) (fun _ => rfl) h
  · next hop => exact encodes_of_decodeA (op := 0x26) hop (fun _ => rfl) (fun _ => rfl) h
  · next hop => exact encodes_of_decodeA (op := 0x30) hop (fun _ => rfl) (fun _ => rfl) h
  · next hop => exact encodes_of_decodeA (op := 0x31) hop (fun _ => rfl) (fun _ => rfl) h
  · cases h

end Sys2Proof.Machine
end

section
/-! What one step does with each input, and what a run over words comes to: R43, R54, R129, R139 (O6, O7,
O9 to O11, O13). -/

namespace Sys2Proof.Machine

/-! ## One step per input -/

/-- A step with no input left (R127, R130). -/
theorem step_idle {s : State} (h : s.inputs = []) : step s = .next s := by
  simp only [step, acceptInput, h]

/-- A step with the reset input next (R129). -/
theorem step_reset {s : State} {rest : List HostInput} (h : s.inputs = .reset :: rest) :
    step s = .next (State.applyReset { s with inputs := rest }) := by
  simp only [step, acceptInput, h]

/-- Settles O6: a step with a word takes it, and a word that decodes is its command. -/
theorem aStepRunsTheDecodedCommand : Obligations.AStepRunsTheDecodedCommand :=
  fun _ _ _ _ hs hdec => (step_command hs).trans (acceptWord_ok hdec _)

/-- Settles O7: with no input the step is the one that waits. -/
theorem anIdleBlockWaitsUnchanged : Obligations.AnIdleBlockWaitsUnchanged :=
  fun _ h => step_idle h

theorem statusWord_applyReset (s : State) : s.applyReset.statusWord = 0 := by
  rw [State.statusWord, applyReset_nsym, applyReset_cv, applyReset_err, applyReset_mode]
  decide

/-- Settles O10: the status word is made of the four registers, so it is 0 with them. -/
theorem resetPutsTheStatusRegistersAtTheirResetValues :
    Obligations.ResetPutsTheStatusRegistersAtTheirResetValues := fun _ _ hs =>
  ⟨_, step_reset hs, rfl, rfl, rfl, rfl, statusWord_applyReset _, rfl, rfl, rfl⟩

/-- Settles O13: each check of R54 ends the command before the next one is made. -/
theorem theStateIsCheckedBeforeTheOperand : Obligations.TheStateIsCheckedBeforeTheOperand :=
  ⟨fun _ _ hi hmode => exec_reader_of_not_ready hi hmode,
    fun sym _ hcv => exec_rdcode_of_not_cv hcv sym, fun _ s ⟨_, he⟩ => acceptWord_error he s⟩

/-! ## The configuration -/

/-- No command writes the configuration (R19, R31). -/
theorem exec_keeps_cfg {i : Instr} {s t : State} (h : exec i s = .next t) : t.cfg = s.cfg := by
  rcases exec_cases i s with ⟨r, he⟩ | ⟨-, he⟩ | ⟨len, -, -, he⟩ | ⟨-, he⟩ | ⟨-, -, he⟩
  · cases he.symm.trans h; rfl
  · cases he.symm.trans h; rfl
  · cases he.symm.trans h; rfl
  · obtain rfl := Host.Outcome.next.inj (he.symm.trans h)
    rcases runBuild_cases s with ⟨-, hs⟩ | ⟨out, -, hs⟩ <;> rw [hs]
  · obtain rfl := Host.Outcome.next.inj (he.symm.trans h)
    rcases runInit_cases s with ⟨u, -, hs⟩ | ⟨u, -, hs⟩ <;> rw [hs]

/-- Settles O11: of everything a step can do, no command and not the reset writes the configuration. -/
theorem nothingChangesTheConfiguration : Obligations.NothingChangesTheConfiguration := by
  intro s t h
  rcases step_cases s with ⟨-, he⟩ | ⟨-, rest, i, -, -, he⟩ | ⟨-, rest, -, -, -, he⟩ | ⟨rest, -, he⟩
  · cases he.symm.trans h; rfl
  · exact exec_keeps_cfg (s := { s with inputs := rest }) (he.symm.trans h)
  · cases he.symm.trans h; rfl
  · cases he.symm.trans h; rfl

/-! ## A run over words -/

/-- With nothing but words to come, a run of as many steps takes them all and gives each its response. -/
theorem run_words (ws : List Word) {s : State} (hs : s.inputs = ws.map HostInput.command) :
    ∃ t rs, Host.Core.run Sys2Proof.core ws.length s = .next t ∧
      t.inputs = [] ∧ t.responses = s.responses ++ rs ∧ rs.length = ws.length := by
  induction ws generalizing s with
  | nil => exact ⟨s, [], rfl, hs, (List.append_nil _).symm, rfl⟩
  | cons w ws ih =>
    obtain ⟨u, r, hstep, hin, hr, -⟩ := everyWordGetsExactlyOneResponse s w _ hs
    obtain ⟨t, rs, hrun, hend, hresp, hlen⟩ := ih hin
    refine ⟨t, r :: rs, (run_succ hstep _).trans hrun, hend, ?_, congrArg Nat.succ hlen⟩
    rw [hresp, hr, List.append_assoc, List.singleton_append]

/-- Settles O9: with no input left before, the words presented are all that is to come. -/
theorem aRunAnswersEveryWordAndNeverStops : Obligations.ARunAnswersEveryWordAndNeverStops := by
  intro s ws hs
  have hin : (s.present ws).inputs = ws.map HostInput.command := by
    rw [State.present, hs, List.nil_append]
  exact run_words ws hin

end Sys2Proof.Machine
end

section
/-! The invariant of R33 as two facts: reset establishes it and every step keeps it (O55, O56). -/

namespace Sys2Proof.Machine

/-- Settles O55: the state after reset has the reset values of R32, whatever the configuration. -/
theorem theResetStateMeetsTheInvariant : Obligations.TheResetStateMeetsTheInvariant := by
  have hpowerOn : ∀ c : Configuration, (State.powerOn c).Inv :=
    fun _ => inv_of_resetValues rfl rfl rfl rfl rfl
  exact ⟨hpowerOn, hpowerOn defaultConfig⟩

/-- Settles O56: a step ends in one state, and that state meets the invariant. -/
theorem everyStepKeepsTheInvariant : Obligations.EveryStepKeepsTheInvariant := by
  intro s t hs hstep
  obtain ⟨t', hstep', ht'⟩ := step_keeps_inv hs
  cases hstep'.symm.trans hstep
  exact ht'

end Sys2Proof.Machine
end

section
/-! The canonical form of a memory: equal reads are equal data (O59). -/

namespace Sys2Proof.Machine

variable {α : Type}

/-- In canonical form, an index that is listed with an entry reads as it. -/
theorem lookup_of_mem {t : Table α} (ht : t.wf) {p : Nat × α} (hp : p ∈ t) :
    t.lookup p.1 = some p.2 := by
  induction t with
  | nil => cases hp
  | cons q t ih =>
    obtain ⟨hq, ht⟩ := List.pairwise_cons.1 ht
    rw [lookup_cons]
    rcases List.mem_cons.1 hp with rfl | hp
    · exact if_pos rfl
    · rw [if_neg (Nat.ne_of_gt (hq p hp)), ih ht hp]

theorem mem_iff_lookup {t : Table α} (ht : t.wf) (p : Nat × α) : p ∈ t ↔ t.lookup p.1 = some p.2 :=
  ⟨lookup_of_mem ht, mem_of_lookup⟩

/-- Two tables in canonical form that read alike list the same pairs, and rising indices leave one order
for them. -/
theorem table_eq_of_lookup {t u : Table α} (ht : t.wf) (hu : u.wf)
    (h : ∀ i, t.lookup i = u.lookup i) : t = u := by
  have hirrefl : Std.Irrefl (fun a b : Nat × α => a.1 < b.1) := ⟨fun a => Nat.lt_irrefl a.1⟩
  have hantisymm : Std.Antisymm (fun a b : Nat × α => a.1 < b.1) :=
    ⟨fun _ _ hab hba => absurd hab (Nat.lt_asymm hba)⟩
  refine List.Pairwise.eq_of_mem_iff ht hu fun p => ?_
  rw [mem_iff_lookup ht, mem_iff_lookup hu, h]

/-- Settles O59: table by table. -/
theorem canonicalTablesAreDeterminedByTheirReads :
    Obligations.CanonicalTablesAreDeterminedByTheirReads := by
  rintro m n ⟨hm₁, hm₂, hm₃, hm₄, hm₅, hm₆, hm₇, hm₈⟩ ⟨hn₁, hn₂, hn₃, hn₄, hn₅, hn₆, hn₇, hn₈⟩
    len code fixll fixd ltab dtab lxtra dxtra
  cases m
  cases n
  rw [Memory.mk.injEq]
  exact ⟨table_eq_of_lookup hm₁ hn₁ len, table_eq_of_lookup hm₂ hn₂ code,
    table_eq_of_lookup hm₃ hn₃ fixll, table_eq_of_lookup hm₄ hn₄ fixd,
    table_eq_of_lookup hm₅ hn₅ ltab, table_eq_of_lookup hm₆ hn₆ dtab,
    table_eq_of_lookup hm₇ hn₇ lxtra, table_eq_of_lookup hm₈ hn₈ dxtra⟩

end Sys2Proof.Machine
end

section
/-! What no command can observe: what the builder does to a reader of the fixed tables (O15), the working
registers (R20, O16), and the entries that nothing has written since the reset (R32, O58). -/

namespace Sys2Proof.Machine

/-! ## Lookups of fixed tables -/

/-- A reader of a fixed table answers from `MODE`, its operand and its data alone. -/
theorem checked_ready_same {s₁ s₂ : State} (hmode : s₁.mode = s₂.mode) (operandOk : Bool)
    {data₁ data₂ : Word} (hdata : data₁ = data₂) :
    ∃ r : Response,
      Host.Outcome.next (φ := Fault) (ρ := Refusal)
        (s₁.checked s₁.isReady operandOk (s₁.respond data₁)) = .next (s₁.answered r.err r.data) ∧
      Host.Outcome.next (φ := Fault) (ρ := Refusal)
        (s₂.checked s₂.isReady operandOk (s₂.respond data₂)) = .next (s₂.answered r.err r.data) := by
  obtain ⟨r, hr⟩ := checked_respond_uniform s₁.isReady operandOk data₁
  have hready : s₂.isReady = s₁.isReady := by rw [State.isReady, State.isReady, hmode]
  rw [hready, ← hdata, hr s₁, hr s₂]
  exact ⟨r, rfl, rfl⟩

/-- Settles O15: the data of each reader is an entry of a fixed table, listed or free. -/
theorem fixedTableReadsDoNotSeeTheBuilder : Obligations.FixedTableReadsDoNotSeeTheBuilder := by
  rintro i s₁ s₂ hi hmode hresets ⟨hfixll, hfixd, hltab, hdtab, hlxtra, hdxtra⟩
  cases i with
  | lclass _ | rdltab _ =>
    exact checked_ready_same hmode _ (by rw [State.readLtab, State.readLtab, hltab, hresets])
  | dclass _ | rddtab _ =>
    exact checked_ready_same hmode _ (by rw [State.readDtab, State.readDtab, hdtab, hresets])
  | lxb _ =>
    exact checked_ready_same hmode _ (by rw [State.readLxtra, State.readLxtra, hlxtra, hresets])
  | dxb _ =>
    exact checked_ready_same hmode _ (by rw [State.readDxtra, State.readDxtra, hdxtra, hresets])
  | rdfixl _ =>
    exact checked_ready_same hmode _ (by rw [State.readFixll, State.readFixll, hfixll, hresets])
  | rdfixd _ =>
    exact checked_ready_same hmode _ (by rw [State.readFixd, State.readFixd, hfixd, hresets])
  | init | stat | clrp | pushlen _ | build | rdcode _ | didx _ => cases hi

/-! ## In the states of the invariant, an accepted read reads a listed entry -/

namespace State.Inv

variable {s : State} (hs : s.Inv)
include hs

theorem fixedTables_of_isReady (hready : s.isReady = true) : FixedTables s.cfg s.mem :=
  hs.fixedTables (of_decide_eq_true hready)

theorem isSome_code {sym : Nat} (hcv : s.cv = true) (hsym : symbolInProfile s sym = true) :
    (s.mem.code.lookup sym).isSome := by
  obtain ⟨out, hb, hcode⟩ := hs.codeValid hcv
  have hlt : sym < s.nsym.toNat := of_decide_eq_true hsym
  rw [hcode sym hlt, isSome_getElem?, build_ok_length hb, profile_length]
  exact hlt

theorem isSome_fixll {sym : Nat} (hready : s.isReady = true) (hsym : fixllSymbolInRange sym = true) :
    (s.mem.fixll.lookup sym).isSome := by
  obtain ⟨out, hb, hlookup⟩ := (hs.fixedTables_of_isReady hready).fixll
  cases build_profileLL_entries.symm.trans hb
  have hlt : sym < 288 := of_decide_eq_true hsym
  rw [hlookup sym hlt, isSome_getElem?, fixllEntries_length]
  exact hlt

theorem isSome_fixd {sym : Nat} (hready : s.isReady = true) (hsym : fixdSymbolInRange sym = true) :
    (s.mem.fixd.lookup sym).isSome := by
  obtain ⟨out, hb, hlookup⟩ := (hs.fixedTables_of_isReady hready).fixd
  cases build_profileD_entries.symm.trans hb
  have hlt : sym < 32 := of_decide_eq_true hsym
  rw [hlookup sym hlt, isSome_getElem?, fixdEntries_length]
  exact hlt

theorem isSome_ltab {i : Nat} (hready : s.isReady = true) (hi : ltabIndexInRange i = true) :
    (s.mem.ltab.lookup i).isSome := by
  have ht := hs.fixedTables_of_isReady hready
  by_cases h3 : i < 3
  · rw [ht.ltabBlank i h3]
    rfl
  · have h258 := (ltabIndexInRange_iff i).1 hi
    obtain ⟨r, -, hr, -⟩ := classify_length s.cfg (Nat.not_lt.1 h3) h258
    rw [ht.ltab i (Nat.not_lt.1 h3) h258, hr]
    rfl

theorem isSome_ltab_of_length {L : Nat} (hready : s.isReady = true) (hL : lengthInDomain L = true) :
    (s.mem.ltab.lookup L).isSome :=
  hs.isSome_ltab hready ((ltabIndexInRange_iff L).2 ((lengthInDomain_iff L).1 hL).2)

theorem isSome_dtab_of_distance {d : Nat} (hready : s.isReady = true)
    (hd : distanceInDomain d = true) : (s.mem.dtab.lookup (distanceIndex d)).isSome := by
  obtain ⟨h1, h2⟩ := (distanceInDomain_iff d).1 hd
  obtain ⟨r, -, hr, -⟩ := classify_distance s.cfg h1 h2
  rw [(hs.fixedTables_of_isReady hready).dtab d h1 h2, hr]
  rfl

/-- A slot is one of the two blank ones or that of a distance (R87). -/
theorem isSome_dtab {i : Nat} (hready : s.isReady = true) (hi : dtabIndexInRange i = true) :
    (s.mem.dtab.lookup i).isSome := by
  by_cases hblank : i = 256 ∨ i = 257
  · rw [(hs.fixedTables_of_isReady hready).dtabBlank i hblank]
    rfl
  · obtain ⟨h256, h257⟩ := not_or.1 hblank
    rw [← distanceIndex_firstDistance h256 h257]
    refine hs.isSome_dtab_of_distance hready ((distanceInDomain_iff _).2 ⟨firstDistance_pos i, ?_⟩)
    exact firstDistance_le (of_decide_eq_true hi)

theorem isSome_lxtra {c : Nat} (hready : s.isReady = true) (hc : lengthCodeInRange c = true) :
    (s.mem.lxtra.lookup (c - 257)).isSome := by
  obtain ⟨h257, h285⟩ := (lengthCodeInRange_iff c).1 hc
  have hlt : c - 257 < 29 := by omega
  rw [(hs.fixedTables_of_isReady hready).lxtra _ hlt, Option.isSome_map, isSome_getElem?,
    s.cfg.lspec_wf.1]
  exact hlt

theorem isSome_dxtra {c : Nat} (hready : s.isReady = true) (hc : distanceCodeInRange c = true) :
    (s.mem.dxtra.lookup c).isSome := by
  have hlt : c < 30 := of_decide_eq_true hc
  rw [(hs.fixedTables_of_isReady hready).dxtra c hlt, Option.isSome_map, isSome_getElem?,
    s.cfg.dspec_wf.1]
  exact hlt

end State.Inv

/-! ## The ends of `BUILD` and `INIT`, by what they built -/

theorem runBuild_of_ok {s : State} {out : List CodeEntry} (h : build s.profile = .ok out) :
    s.runBuild = s.built out :=
  Host.Outcome.next.inj (exec_build_ok h)

theorem runBuild_of_error {s : State} {c : Condition} (h : build s.profile = .error c) :
    s.runBuild = s.notBuilt := by
  rcases runBuild_cases s with ⟨-, hs⟩ | ⟨out, hb, -⟩
  · exact hs
  · cases hb.symm.trans h

theorem runInit_of_ok {s : State} {u : Table ClassEntry}
    (h : buildDtab s.cfg.dspec s.mem.dtab = .ok u) : s.runInit = s.initialised u := by
  rcases runInit_cases s with ⟨v, hv, hs⟩ | ⟨v, hv, -⟩ <;> cases hv.symm.trans h
  exact hs

theorem runInit_of_error {s : State} {u : Table ClassEntry}
    (h : buildDtab s.cfg.dspec s.mem.dtab = .error u) : s.runInit = s.initFailed u := by
  rcases runInit_cases s with ⟨v, hv, -⟩ | ⟨v, hv, hs⟩ <;> cases hv.symm.trans h
  exact hs

/-! ## What a command leaves does not depend on what is unspecified -/

/-- `s` with other working registers and another number of resets, of which the unwritten entries are
functions: all that R20 and R32 leave unspecified. -/
def State.withUnspecified (s : State) (w : Work) (n : Nat) : State :=
  { s with work := w, resets := n }

section

variable {s : State} {w : Work} {n : Nat}

/-- A listed entry is read whatever the free value is, and so is a free value of the same reset. -/
theorem getD_free {α : Type} {o : Option α} {m : Nat} (free : Nat → α) (h : n = m ∨ o.isSome) :
    o.getD (free n) = o.getD (free m) := by
  rcases h with rfl | h
  · rfl
  · obtain ⟨e, rfl⟩ := Option.isSome_iff_exists.1 h
    rfl

theorem checked_withUnspecified (stateOk operandOk : Bool) {body body' : State}
    (h : stateOk = true → operandOk = true → body' = body.withUnspecified w n) :
    (s.withUnspecified w n).checked stateOk operandOk body' =
      (s.checked stateOk operandOk body).withUnspecified w n := by
  cases stateOk with
  | false => rfl
  | true =>
    cases operandOk with
    | false => rfl
    | true => exact h rfl rfl

/-- A reader whose checks let through only reads of listed entries answers alike. -/
theorem checked_read_withUnspecified {α : Type} {o : Option α} (stateOk operandOk : Bool)
    (free : Nat → α) (pack : α → Word) (h : n = s.resets ∨ s.Inv)
    (hlisted : s.Inv → stateOk = true → operandOk = true → o.isSome) :
    Host.Outcome.next (φ := Fault) (ρ := Refusal) ((s.withUnspecified w n).checked stateOk operandOk
        ((s.withUnspecified w n).respond (pack (o.getD (free n))))) =
      .next ((s.checked stateOk operandOk
        (s.respond (pack (o.getD (free s.resets))))).withUnspecified w n) := by
  refine congrArg _ (checked_withUnspecified _ _ fun hstate hoperand => ?_)
  rw [getD_free free (h.imp id fun hs => hlisted hs hstate hoperand)]
  rfl

theorem profile_withUnspecified (h : n = s.resets ∨ s.Inv) :
    (s.withUnspecified w n).profile = s.profile :=
  List.map_congr_left fun i hi =>
    getD_free (Config.freeLen · i) (h.imp id fun hs => hs.profileWritten i (List.mem_range.1 hi))

theorem runBuild_withUnspecified (h : n = s.resets ∨ s.Inv) :
    (s.withUnspecified w n).runBuild = s.runBuild.withUnspecified (workAfter w s.profile) n := by
  have hprofile := profile_withUnspecified (w := w) h
  cases hb : build s.profile with
  | ok out =>
    rw [runBuild_of_ok hb, runBuild_of_ok (hprofile.symm ▸ hb), State.built, hprofile]
    rfl
  | error c =>
    rw [runBuild_of_error hb, runBuild_of_error (hprofile.symm ▸ hb), State.notBuilt, hprofile]
    rfl

theorem runInit_withUnspecified :
    (s.withUnspecified w n).runInit = s.runInit.withUnspecified (constructedWork w) n := by
  cases hu : buildDtab s.cfg.dspec s.mem.dtab with
  | ok u =>
    rw [runInit_of_ok hu, runInit_of_ok (s := s.withUnspecified w n) hu]
    rfl
  | error u =>
    rw [runInit_of_error hu, runInit_of_error (s := s.withUnspecified w n) hu]
    rfl

end

/-- What a command leaves is one state, but for the working registers, which are a function of the working
registers before it: for any number of resets in the states of the invariant, and for its own in any. -/
theorem exec_withUnspecified (i : Instr) (s : State) :
    ∃ (t : State) (f : Work → Work), ∀ w n, (n = s.resets ∨ s.Inv) →
      exec i (s.withUnspecified w n) = .next (t.withUnspecified (f w) n) := by
  cases i with
  | stat => exact ⟨s.respond s.statusWord, id, fun _ _ _ => rfl⟩
  | clrp => exact ⟨State.respond { s with nsym := 0, cv := false } 0, id, fun _ _ _ => rfl⟩
  | pushlen len =>
    exact ⟨s.checked s.hasRoom true (s.pushed (BitVec.ofNat 4 len)), id, fun _ _ _ =>
      congrArg Host.Outcome.next (checked_withUnspecified _ _ fun _ _ => rfl)⟩
  | didx d =>
    exact ⟨s.checked true (distanceInDomain d) (s.respond (BitVec.ofNat 32 (distanceIndex d))), id,
      fun _ _ _ => congrArg Host.Outcome.next (checked_withUnspecified _ _ fun _ _ => rfl)⟩
  | build =>
    exact ⟨s.runBuild, (workAfter · s.profile), fun _ _ h =>
      congrArg Host.Outcome.next (runBuild_withUnspecified h)⟩
  | init =>
    by_cases hmode : s.mode = .uninit
    · exact ⟨s.runInit, constructedWork, fun w n _ =>
        (exec_init_of_uninit (s := s.withUnspecified w n) hmode).trans
          (congrArg Host.Outcome.next runInit_withUnspecified)⟩
    · exact ⟨s.answered 5 0, id, fun w n _ =>
        exec_init_of_not_uninit (s := s.withUnspecified w n) hmode⟩
  | rdcode sym =>
    exact ⟨_, id, fun _ _ h => checked_read_withUnspecified s.cv (symbolInProfile s sym)
      (Config.freeCode · sym) packCode h fun hs => hs.isSome_code⟩
  | rdfixl sym =>
    exact ⟨_, id, fun _ _ h => checked_read_withUnspecified s.isReady _
      (Config.freeFixll · sym) packCode h fun hs => hs.isSome_fixll⟩
  | rdfixd sym =>
    exact ⟨_, id, fun _ _ h => checked_read_withUnspecified s.isReady _
      (Config.freeFixd · sym) packCode h fun hs => hs.isSome_fixd⟩
  | lclass L =>
    exact ⟨_, id, fun _ _ h => checked_read_withUnspecified s.isReady _
      (Config.freeLtab · L) packClass h fun hs => hs.isSome_ltab_of_length⟩
  | dclass d =>
    exact ⟨_, id, fun _ _ h => checked_read_withUnspecified s.isReady _
      (Config.freeDtab · (distanceIndex d)) packClass h fun hs => hs.isSome_dtab_of_distance⟩
  | lxb c =>
    exact ⟨_, id, fun _ _ h => checked_read_withUnspecified s.isReady _
      (Config.freeLxtra · (c - 257)) (BitVec.setWidth 32) h fun hs => hs.isSome_lxtra⟩
  | dxb c =>
    exact ⟨_, id, fun _ _ h => checked_read_withUnspecified s.isReady _
      (Config.freeDxtra · c) (BitVec.setWidth 32) h fun hs => hs.isSome_dxtra⟩
  | rdltab j =>
    exact ⟨_, id, fun _ _ h => checked_read_withUnspecified s.isReady _
      (Config.freeLtab · j) packClass h fun hs => hs.isSome_ltab⟩
  | rddtab j =>
    exact ⟨_, id, fun _ _ h => checked_read_withUnspecified s.isReady _
      (Config.freeDtab · j) packClass h fun hs => hs.isSome_dtab⟩

/-- R20 for one command: other working registers before it change only the working registers after it. -/
theorem exec_withWork {i : Instr} {s t : State} (h : exec i s = .next t) (w : Work) :
    ∃ w', exec i { s with work := w } = .next { t with work := w' } := by
  obtain ⟨u, f, hu⟩ := exec_withUnspecified i s
  cases (hu s.work s.resets (.inl rfl)).symm.trans h
  exact ⟨f w, hu w s.resets (.inl rfl)⟩

/-- Settles O16: of everything a step can do, a command leaves the working registers a function of those
before it and the reset forgets them. -/
theorem theWorkingRegistersCannotBeObserved : Obligations.TheWorkingRegistersCannotBeObserved := by
  intro s t w h
  rcases step_cases s with ⟨hi, he⟩ | ⟨v, rest, i, hi, hd, he⟩ |
    ⟨v, rest, e, hi, hd, he⟩ | ⟨rest, hi, he⟩
  · cases he.symm.trans h
    exact ⟨w, step_idle hi⟩
  · obtain ⟨w', hw'⟩ := exec_withWork (he.symm.trans h) w
    exact ⟨w', (aStepRunsTheDecodedCommand { s with work := w } _ rest i hi hd).trans hw'⟩
  · cases he.symm.trans h
    exact ⟨w, (step_command (s := { s with work := w }) hi).trans (acceptWord_error hd _)⟩
  · cases he.symm.trans h
    exact ⟨_, step_reset (s := { s with work := w }) hi⟩

/-! ## The entry that an answer was read from -/

/-- A reader that answers `ok` passed both checks, so the entry it answers from is listed. -/
theorem exists_entry_of_ok {α : Type} {s : State} {stateOk operandOk : Bool} {o : Option α} {free : α}
    {pack : α → Word} {data : Word} (hlisted : stateOk = true → operandOk = true → o.isSome)
    (h : Host.Outcome.next (φ := Fault) (ρ := Refusal)
      (s.checked stateOk operandOk (s.respond (pack (o.getD free)))) = .next (s.answered 0 data)) :
    ∃ e, o = some e ∧ data = pack e := by
  obtain ⟨hstate, hoperand, rfl⟩ := checked_respond_ok (Host.Outcome.next.inj h)
  obtain ⟨e, rfl⟩ := Option.isSome_iff_exists.1 (hlisted hstate hoperand)
  exact ⟨e, rfl, rfl⟩

/-- Settles O58: the invariant lists every entry that the checks of a reader let it read, and the lengths
of the profile. -/
theorem noAcceptedReadReachesAnUnwrittenEntry :
    Obligations.NoAcceptedReadReachesAnUnwrittenEntry := by
  intro s hs
  refine ⟨fun i n => ?_, fun _ _ h => exists_entry_of_ok hs.isSome_code h,
    fun _ _ h => exists_entry_of_ok hs.isSome_fixll h,
    fun _ _ h => exists_entry_of_ok hs.isSome_fixd h,
    fun _ _ h => exists_entry_of_ok hs.isSome_ltab_of_length h,
    fun _ _ h => exists_entry_of_ok hs.isSome_dtab_of_distance h,
    fun _ _ h => exists_entry_of_ok hs.isSome_lxtra h,
    fun _ _ h => exists_entry_of_ok hs.isSome_dxtra h,
    fun _ _ h => exists_entry_of_ok hs.isSome_ltab h,
    fun _ _ h => exists_entry_of_ok hs.isSome_dtab h, fun i hi => ?_⟩
  · obtain ⟨t, f, ht⟩ := exec_withUnspecified i s
    exact ⟨_, ht s.work s.resets (.inl rfl), ht s.work n (.inr hs)⟩
  · obtain ⟨l, hl⟩ := Option.isSome_iff_exists.1 (hs.profileWritten i hi)
    rw [State.readLen, hl]
    rfl

end Sys2Proof.Machine
end
